-- ==== Sys2Proof/Word.lean ====
section
/-! DEFINITION. The word types of the machine: bytes, FP16 values, complex elements, registers (00_scope.md R13 to R15). -/

namespace Sys2Proof

/-- One byte of memory (20_memory.md R50). -/
abbrev Byte := BitVec 8

/-- The 16 bits of one FP16 value (40_complex_multiply.md R120). -/
abbrev Fp16 := BitVec 16

/-- The 32 bits of one complex element: imaginary part above real part (00_scope.md R14). -/
abbrev Dword := BitVec 32

/-- A 64-bit register, address or mask (10_state.md R24, R30, R32). -/
abbrev Qword := BitVec 64

/-- A vector register, `MAXVL = 512` bits (10_state.md R21). -/
abbrev Zmm := BitVec 512

/-- The number of a vector register, 0 to 31 (30_encoding.md R88, R89, R91). -/
abbrev VReg := BitVec 5

/-- The number of a general register, 0 to 15 (10_state.md R32). -/
abbrev GReg := BitVec 4

/-- The opmask selector `aaa` (30_encoding.md R90). -/
abbrev Opmask := BitVec 3

end Sys2Proof
end

