-- ==== Sys2Proof/Config.lean ====
section
/-! DEFINITION. What an implementation fixes and the spec leaves OPEN (00_scope.md R12): each is an opaque constant, so that
no proof can see its value and a claim holds whatever it is. -/

namespace Sys2Proof

/-- The three arithmetic operations of an element (40_complex_multiply.md R136), as the NaN rule may tell them apart. -/
inductive FpOp where
  | mul
  | fmadd
  | fnmadd
deriving DecidableEq, Repr

/-- `cfg.nan_rule` (40_complex_multiply.md R131, D14), log 10: which of several NaN operands supplies the result. The answer is an
index into the operation's NaN operands in operand order, taken modulo their number; it is consulted only when there are two or
more, because with one the spec fixes the result. -/
opaque Config.nanPick : FpOp → List Fp16 → Nat

/-- The OPEN Boolean inside `cfg.nan_rule` (40_complex_multiply.md R127 step 1, D14), log 11: whether zero times infinity with a
quiet NaN addend raises `IE`. -/
opaque Config.zeroTimesInfPlusQnanSetsIe : Bool

/-- `cfg.daz_ftz_honoured` (40_complex_multiply.md R129, D15), log 12; no step depends on it, since a step refuses `DAZ` and `FTZ`. -/
opaque Config.dazFtzHonoured : Bool

/-- `cfg.er_updates_flags` (60_exceptions.md R174, D16), log 13. -/
opaque Config.erUpdatesFlags : Bool

/-- `cfg.fault_suppression` (20_memory.md R55, D9), log 14. -/
opaque Config.faultSuppression : Bool

/-- `cfg.tmp_denormal_sets_de` (40_complex_multiply.md R132, D17), log 15. -/
opaque Config.tmpDenormalSetsDe : Bool

/-- Log 16: whether FS is the segment used when both an FS and a GS override stand before the instruction, in the order given
(`true` marks FS); 30_encoding.md R106 gives the effect of each alone. -/
opaque Config.fsWinsOverGs : List Bool → Bool

/-- Log 17: whether an access of so many bytes, not aligned to its own size, raises `#AC(0)` at that address while alignment
checking is active (20_memory.md R60: neither the fact nor the natural alignment is recoverable from the source). -/
opaque Config.misalignedFaults : Nat → Qword → Bool

end Sys2Proof
end

