-- ==== Sys2Proof/Syntax.lean ====
section
/-! DEFINITION. The instructions: one constructor per row of opcode_table.json (30_encoding.md R109), with the operands of
30_encoding.md R88 to R106. -/

namespace Sys2Proof

/-- The three vector lengths (00_scope.md R10). -/
inductive VecLen where
  | v128
  | v256
  | v512
deriving DecidableEq, Repr

/-- The four rounding modes of 40_complex_multiply.md R123. -/
inductive Rounding where
  /-- to nearest, ties to even (00b) -/
  | rn
  /-- toward negative infinity (01b) -/
  | rd
  /-- toward positive infinity (10b) -/
  | ru
  /-- toward zero (11b) -/
  | rz
deriving DecidableEq, Repr

/-- The legacy prefixes that may precede the EVEX prefix (30_encoding.md R97). -/
inductive LegacyPrefix where
  /-- `0x2E` -/
  | cs
  /-- `0x36` -/
  | ss
  /-- `0x3E` -/
  | ds
  /-- `0x26` -/
  | es
  /-- `0x64` -/
  | fs
  /-- `0x65` -/
  | gs
  /-- `0x67` -/
  | addressSize
deriving DecidableEq, Repr

/-- The displacement that follows a memory operand with a base register (30_encoding.md R101, R102). -/
inductive Displacement where
  | none
  /-- one byte, scaled by 30_encoding.md R104 -/
  | disp8 (d : BitVec 8)
  /-- four bytes, not scaled -/
  | disp32 (d : BitVec 32)
deriving DecidableEq, Repr

/-- The addressing forms of a memory second source. -/
inductive MemOperand where
  /-- 30_encoding.md R103: four displacement bytes relative to the next instruction -/
  | ripRelative (disp : BitVec 32)
  /-- 30_encoding.md R101: a base register and no SIB byte -/
  | base (reg : GReg) (disp : Displacement)
  /-- 30_encoding.md R102: a SIB byte with a base register; index register 4 stands for no index -/
  | sib (scale : BitVec 2) (index : GReg) (reg : GReg) (disp : Displacement)
  /-- 30_encoding.md R102: a SIB byte without a base register -/
  | sibNoBase (scale : BitVec 2) (index : GReg) (disp : BitVec 32)
deriving DecidableEq, Repr

/-- The second source (30_encoding.md R91, R93): a vector register or memory, the latter full width or a 32-bit broadcast. -/
inductive Src2 where
  | reg (n : VReg)
  | mem (broadcast : Bool) (m : MemOperand)
deriving DecidableEq, Repr

/-- What every form has: the legacy prefixes before it, destination, first source, opmask selector and the zeroing bit
(30_encoding.md R88 to R90, R97). -/
structure Operands where
  legacy : List LegacyPrefix
  dest : VReg
  src1 : VReg
  mask : Opmask
  zeroing : Bool
deriving DecidableEq, Repr

/-- The eight decodable forms, in the order of 30_encoding.md R109. -/
inductive Instr where
  /-- row 1, 40_complex_multiply.md R157 -/
  | vfcmulcphZmmEr (o : Operands) (src2 : VReg) (rc : Rounding)
  /-- row 2, R158 -/
  | vfmulcphZmmEr (o : Operands) (src2 : VReg) (rc : Rounding)
  /-- row 3, R151 -/
  | vfcmulcphXmm (o : Operands) (src2 : Src2)
  /-- row 4, R152 -/
  | vfcmulcphYmm (o : Operands) (src2 : Src2)
  /-- row 5, R153 -/
  | vfcmulcphZmm (o : Operands) (src2 : Src2)
  /-- row 6, R154 -/
  | vfmulcphXmm (o : Operands) (src2 : Src2)
  /-- row 7, R155 -/
  | vfmulcphYmm (o : Operands) (src2 : Src2)
  /-- row 8, R156 -/
  | vfmulcphZmm (o : Operands) (src2 : Src2)
deriving DecidableEq, Repr

end Sys2Proof
end

