-- ==== Sys2Proof/WellFormed.lean ====
section
/-! DEFINITION. Which instructions of the syntax have an encoding, and which of those the decoder admits. What an encoding may say
and still raise `#UD` (overlap, zeroing without a mask) is well formed: the meaning raises the exception
(40_complex_multiply.md R137). -/

namespace Sys2Proof

/-- The displacement bytes after ModRM and SIB. -/
def Displacement.size : Displacement → Nat
  | .none => 0
  | .disp8 _ => 1
  | .disp32 _ => 4

/-- A memory operand that 30_encoding.md R101 and R102 can encode: `rm = 100b` always means a SIB byte, and a base whose low
bits are `101b` needs a displacement, because without one the encoding means RIP-relative or no base. -/
def MemOperand.wellFormed : MemOperand → Bool
  | .ripRelative _ => true
  | .base reg disp => reg.extractLsb' 0 3 != 0b100#3 && !(disp == .none && reg.extractLsb' 0 3 == 0b101#3)
  | .sib _ _ reg disp => !(disp == .none && reg.extractLsb' 0 3 == 0b101#3)
  | .sibNoBase _ _ _ => true

/-- The bytes of a memory operand after ModRM. -/
def MemOperand.size : MemOperand → Nat
  | .ripRelative _ => 4
  | .base _ disp => disp.size
  | .sib _ _ _ disp => 1 + disp.size
  | .sibNoBase _ _ _ => 5

def Src2.wellFormed : Src2 → Bool
  | .reg _ => true
  | .mem _ m => m.wellFormed

/-- The bytes of the second source after ModRM. -/
def Src2.size : Src2 → Nat
  | .reg _ => 0
  | .mem _ m => m.size

/-- An encodable form is at most 15 bytes long (30_encoding.md R100). -/
def formEncodable (o : Operands) (src2 : Src2) : Bool :=
  src2.wellFormed && decide (o.legacy.length + 6 + src2.size ≤ 15)

/-- The admitted subset has no legacy prefix (30_encoding.md R97, D13). -/
def formWellFormed (o : Operands) (src2 : Src2) : Bool := o.legacy.isEmpty && formEncodable o src2

/-- A check of the operands of an instruction. -/
def Instr.check (p : Operands → Src2 → Bool) : Instr → Bool
  | .vfcmulcphZmmEr o n _ => p o (.reg n)
  | .vfmulcphZmmEr o n _ => p o (.reg n)
  | .vfcmulcphXmm o src2 => p o src2
  | .vfcmulcphYmm o src2 => p o src2
  | .vfcmulcphZmm o src2 => p o src2
  | .vfmulcphXmm o src2 => p o src2
  | .vfmulcphYmm o src2 => p o src2
  | .vfmulcphZmm o src2 => p o src2

/-- The instruction has an encoding, with the legacy prefixes it has. -/
def Instr.encodable (i : Instr) : Bool := i.check formEncodable

/-- Well-formedness of an instruction: it has an encoding, and one that the decoder admits. -/
def Instr.wellFormed (i : Instr) : Bool := i.check formWellFormed

end Sys2Proof
end

