-- ==== Sys2Proof/Decode.lean ====
section
/-! DEFINITION. The decoder of 30_encoding.md R83 to R109 in 64-bit mode, total on any bytes, and after it the encoder. -/

namespace Sys2Proof

/-- Why the decoder gives no instruction. The first six are refusals (30_encoding.md R97, R99, R100; 10_state.md R31), the rest are
exceptions of the encoding (R92, R95, R97, R100). -/
inductive DecodeError where
  /-- the bytes end before the instruction does -/
  | truncated
  /-- the byte after the legacy prefixes is not `0x62` -/
  | notEvex
  /-- `mmm` is not `110b` -/
  | otherMap
  /-- the opcode byte is not `0xD6` -/
  | otherOpcode
  /-- `pp` is `00b` or `01b` -/
  | otherPp
  /-- a permitted legacy prefix stands before the EVEX prefix: not admitted (R97, R100, D13; log 16) -/
  | permittedPrefix
  /-- a `LOCK`, `66`, `F2`, `F3` or REX byte stands before the EVEX prefix: `#UD` -/
  | faultingPrefix
  /-- `P0[3]` is 1 or `P1[2]` is 0: `#UD` -/
  | reservedBit
  /-- `W` is 1: `#UD` -/
  | wideBit
  /-- `L'L` is `11b` and the form is not `{er}`: `#UD` -/
  | reservedLength
  /-- the instruction is longer than 15 bytes: `#GP(0)` -/
  | tooLong
deriving DecidableEq, Repr

/-- Whether the error is an invalid field of the EVEX prefix (60_exceptions.md R176 item 5, without the prefixes of R97). -/
def DecodeError.isInvalidField : DecodeError → Bool
  | .reservedBit => true
  | .wideBit => true
  | .reservedLength => true
  | .truncated => false
  | .notEvex => false
  | .otherMap => false
  | .otherOpcode => false
  | .otherPp => false
  | .permittedPrefix => false
  | .faultingPrefix => false
  | .tooLong => false

/-- 30_encoding.md R97: the prefixes that may precede the EVEX prefix. -/
def legacyPrefixOfByte (b : Byte) : Option LegacyPrefix :=
  if b = 0x2E#8 then some .cs
  else if b = 0x36#8 then some .ss
  else if b = 0x3E#8 then some .ds
  else if b = 0x26#8 then some .es
  else if b = 0x64#8 then some .fs
  else if b = 0x65#8 then some .gs
  else if b = 0x67#8 then some .addressSize
  else none

/-- 30_encoding.md R97: `LOCK`, `66`, `F2`, `F3` and the REX prefixes `40` to `4F`. -/
def isFaultingPrefix (b : Byte) : Bool :=
  b == 0xF0#8 || b == 0x66#8 || b == 0xF2#8 || b == 0xF3#8 || b.extractLsb' 4 4 == 0x4#4

/-- What stands before the EVEX prefix: the permitted prefixes, whether a faulting one stands among them, and the other bytes. -/
structure Scanned where
  legacy : List LegacyPrefix
  faulting : Bool
  rest : List Byte
deriving DecidableEq, Repr

def scanPrefixes : List Byte → Scanned
  | [] => ⟨[], false, []⟩
  | b :: bs =>
    match legacyPrefixOfByte b with
    | some p => let r := scanPrefixes bs; ⟨p :: r.legacy, r.faulting, r.rest⟩
    | none =>
      if isFaultingPrefix b then let r := scanPrefixes bs; ⟨r.legacy, true, r.rest⟩
      else ⟨[], false, b :: bs⟩

/-- A four-byte displacement, little-endian (20_memory.md R50). -/
def takeDisp32 : List Byte → Except DecodeError (BitVec 32 × List Byte)
  | b0 :: b1 :: b2 :: b3 :: rest => .ok (b3 ++ b2 ++ b1 ++ b0, rest)
  | _ => .error .truncated

/-- The displacement that `mod` announces for an operand with a base register (30_encoding.md R101, R102). -/
def takeDisplacement (mod : BitVec 2) (bytes : List Byte) : Except DecodeError (Displacement × List Byte) :=
  if mod = 0b00#2 then .ok (.none, bytes)
  else if mod = 0b01#2 then
    match bytes with
    | b :: rest => .ok (.disp8 b, rest)
    | [] => .error .truncated
  else
    match takeDisp32 bytes with
    | .ok (d, rest) => .ok (.disp32 d, rest)
    | .error e => .error e

/-- A SIB byte and what follows it (30_encoding.md R102); `x` and `b` are the true values of `X` and `B`. -/
def takeSib (mod : BitVec 2) (x b : BitVec 1) : List Byte → Except DecodeError (MemOperand × List Byte)
  | [] => .error .truncated
  | sib :: bytes =>
    let scale := sib.extractLsb' 6 2
    let index := x ++ sib.extractLsb' 3 3
    if mod = 0b00#2 ∧ sib.extractLsb' 0 3 = 0b101#3 then
      match takeDisp32 bytes with
      | .ok (d, rest) => .ok (.sibNoBase scale index d, rest)
      | .error e => .error e
    else
      match takeDisplacement mod bytes with
      | .ok (d, rest) => .ok (.sib scale index (b ++ sib.extractLsb' 0 3) d, rest)
      | .error e => .error e

/-- The memory operand of a ModRM byte with `mod` other than `11b` (30_encoding.md R101 to R103). -/
def takeMemOperand (mod : BitVec 2) (rm : BitVec 3) (x b : BitVec 1) (bytes : List Byte) :
    Except DecodeError (MemOperand × List Byte) :=
  if rm = 0b100#3 then takeSib mod x b bytes
  else if mod = 0b00#2 ∧ rm = 0b101#3 then
    match takeDisp32 bytes with
    | .ok (d, rest) => .ok (.ripRelative d, rest)
    | .error e => .error e
  else
    match takeDisplacement mod bytes with
    | .ok (d, rest) => .ok (.base (b ++ rm) d, rest)
    | .error e => .error e

/-- The second source (30_encoding.md R91, R93). -/
def takeSrc2 (mod : BitVec 2) (rm : BitVec 3) (x b bcast : BitVec 1) (bytes : List Byte) :
    Except DecodeError (Src2 × List Byte) :=
  if mod = 0b11#2 then .ok (.reg (x ++ b ++ rm), bytes)
  else
    match takeMemOperand mod rm x b bytes with
    | .ok (m, rest) => .ok (.mem (bcast == 1#1) m, rest)
    | .error e => .error e

/-- The coding of the rounding modes, the same for `MXCSR.RC` and `RC_static` (40_complex_multiply.md R123, 30_encoding.md R96). -/
def roundingOfBits (b : BitVec 2) : Rounding :=
  if b = 0b00#2 then .rn else if b = 0b01#2 then .rd else if b = 0b10#2 then .ru else .rz

/-- The `{er}` rows (30_encoding.md R96, R109 rows 1 and 2). -/
def erInstr (conj : Bool) (o : Operands) (n : VReg) (rc : Rounding) : Instr :=
  if conj then .vfcmulcphZmmEr o n rc else .vfmulcphZmmEr o n rc

/-- The other rows (30_encoding.md R92, R94, R109 rows 3 to 8); `L'L = 11b` is an invalid encoding. -/
def plainInstr (conj : Bool) (ll : BitVec 2) (o : Operands) (src2 : Src2) : Except DecodeError Instr :=
  if ll = 0b00#2 then .ok (if conj then .vfcmulcphXmm o src2 else .vfmulcphXmm o src2)
  else if ll = 0b01#2 then .ok (if conj then .vfcmulcphYmm o src2 else .vfmulcphYmm o src2)
  else if ll = 0b10#2 then .ok (if conj then .vfcmulcphZmm o src2 else .vfmulcphZmm o src2)
  else .error .reservedLength

/-- The operands that the EVEX payload and ModRM give every form (30_encoding.md R84 to R90). -/
def operandsOfBytes (legacy : List LegacyPrefix) (p0 p1 p2 modrm : Byte) : Operands where
  legacy := legacy
  dest := ~~~(p0.extractLsb' 4 1) ++ ~~~(p0.extractLsb' 7 1) ++ modrm.extractLsb' 3 3
  src1 := ~~~(p2.extractLsb' 3 1) ++ ~~~(p1.extractLsb' 3 4)
  mask := p2.extractLsb' 0 3
  zeroing := p2.extractLsb' 7 1 == 1#1

/-- The instruction after its fields are known to be valid: `{er}` for a register second source with `b = 1`, as the order of the rows
of 30_encoding.md R109 has it. -/
def decodeForm (legacy : List LegacyPrefix) (p0 p1 p2 modrm : Byte) (src2 : Src2) : Except DecodeError Instr :=
  let o := operandsOfBytes legacy p0 p1 p2 modrm
  let conj := p1.extractLsb' 0 2 == 0b11#2
  let ll := p2.extractLsb' 5 2
  match src2 with
  | .reg n => if p2.extractLsb' 4 1 = 1#1 then .ok (erInstr conj o n (roundingOfBits ll)) else plainInstr conj ll o (.reg n)
  | .mem bcast m => plainInstr conj ll o (.mem bcast m)

/-- The first checks of 30_encoding.md R100 on the bytes `62 P0 P1 P2 op ModRM`: whether the encoding is one of the two instructions. -/
def foreignError (p0 p1 op : Byte) : Option DecodeError :=
  if p0.extractLsb' 0 3 ≠ 0b110#3 then some .otherMap
  else if op ≠ 0xD6#8 then some .otherOpcode
  else if p1.extractLsb' 1 1 = 0#1 then some .otherPp
  else none

/-- The `#UD` checks of 30_encoding.md R97 and R100 on the prefixes and fixed fields, in R100's order. -/
def fieldError (faulting : Bool) (p0 p1 : Byte) : Option DecodeError :=
  if faulting then some .faultingPrefix
  else if p0.extractLsb' 3 1 = 1#1 ∨ p1.extractLsb' 2 1 = 0#1 then some .reservedBit
  else if p1.extractLsb' 7 1 = 1#1 then some .wideBit
  else none

/-- The instruction at the head of the bytes after the legacy prefixes. All of its bytes must be there before any `#UD` is reported: an
instruction whose bytes cannot be fetched is refused whatever its fields say (10_state.md R31, 60_exceptions.md R181; log 30). Its
length follows from ModRM and SIB alone (30_encoding.md R100). -/
def decodeEvex (legacy : List LegacyPrefix) (faulting : Bool) : List Byte → Except DecodeError (Instr × List Byte)
  | b :: p0 :: p1 :: p2 :: op :: modrm :: tail =>
    if b ≠ 0x62#8 then .error .notEvex
    else
      match foreignError p0 p1 op with
      | some e => .error e
      | none =>
        match takeSrc2 (modrm.extractLsb' 6 2) (modrm.extractLsb' 0 3) (~~~(p0.extractLsb' 6 1)) (~~~(p0.extractLsb' 5 1))
          (p2.extractLsb' 4 1) tail with
        | .error e => .error e
        | .ok (src2, rest) =>
          match fieldError faulting p0 p1 with
          | some e => .error e
          | none =>
            match decodeForm legacy p0 p1 p2 modrm src2 with
            | .error e => .error e
            | .ok i => .ok (i, rest)
  | b :: _ => if b ≠ 0x62#8 then .error .notEvex else .error .truncated
  | [] => .error .truncated

/-- A decoder that reads the permitted legacy prefixes too, as a reader who extends the decoder would (93_implementation_defined.md
U12, 30_encoding.md R105, R106); the machine does not run what only it accepts. Log 16. -/
def decodeWithPrefixes (bytes : List Byte) : Except DecodeError (Instr × List Byte) :=
  let s := scanPrefixes bytes
  match decodeEvex s.legacy s.faulting s.rest with
  | .error e => .error e
  | .ok (i, rest) => if bytes.length - rest.length ≤ 15 then .ok (i, rest) else .error .tooLong

/-- The decoder: an instruction and the bytes after it, or the name of what is wrong. An encoding with a permitted legacy prefix is
not admitted (R97, R100, D13). A faulting byte among the prefixes, an over-long instruction and what is no encoding of the two
instructions keep their own names: DESIGN CHOICE, log 16. -/
def decode (bytes : List Byte) : Except DecodeError (Instr × List Byte) :=
  if (scanPrefixes bytes).legacy.isEmpty then decodeWithPrefixes bytes
  else
    match decodeWithPrefixes bytes with
    | .ok _ => .error .permittedPrefix
    | .error e => .error (if e.isInvalidField then .permittedPrefix else e)

/-! ## The encoder -/

def LegacyPrefix.byte : LegacyPrefix → Byte
  | .cs => 0x2E#8
  | .ss => 0x36#8
  | .ds => 0x3E#8
  | .es => 0x26#8
  | .fs => 0x64#8
  | .gs => 0x65#8
  | .addressSize => 0x67#8

def Rounding.bits : Rounding → BitVec 2
  | .rn => 0b00#2
  | .rd => 0b01#2
  | .ru => 0b10#2
  | .rz => 0b11#2

/-- 30_encoding.md R82, R92. -/
def VecLen.bits : VecLen → BitVec 2
  | .v128 => 0b00#2
  | .v256 => 0b01#2
  | .v512 => 0b10#2

def disp32Bytes (d : BitVec 32) : List Byte :=
  [d.extractLsb' 0 8, d.extractLsb' 8 8, d.extractLsb' 16 8, d.extractLsb' 24 8]

def Displacement.mod : Displacement → BitVec 2
  | .none => 0b00#2
  | .disp8 _ => 0b01#2
  | .disp32 _ => 0b10#2

def Displacement.bytes : Displacement → List Byte
  | .none => []
  | .disp8 d => [d]
  | .disp32 d => disp32Bytes d

/-- How the second source is encoded: the true `X` and `B`, `mod`, `rm`, and the bytes after ModRM. A bit that the form does not
use is encoded as true value 0, log 28. -/
structure Src2Code where
  x : BitVec 1
  b : BitVec 1
  mod : BitVec 2
  rm : BitVec 3
  tail : List Byte
deriving DecidableEq, Repr

def MemOperand.code : MemOperand → Src2Code
  | .ripRelative d => ⟨0#1, 0#1, 0b00#2, 0b101#3, disp32Bytes d⟩
  | .base reg d => ⟨0#1, reg.extractLsb' 3 1, d.mod, reg.extractLsb' 0 3, d.bytes⟩
  | .sib scale index reg d =>
    ⟨index.extractLsb' 3 1, reg.extractLsb' 3 1, d.mod, 0b100#3,
      (scale ++ index.extractLsb' 0 3 ++ reg.extractLsb' 0 3) :: d.bytes⟩
  | .sibNoBase scale index d =>
    ⟨index.extractLsb' 3 1, 0#1, 0b00#2, 0b100#3, (scale ++ index.extractLsb' 0 3 ++ 0b101#3) :: disp32Bytes d⟩

def Src2.code : Src2 → Src2Code
  | .reg n => ⟨n.extractLsb' 4 1, n.extractLsb' 3 1, 0b11#2, n.extractLsb' 0 3, []⟩
  | .mem _ m => m.code

/-- The bit `b` of `P2` for a form that is not `{er}` (30_encoding.md R93). -/
def Src2.broadcastBit : Src2 → BitVec 1
  | .reg _ => 0#1
  | .mem bcast _ => BitVec.ofBool bcast

/-- The bytes of a form (30_encoding.md R83 to R87): `ll` is `L'L` and `bit` is `b` of `P2`. -/
def encodeForm (conj : Bool) (ll : BitVec 2) (bit : BitVec 1) (o : Operands) (src2 : Src2) : List Byte :=
  let c := src2.code
  let p0 : Byte := ~~~(o.dest.extractLsb' 3 1) ++ ~~~c.x ++ ~~~c.b ++ ~~~(o.dest.extractLsb' 4 1) ++ 0b0110#4
  let p1 : Byte := 0#1 ++ ~~~(o.src1.extractLsb' 0 4) ++ 1#1 ++ (if conj then 0b11#2 else 0b10#2)
  let p2 : Byte := BitVec.ofBool o.zeroing ++ ll ++ bit ++ ~~~(o.src1.extractLsb' 4 1) ++ o.mask
  let modrm : Byte := c.mod ++ o.dest.extractLsb' 0 3 ++ c.rm
  o.legacy.map LegacyPrefix.byte ++ [0x62#8, p0, p1, p2, 0xD6#8, modrm] ++ c.tail

/-- The bytes of an instruction. -/
def encode : Instr → List Byte
  | .vfcmulcphZmmEr o n rc => encodeForm true rc.bits 1#1 o (.reg n)
  | .vfmulcphZmmEr o n rc => encodeForm false rc.bits 1#1 o (.reg n)
  | .vfcmulcphXmm o src2 => encodeForm true VecLen.v128.bits src2.broadcastBit o src2
  | .vfcmulcphYmm o src2 => encodeForm true VecLen.v256.bits src2.broadcastBit o src2
  | .vfcmulcphZmm o src2 => encodeForm true VecLen.v512.bits src2.broadcastBit o src2
  | .vfmulcphXmm o src2 => encodeForm false VecLen.v128.bits src2.broadcastBit o src2
  | .vfmulcphYmm o src2 => encodeForm false VecLen.v256.bits src2.broadcastBit o src2
  | .vfmulcphZmm o src2 => encodeForm false VecLen.v512.bits src2.broadcastBit o src2

/-- The length of a form in bytes, prefixes included (30_encoding.md R100). -/
def formLength (o : Operands) (src2 : Src2) : Nat := o.legacy.length + 6 + src2.size

/-! ## The host's view -/

/-- The longest instruction (30_encoding.md R100). -/
def maxInstrBytes : Nat := 15

/-- The bytes of an instruction given as a number, bit 0 the least significant bit of the first byte, and zeros above `nbits`. -/
def bytesOfTableWord (nbits w : Nat) : List Byte :=
  (List.range maxInstrBytes).map fun k => BitVec.ofNat 8 ((w % 2 ^ nbits) / 2 ^ (8 * k))

def decodeTableWord (nbits w : Nat) : Option Instr :=
  match decode (bytesOfTableWord nbits w) with
  | .ok (i, _) => some i
  | .error _ => none

end Sys2Proof
end

