-- ==== Sys2Proof/Machine/State.lean ====
section
/-! DEFINITION. The state of the machine as plain data, the reasons a step stops, and the state after reset (10_state.md). -/

namespace Sys2Proof.Machine

/-- The processor modes that 60_exceptions.md R176 item 4 and 30_encoding.md R108 tell apart. -/
inductive Mode where
  | realAddress
  | virtual8086
  /-- protected mode and compatibility mode: the 32-bit modes of the source's `V/V` column (00_scope.md R4) -/
  | bits32
  | bits64
deriving DecidableEq, Repr

/-- The CPUID feature flags of 00_scope.md R3. -/
structure Features where
  avx512fp16 : Bool
  avx512vl : Bool
deriving DecidableEq, Repr

/-- The segments (10_state.md R33). -/
inductive Segment where
  | cs
  | ds
  | es
  | ss
  | fs
  | gs
deriving DecidableEq, Repr

/-- The segment bases (10_state.md R33, R40). -/
structure SegmentBases where
  cs : Qword
  ds : Qword
  es : Qword
  ss : Qword
  fs : Qword
  gs : Qword
deriving DecidableEq, Repr

/-- Why the bytes of a region are not readable (60_exceptions.md R178): their page is not present, or it is present and a data
read of it is refused at every privilege level or at level 3 only. -/
inductive Protection where
  | notPresent
  | noRead
  | supervisorOnly
deriving DecidableEq, Repr

/-- The addresses from `first` to `last` inclusive, and why they are not readable. Log 6. -/
structure Region where
  first : Nat
  last : Nat
  protection : Protection
deriving DecidableEq, Repr

/-- The error code of a page fault, as the spec lists its fields (60_exceptions.md R180); `write` and `fetch` are always false. -/
structure PageFaultCode where
  present : Bool
  write : Bool
  user : Bool
  fetch : Bool
deriving DecidableEq, Repr

/-- The exceptions, each a terminal outcome with the state unchanged (60_exceptions.md R182, D1; log 9). All are safe: the spec gives
no handler, so nothing is said of what follows. -/
inductive Fault where
  /-- `#UD`, invalid opcode (R176): raised by the meanings and by fetching an invalid encoding. Safe. -/
  | ud
  /-- `#NM`, device not available (R177): raised by the meanings. Safe. -/
  | nm
  /-- `#SS(0)`, a non-canonical address through SS (R178): raised by the memory forms. Safe. -/
  | ss
  /-- `#GP(0)`, a non-canonical address otherwise (R178), or an instruction longer than 15 bytes (30_encoding.md R100): raised by the
  memory forms and by fetching. Safe. -/
  | gp
  /-- `#PF(code)` with the faulting linear address (R178, R180): raised by the memory forms. Safe. -/
  | pf (code : PageFaultCode) (address : Qword)
  /-- `#AC(0)` (R179), log 17: raised by the memory forms only while alignment checking is active, for a misaligned operand; a step
  refuses such a state. Safe: an opaque parameter decides. -/
  | ac
deriving DecidableEq, Repr

/-- Why a step has no meaning in this model. All are safe: nothing is claimed of the machine. -/
inductive Refusal where
  /-- An instruction without a meaning yet, refused in exec's arm. Safe. -/
  | notModelled (mnemonic : String)
  /-- Outside 64-bit mode (00_scope.md R9 (d), 30_encoding.md R108, D2, U11; logs 18, 29): raised by fetching in every other mode, and by
  the meanings in the 32-bit modes. Safe. -/
  | outside64BitMode
  /-- The first byte after the prefixes is not `0x62` (30_encoding.md R100, log 25): raised by fetching. Safe. -/
  | notEvex
  /-- An EVEX encoding of another opcode map (R99, log 25): raised by fetching. Safe. -/
  | otherOpcodeMap
  /-- Another opcode of map 6 (R99, log 25): raised by fetching. Safe. -/
  | otherOpcode
  /-- An encoding with a permitted legacy prefix (R97, R100, D13, 93_implementation_defined.md U12; log 16): raised by fetching. Safe. -/
  | permittedPrefix
  /-- `MXCSR.DAZ` or `MXCSR.FTZ` is 1 (40_complex_multiply.md R129, 70_reset_and_hazards.md R201, D15, U2; log 12): raised by fetching.
  Safe. -/
  | denormalControlSet
  /-- `MXCSR[31:16]` is not 0 (70_reset_and_hazards.md R201, D4, U14; log 23): raised by fetching. Safe. -/
  | reservedMxcsrBits
  /-- Alignment checking is active (20_memory.md R60, 60_exceptions.md R179, D8; log 17): raised by fetching. Safe. -/
  | alignmentChecking
  /-- `pp` is `00b` or `01b` (R99, D13, log 25): raised by fetching. Safe. -/
  | undescribedPp
  /-- Instruction bytes that wrap, leave the canonical range or are not readable (10_state.md R31, D5, 60_exceptions.md R181; log 8):
  raised by fetching. Safe. -/
  | textUnavailable
deriving DecidableEq, Repr

/-- The state of the machine: everything 10_state.md gives it. -/
structure State where
  /-- the processor mode (00_scope.md R12 `cfg.mode64`, 60_exceptions.md R176) -/
  mode : Mode
  /-- `ZMM[0]` to `ZMM[31]` (10_state.md R20, R21) -/
  zmm : Vector Zmm 32
  /-- the opmask registers `K[0]` to `K[7]` (R24) -/
  k : Vector Qword 8
  /-- the control and status register (R27) -/
  mxcsr : Dword
  /-- the program counter (R30) -/
  rip : Qword
  /-- the general registers (R32) -/
  gpr : Vector Qword 16
  /-- the segment bases (R33) -/
  seg : SegmentBases
  /-- `TS` and `AM` are read (R34); width and layout are not given (R35): 64 bits, PRESUMED, log 3 -/
  cr0 : Qword
  /-- the faulting address of a delivered page fault (60_exceptions.md R180); delivery is not modelled, so no step writes it; 64 bits,
  the width of an address, PRESUMED, log 3 -/
  cr2 : Qword
  /-- `OSXSAVE` is read (R34); 64 bits, PRESUMED, log 3 -/
  cr4 : Qword
  /-- bits 7:5 and 2:1 are read (R34); 64 bits, PRESUMED, log 3 -/
  xcr0 : Qword
  /-- `AC` is read (R29, R34); 64 bits, PRESUMED, log 3 -/
  rflags : Qword
  /-- the current privilege level (R34) -/
  cpl : BitVec 2
  /-- the CPUID feature flags (R34) -/
  features : Features
  /-- the bytes of memory that differ from `Memory.unlisted`, in rising order of address (20_memory.md R50, R62) -/
  mem : List Host.Cell
  /-- the complement of `readable` (20_memory.md R57) -/
  blocked : List Region
deriving DecidableEq, Repr

/-- What a byte of memory that nothing has written reads as: DESIGN CHOICE, unsafe, log 5. -/
def Memory.unlisted : Byte := 0#8

/-- The canonical form of memory: addresses below `2^64` and strictly rising, and no entry equal to `Memory.unlisted`. -/
def Memory.wfFrom (low : Nat) : List Host.Cell → Bool
  | [] => true
  | (a, b) :: rest => decide (low ≤ a) && decide (a < 2 ^ 64) && b != Memory.unlisted && Memory.wfFrom (a + 1) rest

def Memory.wf (mem : List Host.Cell) : Bool := Memory.wfFrom 0 mem

/-- The machine after power-up or `RESET#` (10_state.md R40); what that table does not give is named in logs 2, 4, 5 and 6. -/
def State.reset : State where
  mode := .realAddress
  zmm := Vector.replicate 32 0#512
  k := Vector.replicate 8 0#64
  mxcsr := 0x00001F80#32
  rip := 0x000000000000FFF0#64
  gpr := (Vector.replicate 16 0#64).set 2 0x00000000000806F8#64
  seg := { cs := 0x00000000FFFF0000#64, ds := 0#64, es := 0#64, ss := 0#64, fs := 0#64, gs := 0#64 }
  cr0 := 0x0000000060000010#64
  cr2 := 0#64
  cr4 := 0#64
  xcr0 := 1#64
  rflags := 0x0000000000000002#64
  cpl := 0#2
  features := { avx512fp16 := true, avx512vl := true }
  mem := []
  blocked := []

end Sys2Proof.Machine
end

