-- ==== Sys2Proof/Machine/Flags.lean ====
section
/-! DEFINITION. `MXCSR`: the status flags and the control fields the instructions read (10_state.md R27, 60_exceptions.md R171). -/

namespace Sys2Proof.Machine

/-- A set of floating-point conditions, laid out as `MXCSR[5:0]` (10_state.md R27). -/
abbrev FpFlags := BitVec 6

/-- invalid operation -/
def flagIE : FpFlags := 0x01#6
/-- denormal operand -/
def flagDE : FpFlags := 0x02#6
/-- divide by zero, never raised (60_exceptions.md R173) -/
def flagZE : FpFlags := 0x04#6
/-- overflow -/
def flagOE : FpFlags := 0x08#6
/-- underflow -/
def flagUE : FpFlags := 0x10#6
/-- precision -/
def flagPE : FpFlags := 0x20#6

/-- A flag if its condition holds. -/
def flagIf (c : Bool) (f : FpFlags) : FpFlags := if c then f else 0#6

/-- `MXCSR.RC` (10_state.md R27). -/
def mxcsrRc (m : Dword) : BitVec 2 := m.extractLsb' 13 2

/-- `MXCSR.DAZ` (10_state.md R27). -/
def mxcsrDaz (m : Dword) : Bool := m.getLsbD 6

/-- `MXCSR.FTZ` (10_state.md R27). -/
def mxcsrFtz (m : Dword) : Bool := m.getLsbD 15

/-- `MXCSR[5:0]`. -/
def mxcsrFlags (m : Dword) : FpFlags := m.extractLsb' 0 6

/-- `MXCSR[5:0] <- MXCSR[5:0] | flags` (60_exceptions.md R171). -/
def raiseFlags (m : Dword) (f : FpFlags) : Dword := m ||| f.setWidth 32

/-- The flag update of a form (60_exceptions.md R171, R174): an `{er}` form updates them only if `cfg.er_updates_flags`. -/
def updateFlags (er : Bool) (m : Dword) (f : FpFlags) : Dword :=
  if er && !Config.erUpdatesFlags then m else raiseFlags m f

end Sys2Proof.Machine
end

