-- ==== Sys2Proof/Machine/Fp16.lean ====
section
/-! DEFINITION. FP16 arithmetic (40_complex_multiply.md R120 to R132). Real values are exact integers: an FP16 value in units of
`2^-24`, a product or a sum in units of `2^-48`. -/

namespace Sys2Proof.Machine

/-! ## Format and classes (R120 to R122) -/

def fpSign (a : Fp16) : Bool := a.getLsbD 15
def fpExponent (a : Fp16) : Nat := (a.extractLsb' 10 5).toNat
def fpFraction (a : Fp16) : Nat := (a.extractLsb' 0 10).toNat

def isZero (a : Fp16) : Bool := fpExponent a == 0 && fpFraction a == 0
def isDenormal (a : Fp16) : Bool := fpExponent a == 0 && fpFraction a != 0
def isInf (a : Fp16) : Bool := fpExponent a == 31 && fpFraction a == 0
def isNan (a : Fp16) : Bool := fpExponent a == 31 && fpFraction a != 0
def isQnan (a : Fp16) : Bool := isNan a && a.getLsbD 9
def isSnan (a : Fp16) : Bool := isNan a && !a.getLsbD 9

/-- The magnitude of a zero, denormal or normal value in units of `2^-24` (R122). -/
def magnitude24 (a : Fp16) : Nat :=
  if fpExponent a = 0 then fpFraction a else (1024 + fpFraction a) * 2 ^ (fpExponent a - 1)

/-- The value of a zero, denormal or normal encoding in units of `2^-24` (R122). -/
def value24 (a : Fp16) : Int := if fpSign a then -(magnitude24 a : Int) else (magnitude24 a : Int)

def fpZero (s : Bool) : Fp16 := if s then 0x8000#16 else 0x0000#16
def fpInf (s : Bool) : Fp16 := if s then 0xFC00#16 else 0x7C00#16
def fpMaxFinite (s : Bool) : Fp16 := if s then 0xFBFF#16 else 0x7BFF#16

/-- The default QNaN (R131). -/
def defaultNan : Fp16 := 0xFE00#16

/-! ## Rounding (R123 to R125) -/

/-- How the operations of one execution round: one mode for all of them (R123), and whether denormal operands and tiny results
are replaced by zeros (R129). -/
structure FpEnv where
  rm : Rounding
  daz : Bool
  ftz : Bool
deriving DecidableEq, Repr

/-- The bits and the flags of an operation. -/
abbrev FpResult := Fp16 × FpFlags

/-- `rint(num / den, s, rm)` (R124). -/
def rint (num den : Nat) (s : Bool) (rm : Rounding) : Nat :=
  let f := num / den
  let r := num % den
  if r = 0 then f
  else
    match rm with
    | .rn => if den < 2 * r ∨ (2 * r = den ∧ f % 2 = 1) then f + 1 else f
    | .rz => f
    | .rd => if s then f + 1 else f
    | .ru => if s then f else f + 1

/-- R125 step 4. -/
def overflowResult (s : Bool) (rm : Rounding) : FpResult :=
  let toInf := match rm with
    | .rn => true
    | .ru => !s
    | .rd => s
    | .rz => false
  (if toInf then fpInf s else fpMaxFinite s, flagOE ||| flagPE)

/-- The bits `s ++ e ++ f` of a finite value. -/
def packFinite (s : Bool) (e f : Nat) : Fp16 := BitVec.ofBool s ++ BitVec.ofNat 5 e ++ BitVec.ofNat 10 f

/-- R125: rounds the non-zero real of sign `s` and magnitude `mag * 2^-48`. With `l = floor(log2 mag)` the exponent of R125 is
`e = l - 48`, and `qu` counts units of `2^(e-10)`. -/
def roundExact (s : Bool) (mag : Nat) (rm : Rounding) : FpResult :=
  let l := Nat.log2 mag
  let qu := rint (mag * 2 ^ 10) (2 ^ l) s rm
  if 34 ≤ l then
    let inexact := qu * 2 ^ l != mag * 2 ^ 10
    let q := if qu = 2048 then 1024 else qu
    let e := if qu = 2048 then l + 1 else l
    if 63 < e then overflowResult s rm
    else (packFinite s (e - 33) (q - 1024), flagIf inexact flagPE)
  else
    let q := rint mag (2 ^ 24) s rm
    let inexact := q * 2 ^ 24 != mag
    let tiny := decide (qu * 2 ^ l < 2 ^ 44)
    (fpZero s ||| BitVec.ofNat 16 q, flagIf inexact flagPE ||| flagIf (inexact && tiny) flagUE)

/-- R125 step 1: whether the value, rounded with an unbounded exponent, is below the smallest normal. -/
def isTiny (s : Bool) (mag : Nat) (rm : Rounding) : Bool :=
  decide (rint (mag * 2 ^ 10) (2 ^ Nat.log2 mag) s rm * 2 ^ Nat.log2 mag < 2 ^ 44)

/-- `round_fp16` (R125), with the replacement of a tiny result that `FTZ` asks for when it is honoured (R129, log 12). -/
def roundFp16 (env : FpEnv) (s : Bool) (mag : Nat) : FpResult :=
  if env.ftz && isTiny s mag env.rm then (fpZero s, flagUE ||| flagPE) else roundExact s mag env.rm

/-! ## NaNs (R131) and denormal operands (R129, R132) -/

def quiet (a : Fp16) : Fp16 := a ||| 0x0200#16

/-- The result of an operation with a NaN operand: one of the NaN operands, quieted (R131, log 10). -/
def nanResult (op : FpOp) (operands : List Fp16) : Fp16 :=
  match operands.filter isNan with
  | [] => defaultNan
  | [a] => quiet a
  | a :: b :: more => quiet ((a :: b :: more).getD (Config.nanPick op operands % (more.length + 2)) a)

/-- A denormal operand is a zero of the same sign when `DAZ` is honoured (R129, log 12). -/
def operandOf (env : FpEnv) (a : Fp16) : Fp16 := if env.daz && isDenormal a then fpZero (fpSign a) else a

/-! ## Multiplication (R126) -/

/-- `fp16_mul` on operands that `DAZ` has already been applied to. -/
def mulCore (env : FpEnv) (a b : Fp16) : FpResult :=
  let s := fpSign a ^^ fpSign b
  if isNan a || isNan b then (nanResult .mul [a, b], flagIf (isSnan a || isSnan b) flagIE)
  else if (isInf a && isZero b) || (isZero a && isInf b) then (defaultNan, flagIE)
  else
    let de := flagIf (isDenormal a || isDenormal b) flagDE
    if isInf a || isInf b then (fpInf s, de)
    else if isZero a || isZero b then (fpZero s, de)
    else
      let r := roundFp16 env s (magnitude24 a * magnitude24 b)
      (r.1, de ||| r.2)

/-- `fp16_mul(a, b, rm)` (R126). -/
def fp16Mul (env : FpEnv) (a b : Fp16) : FpResult := mulCore env (operandOf env a) (operandOf env b)

/-! ## Fused multiply-add (R127) -/

/-- R127 step 7: the zero that an exactly zero sum gives. `sp` is the sign of the product term. -/
def zeroSum (rm : Rounding) (sp : Bool) (a b c : Fp16) : Fp16 :=
  if (isZero a || isZero b) && isZero c && sp == fpSign c then fpZero sp
  else match rm with
    | .rd => fpZero true
    | .rn => fpZero false
    | .ru => fpZero false
    | .rz => fpZero false

/-- The exact sum of the product term and the addend in units of `2^-48` (R127 step 6). -/
def exactSum (sp : Bool) (a b c : Fp16) : Int :=
  (if sp then -((magnitude24 a * magnitude24 b : Nat) : Int) else ((magnitude24 a * magnitude24 b : Nat) : Int))
    + value24 c * 2 ^ 24

/-- The invalid combinations of R127 steps 2 and 3 for operands that are not NaN. -/
def fmaInvalid (sp : Bool) (a b c : Fp16) : Bool :=
  (isInf a && isZero b) || (isZero a && isInf b) || ((isInf a || isInf b) && isInf c && fpSign c != sp)

/-- `IE` of R127 step 1: an SNaN, or, if the implementation does so (log 11), zero times infinity with a quiet NaN addend. -/
def fmaNanInvalid (a b c : Fp16) : Bool :=
  isSnan a || isSnan b || isSnan c
    || (isQnan c && ((isInf a && isZero b) || (isZero a && isInf b)) && Config.zeroTimesInfPlusQnanSetsIe)

/-- `fp16_fmadd` (`neg` false) and `fp16_fnmadd` (`neg` true) on operands that `DAZ` has already been applied to. The addend `c` is
always the temporary `tmp`, so its part in `DE` is OPEN (R132, log 15). -/
def fmaCore (env : FpEnv) (neg : Bool) (a b c : Fp16) : FpResult :=
  let sp := fpSign a ^^ fpSign b ^^ neg
  if isNan a || isNan b || isNan c then
    (nanResult (if neg then .fnmadd else .fmadd) [a, b, c], flagIf (fmaNanInvalid a b c) flagIE)
  else if fmaInvalid sp a b c then (defaultNan, flagIE)
  else
    let de := flagIf (isDenormal a || isDenormal b || (isDenormal c && Config.tmpDenormalSetsDe)) flagDE
    if isInf a || isInf b then (fpInf sp, de)
    else if isInf c then (c, de)
    else
      let x := exactSum sp a b c
      if x = 0 then (zeroSum env.rm sp a b c, de)
      else
        let r := roundFp16 env (decide (x < 0)) x.natAbs
        (r.1, de ||| r.2)

/-- The fused operations of R127: `a*b + c`, or `-(a*b) + c` when `neg`. -/
def fp16Fma (env : FpEnv) (neg : Bool) (a b c : Fp16) : FpResult :=
  fmaCore env neg (operandOf env a) (operandOf env b) (operandOf env c)

/-- `fp16_fmadd(a, b, c, rm)` (R127). -/
def fp16Fmadd (env : FpEnv) (a b c : Fp16) : FpResult := fp16Fma env false a b c

/-- `fp16_fnmadd(a, b, c, rm)` (R127). -/
def fp16Fnmadd (env : FpEnv) (a b c : Fp16) : FpResult := fp16Fma env true a b c

end Sys2Proof.Machine
end

