-- ==== Sys2Proof/Machine/Ops.lean ====
section
/-! DEFINITION. The named operations over registers, memory and system state, and the one operation that raises an exception. -/

namespace Sys2Proof.Machine

/-- What a step and a meaning answer. -/
abbrev Answer := Host.Outcome State Fault Refusal

/-! ## Exceptions (60_exceptions.md R180, R182) -/

/-- `raise`: the fault outcome, with no change to any state (60_exceptions.md R182, D1, log 9). No file of the spec describes the
entry to a handler or the return from one (R185, R186). -/
def raise (f : Fault) : Answer := .fault f

/-- The vector numbers of 60_exceptions.md R180. -/
def Fault.vector : Fault → Nat
  | .ud => 6
  | .nm => 7
  | .ss => 12
  | .gp => 13
  | .pf _ _ => 14
  | .ac => 17

/-! ## Registers -/

def getZmm (s : State) (n : VReg) : Zmm := s.zmm[n.toNat]'n.isLt
def setZmm (s : State) (n : VReg) (v : Zmm) : State := { s with zmm := s.zmm.set n.toNat v n.isLt }
def getK (s : State) (n : Opmask) : Qword := s.k[n.toNat]'n.isLt
def getGpr (s : State) (n : GReg) : Qword := s.gpr[n.toNat]'n.isLt

/-- `X.dword[i]` (00_scope.md R14): complex element `i` of a vector value. -/
def dwordAt (v : Zmm) (i : Nat) : Dword := v.extractLsb' (32 * i) 32

/-- The even FP16 of a complex element, its real part (40_complex_multiply.md R139). -/
def realPart (d : Dword) : Fp16 := d.extractLsb' 0 16

/-- The odd FP16 of a complex element, its imaginary part. -/
def imagPart (d : Dword) : Fp16 := d.extractLsb' 16 16

/-- A complex element from its parts (00_scope.md R14). -/
def pairOf (re im : Fp16) : Dword := im ++ re

/-- The vector value whose elements are those of the list, element 0 lowest, and 0 above them. -/
def packDwords : List Dword → Zmm
  | [] => 0#512
  | d :: ds => (packDwords ds <<< 32) ||| d.setWidth 512

/-! ## Memory (20_memory.md R50, R57) -/

def Memory.read : List Host.Cell → Nat → Byte
  | [], _ => Memory.unlisted
  | (x, b) :: rest, a => if x = a then b else Memory.read rest a

/-- A write keeps the canonical form: an address that would read as unlisted is not listed. -/
def Memory.write : List Host.Cell → Nat → Byte → List Host.Cell
  | [], a, b => if b = Memory.unlisted then [] else [(a, b)]
  | (x, c) :: rest, a, b =>
    if a < x then if b = Memory.unlisted then (x, c) :: rest else (a, b) :: (x, c) :: rest
    else if a = x then if b = Memory.unlisted then rest else (a, b) :: rest
    else (x, c) :: Memory.write rest a b

/-- Stores the bytes at consecutive addresses. -/
def Memory.writeBytes : List Host.Cell → Nat → List Byte → List Host.Cell
  | mem, _, [] => mem
  | mem, a, b :: bs => Memory.writeBytes (Memory.write mem a b) (a + 1) bs

/-- The byte at a linear address. -/
def readByte (s : State) (a : Qword) : Byte := Memory.read s.mem a.toNat

/-- `MemRead(addr, 4)`: little-endian (20_memory.md R50); byte addresses wrap at `2^64`. -/
def readDword (s : State) (a : Qword) : Dword :=
  readByte s (a + 3#64) ++ readByte s (a + 2#64) ++ readByte s (a + 1#64) ++ readByte s a

/-- Whether an address is canonical: bits 63 to 47 are equal. PRESUMED, log 7. -/
def canonical (a : Qword) : Bool := a.extractLsb' 47 17 == 0#17 || a.extractLsb' 47 17 == BitVec.allOnes 17

/-- Whether a data read at a privilege level may touch the bytes of a region (60_exceptions.md R178). -/
def Protection.blocks (p : Protection) (cpl : BitVec 2) : Bool :=
  match p with
  | .notPresent => true
  | .noRead => true
  | .supervisorOnly => cpl == 3#2

def Region.blocks (cpl : BitVec 2) (a : Nat) (r : Region) : Bool :=
  decide (r.first ≤ a) && decide (a ≤ r.last) && r.protection.blocks cpl

/-- The region that makes an address unreadable, if any (20_memory.md R57, R63). -/
def blockingRegion (s : State) (a : Nat) : Option Region := s.blocked.find? (Region.blocks s.cpl a)

/-- `readable` (20_memory.md R57), at the current privilege level. -/
def readable (s : State) (a : Nat) : Bool := (blockingRegion s a).isNone

/-- The page fault of an unreadable address (60_exceptions.md R178, R180; log 22). -/
def pageFault (s : State) (a : Nat) : Fault :=
  .pf
    { present := (blockingRegion s a).any fun r => r.protection != .notPresent
      write := false
      user := s.cpl == 3#2
      fetch := false }
    (BitVec.ofNat 64 a)

/-- The fault of reading the given bytes through a segment (20_memory.md R57, 60_exceptions.md R178): the canonical check
precedes the page check, and the lowest unreadable address is reported (R181, D18). -/
def memoryFault (s : State) (seg : Segment) (addrs : List Qword) : Option Fault :=
  if addrs.any fun a => !canonical a then some (if seg = .ss then .ss else .gp)
  else ((addrs.map BitVec.toNat).filter fun a => !readable s a).min?.map (pageFault s)

/-! ## Segments (10_state.md R33) -/

/-- The base a segment adds to an effective address: in 64-bit mode only FS and GS contribute. -/
def segmentBase (s : State) : Segment → Qword
  | .fs => s.seg.fs
  | .gs => s.seg.gs
  | .cs => if s.mode = .bits64 then 0#64 else s.seg.cs
  | .ds => if s.mode = .bits64 then 0#64 else s.seg.ds
  | .es => if s.mode = .bits64 then 0#64 else s.seg.es
  | .ss => if s.mode = .bits64 then 0#64 else s.seg.ss

/-! ## System state (10_state.md R34) -/

/-- `CR0.TS`, log 3. -/
def taskSwitched (s : State) : Bool := s.cr0.getLsbD 3

/-- `CR4.OSXSAVE`, log 3. -/
def osxsave (s : State) : Bool := s.cr4.getLsbD 18

/-- `cfg.os_avx512_enabled`: `CR4.OSXSAVE = 1`, `XCR0[7:5] = 111b` and `XCR0[2:1] = 11b` (60_exceptions.md R176 item 3). -/
def osAvx512Enabled (s : State) : Bool :=
  osxsave s && s.xcr0.extractLsb' 5 3 == 0b111#3 && s.xcr0.extractLsb' 1 2 == 0b11#2

/-- `cfg.alignment_check`: `CR0.AM = 1`, `RFLAGS.AC = 1` and privilege level 3 (00_scope.md R12, 20_memory.md R60), log 3. -/
def alignmentCheck (s : State) : Bool := s.cr0.getLsbD 18 && s.rflags.getLsbD 18 && s.cpl == 3#2

/-! ## Launch and INIT# -/

/-- What keeps a state from being a launch state in 64-bit mode, if anything: `DAZ` or `FTZ` set (40_complex_multiply.md R129, D15),
`MXCSR[31:16]` not 0 (70_reset_and_hazards.md R201, D4), alignment checking active (20_memory.md R60, D8). Everything else R201
leaves arbitrary, all of `MXCSR[5:0]` included. -/
def admission (s : State) : Option Refusal :=
  if mxcsrDaz s.mxcsr || mxcsrFtz s.mxcsr then some .denormalControlSet
  else if s.mxcsr.extractLsb' 16 16 != 0#16 then some .reservedMxcsrBits
  else if alignmentCheck s then some .alignmentChecking
  else none

/-- The launch states of 70_reset_and_hazards.md R201 (10_state.md R41): 64-bit mode and the admission conditions. The features, `CR0.TS`
and the enables stand for `cfg`, which R12 of 00_scope.md lets be anything. -/
def isLaunchState (s : State) : Bool := s.mode == .bits64 && (admission s).isNone

/-- What boot software must have done before the instructions execute (70_reset_and_hazards.md R203): 64-bit mode,
`CR0.TS = 0`, `CR4.OSXSAVE = 1`, and bits 1, 2, 5, 6 and 7 of `XCR0` set. It keeps `MXCSR`: a state that is not admitted stays so, and
its step is refused. Log 1. -/
def launch (s : State) : State :=
  { s with
    mode := .bits64
    cr0 := s.cr0 &&& ~~~(1#64 <<< 3)
    cr4 := s.cr4 ||| (1#64 <<< 18)
    xcr0 := s.xcr0 ||| 0xE6#64 }

/-- `INIT#` (10_state.md R40): `MXCSR`, `ZMM` and `K` keep their values, and the general registers, `RIP`, the mode, `CS.base`, `CR0.TS`,
`CR4.OSXSAVE` and `XCR0` are as after power-up. Of what that table does not give, memory, the unreadable regions and the CPUID flags
keep their values, and the rest is as after power-up: DESIGN CHOICE, log 31. -/
def applyInit (s : State) : State :=
  { State.reset with zmm := s.zmm, k := s.k, mxcsr := s.mxcsr, features := s.features, mem := s.mem, blocked := s.blocked }

end Sys2Proof.Machine
end

