-- ==== Sys2Proof/Machine/Operands.lean ====
section
/-! DEFINITION. Operand forms: vector length, opmask selection, rounding environment, the memory second source and its checks
(10_state.md R22 to R26, 20_memory.md R50 to R60, 30_encoding.md R92 to R106). -/

namespace Sys2Proof.Machine

/-! ## Vector length and selection -/

/-- `KL = VL / 32` (00_scope.md R10). -/
def elementCount : VecLen → Nat
  | .v128 => 4
  | .v256 => 8
  | .v512 => 16

/-- `VL / 8`. -/
def vectorBytes (vl : VecLen) : Nat := 4 * elementCount vl

/-- `selected(i)` (40_complex_multiply.md R141): `aaa = 0` means no writemask (10_state.md R26). -/
def selected (s : State) (mask : Opmask) (i : Nat) : Bool := mask == 0#3 || (getK s mask).getLsbD i

/-- Whether any element of the form is selected. -/
def anySelected (s : State) (mask : Opmask) (vl : VecLen) : Bool := (List.range (elementCount vl)).any (selected s mask)

/-- The rounding environment of an execution: `RC_static` for an `{er}` form, else `MXCSR.RC` (40_complex_multiply.md R123); `DAZ` and
`FTZ` count only if the implementation honours them for FP16 (R129); a step refuses a state with either set. Log 12. -/
def fpEnv (s : State) (er : Option Rounding) : FpEnv where
  rm := er.getD (roundingOfBits (mxcsrRc s.mxcsr))
  daz := mxcsrDaz s.mxcsr && Config.dazFtzHonoured
  ftz := mxcsrFtz s.mxcsr && Config.dazFtzHonoured

/-! ## The address of a memory second source -/

/-- `N` of 30_encoding.md R104: the bytes of the operand, which scale a one-byte displacement. -/
def operandBytes (vl : VecLen) (broadcast : Bool) : Nat := if broadcast then 4 else vectorBytes vl

/-- The displacement term of 30_encoding.md R101 and R102. -/
def displacementTerm (n : Nat) : Displacement → Qword
  | .none => 0#64
  | .disp8 d => d.signExtend 64 * BitVec.ofNat 64 n
  | .disp32 d => d.signExtend 64

/-- The index term of 30_encoding.md R102: register 4 stands for no index. -/
def indexTerm (s : State) (scale : BitVec 2) (index : GReg) : Qword :=
  if index = 4#4 then 0#64 else getGpr s index <<< scale.toNat

/-- The effective address with 64-bit address size (30_encoding.md R101 to R103); `next` is `RIP_next` and `n` the scale of R104. -/
def effectiveAddress64 (s : State) (next : Qword) (n : Nat) : MemOperand → Qword
  | .ripRelative d => next + d.signExtend 64
  | .base reg d => getGpr s reg + displacementTerm n d
  | .sib scale index reg d => getGpr s reg + indexTerm s scale index + displacementTerm n d
  | .sibNoBase scale index d => indexTerm s scale index + d.signExtend 64

/-- The effective address: under `0x67` a 32-bit computation, zero-extended (30_encoding.md R105, log 16). -/
def effectiveAddress (s : State) (legacy : List LegacyPrefix) (next : Qword) (n : Nat) (m : MemOperand) : Qword :=
  let ea := effectiveAddress64 s next n m
  if LegacyPrefix.addressSize ∈ legacy then (ea.setWidth 32).setWidth 64 else ea

/-- The default segment (30_encoding.md R106): SS when the base register is RSP or RBP, else DS. -/
def defaultSegment : MemOperand → Segment
  | .ripRelative _ => .ds
  | .base reg _ => if reg = 4#4 ∨ reg = 5#4 then .ss else .ds
  | .sib _ _ reg _ => if reg = 4#4 ∨ reg = 5#4 then .ss else .ds
  | .sibNoBase _ _ _ => .ds

/-- The FS and GS overrides in order, `true` for FS. -/
def fsGsOverrides : List LegacyPrefix → List Bool
  | [] => []
  | .fs :: ps => true :: fsGsOverrides ps
  | .gs :: ps => false :: fsGsOverrides ps
  | .cs :: ps => fsGsOverrides ps
  | .ss :: ps => fsGsOverrides ps
  | .ds :: ps => fsGsOverrides ps
  | .es :: ps => fsGsOverrides ps
  | .addressSize :: ps => fsGsOverrides ps

/-- The segment a memory operand uses (30_encoding.md R106): an FS or GS override selects that segment, and in 64-bit mode the
others select nothing (10_state.md R33). Log 16. -/
def segmentUsed (legacy : List LegacyPrefix) (m : MemOperand) : Segment :=
  let overrides := fsGsOverrides legacy
  if overrides.contains true && overrides.contains false then
    if Config.fsWinsOverGs overrides then .fs else .gs
  else if overrides.contains true then .fs
  else if overrides.contains false then .gs
  else defaultSegment m

/-- The linear address of a memory operand (30_encoding.md R106). -/
def linearAddress (s : State) (legacy : List LegacyPrefix) (next : Qword) (n : Nat) (m : MemOperand) : Qword :=
  effectiveAddress s legacy next n m + segmentBase s (segmentUsed legacy m)

/-! ## The elements of the second source -/

/-- Element `i` of `tsrc2` (40_complex_multiply.md R134, 20_memory.md R53, R54); `lin` is the linear address of a memory operand. -/
def src2Element (s : State) (src2 : Src2) (lin : Qword) (i : Nat) : Dword :=
  match src2 with
  | .reg n => dwordAt (getZmm s n) i
  | .mem true _ => readDword s lin
  | .mem false _ => readDword s (lin + BitVec.ofNat 64 (4 * i))

/-! ## The checks of a memory second source -/

/-- Every byte address of the operand, in rising offset (20_memory.md R55). -/
def operandAddresses (vl : VecLen) (broadcast : Bool) (lin : Qword) : List Qword :=
  (List.range (operandBytes vl broadcast)).map fun k => lin + BitVec.ofNat 64 k

/-- The byte addresses that belong to selected elements (20_memory.md R55). -/
def selectedAddresses (s : State) (mask : Opmask) (vl : VecLen) (broadcast : Bool) (lin : Qword) : List Qword :=
  if broadcast then if anySelected s mask vl then operandAddresses vl true lin else []
  else
    ((List.range (vectorBytes vl)).filter fun k => selected s mask (k / 4)).map fun k => lin + BitVec.ofNat 64 k

/-- The memory fault of an operand. Masked-off elements can fault only without `cfg.fault_suppression` (20_memory.md R55, log 14). -/
def operandFault (s : State) (seg : Segment) (mask : Opmask) (vl : VecLen) (broadcast : Bool) (lin : Qword) : Option Fault :=
  match memoryFault s seg (operandAddresses vl broadcast lin) with
  | none => none
  | some whole =>
    match memoryFault s seg (selectedAddresses s mask vl broadcast lin) with
    | none => if Config.faultSuppression then none else some whole
    | some part => some (if Config.faultSuppression then part else whole)

/-- Whether a linear address is a multiple of the operand's size, a power of two. -/
def aligned (n : Nat) (a : Qword) : Bool := a.toNat % n == 0

/-- `#AC(0)` (20_memory.md R60, 60_exceptions.md R179): only while alignment checking is active, only for an access that takes
place and is not aligned, and then as the opaque parameter says; a step refuses a state with alignment checking active. Log 17. -/
def alignmentFault (s : State) (mask : Opmask) (vl : VecLen) (broadcast : Bool) (lin : Qword) : Option Fault :=
  let n := operandBytes vl broadcast
  if alignmentCheck s && !aligned n lin && (anySelected s mask vl || !Config.faultSuppression)
      && Config.misalignedFaults n lin then some .ac
  else none

/-- The linear address of the second source; 0 for a register, which has none. -/
def src2Address (s : State) (vl : VecLen) (o : Operands) (src2 : Src2) (next : Qword) : Qword :=
  match src2 with
  | .reg _ => 0#64
  | .mem broadcast m => linearAddress s o.legacy next (operandBytes vl broadcast) m

/-- The fault of reading the second source, if any (60_exceptions.md R178, R179). -/
def src2Fault (s : State) (vl : VecLen) (o : Operands) (src2 : Src2) (next : Qword) : Option Fault :=
  match src2 with
  | .reg _ => none
  | .mem broadcast m =>
    let lin := src2Address s vl o (.mem broadcast m) next
    match operandFault s (segmentUsed o.legacy m) o.mask vl broadcast lin with
    | some f => some f
    | none => alignmentFault s o.mask vl broadcast lin

end Sys2Proof.Machine
end

