-- ==== Sys2Proof/Machine/ComplexMultiply.lean ====
section
/-! DEFINITION. The complex-multiply family: the element function, the shared operation of the eight forms, and one meaning per
form (40_complex_multiply.md R133 to R158). -/

namespace Sys2Proof.Machine

/-! ## One element (R136) -/

/-- The result of one complex element. -/
structure ElementResult where
  re : Fp16
  im : Fp16
  flags : FpFlags
deriving DecidableEq, Repr

/-- `cmul_elem` (R136): `conj` for VFCMULCPH. -/
def cmulElement (conj : Bool) (env : FpEnv) (a b : Dword) : ElementResult :=
  let tRe := fp16Mul env (realPart a) (realPart b)
  let tIm := fp16Mul env (imagPart a) (realPart b)
  let dRe :=
    if conj then fp16Fmadd env (imagPart a) (imagPart b) tRe.1 else fp16Fnmadd env (imagPart a) (imagPart b) tRe.1
  let dIm :=
    if conj then fp16Fnmadd env (realPart a) (imagPart b) tIm.1 else fp16Fmadd env (realPart a) (imagPart b) tIm.1
  { re := dRe.1, im := dIm.1, flags := tRe.2 ||| tIm.2 ||| dRe.2 ||| dIm.2 }

/-! ## One execution (R137, R138) -/

/-- What a form is, apart from its operands: which product, how long, and the static rounding mode of an `{er}` form. -/
structure Form where
  conj : Bool
  vl : VecLen
  er : Option Rounding
deriving DecidableEq, Repr

/-- `RIP_next` (10_state.md R30, R31). -/
def ripNext (s : State) (o : Operands) (src2 : Src2) : Qword := s.rip + BitVec.ofNat 64 (formLength o src2)

/-- Element `i` of the new destination and the flags it raises (R137, R141 to R145). -/
def destElement (f : Form) (o : Operands) (src2 : Src2) (s : State) (i : Nat) : Dword × FpFlags :=
  if selected s o.mask i then
    let r := cmulElement f.conj (fpEnv s f.er) (dwordAt (getZmm s o.src1) i)
      (src2Element s src2 (src2Address s f.vl o src2 (ripNext s o src2)) i)
    (pairOf r.re r.im, r.flags)
  else if o.zeroing then (0#32, 0#6)
  else (dwordAt (getZmm s o.dest) i, 0#6)

def destElements (f : Form) (o : Operands) (src2 : Src2) (s : State) : List (Dword × FpFlags) :=
  (List.range (elementCount f.vl)).map (destElement f o src2 s)

/-- The new value of the destination: the elements, and 0 above them (R146). -/
def destValue (f : Form) (o : Operands) (src2 : Src2) (s : State) : Zmm := packDwords ((destElements f o src2 s).map (·.1))

/-- The flags of an execution: the OR over its elements (60_exceptions.md R171). -/
def raisedFlags (f : Form) (o : Operands) (src2 : Src2) (s : State) : FpFlags :=
  (destElements f o src2 s).foldr (fun e acc => e.2 ||| acc) 0#6

/-- The state after an execution that raises no exception (R137): destination, `MXCSR[5:0]`, `RIP`. -/
def complete (f : Form) (o : Operands) (src2 : Src2) (s : State) : State :=
  { setZmm s o.dest (destValue f o src2 s) with
    mxcsr := updateFlags f.er.isSome s.mxcsr (raisedFlags f o src2 s)
    rip := ripNext s o src2 }

/-- The overlap `#UD` (30_encoding.md R98): a memory source has no register to compare (D21, log 20). -/
def overlaps (o : Operands) (src2 : Src2) : Bool :=
  o.dest == o.src1 || match src2 with
    | .reg n => o.dest == n
    | .mem _ _ => false

/-- The features a form needs (60_exceptions.md R176 item 2). -/
def hasFeatures (s : State) (vl : VecLen) : Bool :=
  s.features.avx512fp16 && (vl == .v512 || s.features.avx512vl)

/-- The `#UD` conditions of a decoded form (60_exceptions.md R176, 30_encoding.md R90). -/
def undefinedOpcode (s : State) (vl : VecLen) (o : Operands) (src2 : Src2) : Bool :=
  s.mode == .realAddress || s.mode == .virtual8086 || !hasFeatures s vl || !osAvx512Enabled s
    || (o.zeroing && o.mask == 0#3) || overlaps o src2

/-- The shared operation of the eight forms (R137, R138), with the priorities of 60_exceptions.md R181. It gives every state and every
operand the effect the spec writes down; the states and prefixes that the spec does not admit (logs 12, 16, 17, 23, 29) are refused
by the step, which does not come here then. -/
def complexMultiply (f : Form) (o : Operands) (src2 : Src2) (s : State) : Answer :=
  if s.mode = .bits32 then .refused .outside64BitMode
  else if undefinedOpcode s f.vl o src2 then raise .ud
  else if taskSwitched s then raise .nm
  else
    match src2Fault s f.vl o src2 (ripNext s o src2) with
    | some e => raise e
    | none => .next (complete f o src2 s)

/-! ## The eight forms -/

/-- VFCMULCPH zmm, zmm, zmm with embedded rounding (R157). -/
def execVfcmulcphZmmEr (o : Operands) (src2 : VReg) (rc : Rounding) (s : State) : Answer :=
  complexMultiply { conj := true, vl := .v512, er := some rc } o (.reg src2) s

/-- VFMULCPH zmm, zmm, zmm with embedded rounding (R158). -/
def execVfmulcphZmmEr (o : Operands) (src2 : VReg) (rc : Rounding) (s : State) : Answer :=
  complexMultiply { conj := false, vl := .v512, er := some rc } o (.reg src2) s

/-- VFCMULCPH xmm, xmm, xmm/m128/m32bcst (R151). -/
def execVfcmulcphXmm (o : Operands) (src2 : Src2) (s : State) : Answer :=
  complexMultiply { conj := true, vl := .v128, er := none } o src2 s

/-- VFCMULCPH ymm, ymm, ymm/m256/m32bcst (R152). -/
def execVfcmulcphYmm (o : Operands) (src2 : Src2) (s : State) : Answer :=
  complexMultiply { conj := true, vl := .v256, er := none } o src2 s

/-- VFCMULCPH zmm, zmm, zmm/m512/m32bcst (R153). -/
def execVfcmulcphZmm (o : Operands) (src2 : Src2) (s : State) : Answer :=
  complexMultiply { conj := true, vl := .v512, er := none } o src2 s

/-- VFMULCPH xmm, xmm, xmm/m128/m32bcst (R154). -/
def execVfmulcphXmm (o : Operands) (src2 : Src2) (s : State) : Answer :=
  complexMultiply { conj := false, vl := .v128, er := none } o src2 s

/-- VFMULCPH ymm, ymm, ymm/m256/m32bcst (R155). -/
def execVfmulcphYmm (o : Operands) (src2 : Src2) (s : State) : Answer :=
  complexMultiply { conj := false, vl := .v256, er := none } o src2 s

/-- VFMULCPH zmm, zmm, zmm/m512/m32bcst (R156). -/
def execVfmulcphZmm (o : Operands) (src2 : Src2) (s : State) : Answer :=
  complexMultiply { conj := false, vl := .v512, er := none } o src2 s

end Sys2Proof.Machine
end

