-- ==== Sys2Proof/Machine/Dispatch.lean ====
section
/-! DEFINITION. The meaning of every instruction: one arm per constructor. -/

namespace Sys2Proof.Machine

def exec (i : Instr) (s : State) : Host.Outcome State Fault Refusal :=
  match i with
  | .vfcmulcphZmmEr o src2 rc => Sys2Proof.Machine.execVfcmulcphZmmEr o src2 rc s
  | .vfmulcphZmmEr o src2 rc => Sys2Proof.Machine.execVfmulcphZmmEr o src2 rc s
  | .vfcmulcphXmm o src2 => Sys2Proof.Machine.execVfcmulcphXmm o src2 s
  | .vfcmulcphYmm o src2 => Sys2Proof.Machine.execVfcmulcphYmm o src2 s
  | .vfcmulcphZmm o src2 => Sys2Proof.Machine.execVfcmulcphZmm o src2 s
  | .vfmulcphXmm o src2 => Sys2Proof.Machine.execVfmulcphXmm o src2 s
  | .vfmulcphYmm o src2 => Sys2Proof.Machine.execVfmulcphYmm o src2 s
  | .vfmulcphZmm o src2 => Sys2Proof.Machine.execVfmulcphZmm o src2 s

end Sys2Proof.Machine
end

