-- ==== Sys2Proof/Machine/Fetch.lean ====
section
/-! DEFINITION. Fetching the bytes of an instruction and what the decoder's answer means for the machine (10_state.md R31,
20_memory.md R61, R67, 30_encoding.md R100, R108). -/

namespace Sys2Proof.Machine

/-- What fetching gives: an instruction to run, an exception of its encoding, or no meaning. -/
inductive Fetched where
  | run (i : Instr)
  | stop (f : Fault)
  | refuse (r : Refusal)
deriving DecidableEq, Repr

/-- The bytes from a linear address on, at most `n`, as far as they can be fetched: up to the first address that wraps, is not
canonical or is not readable (10_state.md R31, 60_exceptions.md R181; log 8). -/
def textFrom (s : State) (a : Nat) : Nat → List Byte
  | 0 => []
  | n + 1 =>
    if a < 2 ^ 64 ∧ canonical (BitVec.ofNat 64 a) = true ∧ readable s a = true then
      Memory.read s.mem a :: textFrom s (a + 1) n
    else []

/-- The linear address of the next instruction: `RIP` in 64-bit mode, where the base of CS is treated as zero (10_state.md R33). -/
def fetchAddress (s : State) : Qword := segmentBase s .cs + s.rip

/-- The bytes the decoder sees: at most 15 (30_encoding.md R100). -/
def fetchBytes (s : State) : List Byte := textFrom s (fetchAddress s).toNat maxInstrBytes

/-- What an error of the decoder means. An instruction that does not end within 15 fetched bytes is too long (30_encoding.md R100, log 26);
one whose text ends before is not available (10_state.md R31, log 8). Both come before every `#UD` (log 30). -/
def fetchedOfError (fetched : Nat) : DecodeError → Fetched
  | .truncated => if maxInstrBytes ≤ fetched then .stop .gp else .refuse .textUnavailable
  | .notEvex => .refuse .notEvex
  | .otherMap => .refuse .otherOpcodeMap
  | .otherOpcode => .refuse .otherOpcode
  | .otherPp => .refuse .undescribedPp
  | .permittedPrefix => .refuse .permittedPrefix
  | .faultingPrefix => .stop .ud
  | .reservedBit => .stop .ud
  | .wideBit => .stop .ud
  | .reservedLength => .stop .ud
  | .tooLong => .stop .gp

/-- What the fetched bytes are. -/
def fetchedOfBytes (bytes : List Byte) : Fetched :=
  match decode bytes with
  | .ok (i, _) => .run i
  | .error e => fetchedOfError bytes.length e

/-- Fetching in 64-bit mode: a state that is no launch state is refused (70_reset_and_hazards.md R201). -/
def fetchIn64BitMode (s : State) : Fetched :=
  match admission s with
  | some r => .refuse r
  | none => fetchedOfBytes (fetchBytes s)

/-- Fetching: outside 64-bit mode there is no decoding (30_encoding.md R108, 60_exceptions.md R188, D2, U11). -/
def fetchInstruction (s : State) : Fetched :=
  match s.mode with
  | .bits64 => fetchIn64BitMode s
  | .bits32 => .refuse .outside64BitMode
  | .realAddress => .refuse .outside64BitMode
  | .virtual8086 => .refuse .outside64BitMode

/-- The state with the bytes of an instruction placed where a launched machine fetches next (log 1). -/
def placeText (s : State) (bytes : List Byte) : State :=
  let t := launch s
  { t with mem := Memory.writeBytes t.mem (fetchAddress t).toNat bytes }

end Sys2Proof.Machine
end

