-- ==== Sys2Proof/Machine/Step.lean ====
section
/-! DEFINITION. One step of the machine: fetch, decode, execute (10_state.md R38). -/

namespace Sys2Proof.Machine

def step (s : State) : Host.Outcome State Fault Refusal :=
  match fetchInstruction s with
  | .run i => exec i s
  | .stop f => raise f
  | .refuse r => .refused r

/-- The machine launched (70_reset_and_hazards.md R201, R203; log 1) with the instruction placed where it fetches next. -/
def State.withFetchWord (s : State) (nbits w : Nat) : State := placeText s (bytesOfTableWord nbits w)

end Sys2Proof.Machine
end

