-- ==== Sys2Proof/Safety.lean ====
section
/-! DEFINITION. The terms in which claims are made: when a form is ready to execute, what carrying it out means, what a step must
keep, and the spec's own tables and pseudocode that the model is compared with. -/

namespace Sys2Proof.Machine

/-! ## The parts of an instruction -/

/-- The form an instruction is (30_encoding.md R109). -/
def formOf : Instr → Form
  | .vfcmulcphZmmEr _ _ rc => { conj := true, vl := .v512, er := some rc }
  | .vfmulcphZmmEr _ _ rc => { conj := false, vl := .v512, er := some rc }
  | .vfcmulcphXmm _ _ => { conj := true, vl := .v128, er := none }
  | .vfcmulcphYmm _ _ => { conj := true, vl := .v256, er := none }
  | .vfcmulcphZmm _ _ => { conj := true, vl := .v512, er := none }
  | .vfmulcphXmm _ _ => { conj := false, vl := .v128, er := none }
  | .vfmulcphYmm _ _ => { conj := false, vl := .v256, er := none }
  | .vfmulcphZmm _ _ => { conj := false, vl := .v512, er := none }

def operandsOf : Instr → Operands
  | .vfcmulcphZmmEr o _ _ | .vfmulcphZmmEr o _ _ => o
  | .vfcmulcphXmm o _ | .vfcmulcphYmm o _ | .vfcmulcphZmm o _ => o
  | .vfmulcphXmm o _ | .vfmulcphYmm o _ | .vfmulcphZmm o _ => o

def src2Of : Instr → Src2
  | .vfcmulcphZmmEr _ n _ | .vfmulcphZmmEr _ n _ => .reg n
  | .vfcmulcphXmm _ src2 | .vfcmulcphYmm _ src2 | .vfcmulcphZmm _ src2 => src2
  | .vfmulcphXmm _ src2 | .vfmulcphYmm _ src2 | .vfmulcphZmm _ src2 => src2

/-! ## When a form executes normally -/

/-- The machine can execute forms of a length: 64-bit mode, the features, the enabled state, and `CR0.TS = 0`
(70_reset_and_hazards.md R203). -/
def enabled (s : State) (vl : VecLen) : Bool :=
  s.mode == .bits64 && s.features.avx512fp16 && (vl == .v512 || s.features.avx512vl)
    && s.cr4.getLsbD 18 && s.xcr0.extractLsb' 5 3 == 0b111#3 && s.xcr0.extractLsb' 1 2 == 0b11#2 && !s.cr0.getLsbD 3

/-- The encoding raises no `#UD`: no overlap (30_encoding.md R98) and no zeroing without a mask (R90). -/
def legalOperands (o : Operands) (src2 : Src2) : Bool :=
  o.dest != o.src1 && src2 != .reg o.dest && !(o.zeroing && o.mask == 0#3)

/-- Every byte of the memory operand may be read, and alignment checking has nothing to report. -/
def accessible (s : State) (vl : VecLen) (o : Operands) (src2 : Src2) : Bool :=
  match src2 with
  | .reg _ => true
  | .mem broadcast m =>
    let lin := src2Address s vl o (.mem broadcast m) (ripNext s o (.mem broadcast m))
    ((operandAddresses vl broadcast lin).all fun a => canonical a && readable s a.toNat)
      && (!alignmentCheck s || aligned (operandBytes vl broadcast) lin)

/-- A form is ready: hypotheses on the state and the operands alone. -/
def ready (s : State) (vl : VecLen) (o : Operands) (src2 : Src2) : Bool :=
  enabled s vl && legalOperands o src2 && accessible s vl o src2

/-- The conditions of `#UD` of a decoded form (60_exceptions.md R176 items 1 to 4, 30_encoding.md R90, R98): mode, features, enabled state,
zeroing without a mask, overlap. The bit number of `CR4.OSXSAVE` is log 3. -/
def undefinedConditions (i : Instr) (s : State) : Prop :=
  s.mode ≠ .bits64 ∨ s.features.avx512fp16 = false ∨ ((formOf i).vl ≠ .v512 ∧ s.features.avx512vl = false) ∨
  s.cr4.getLsbD 18 = false ∨ s.xcr0.extractLsb' 5 3 ≠ 0b111#3 ∨ s.xcr0.extractLsb' 1 2 ≠ 0b11#2 ∨
  ((operandsOf i).zeroing = true ∧ (operandsOf i).mask = 0#3) ∨
  (operandsOf i).dest = (operandsOf i).src1 ∨ src2Of i = .reg (operandsOf i).dest

/-! ## The address of a memory operand (30_encoding.md R101 to R106), written apart from the model's operand functions -/

/-- The segment base that the prefixes add: FS or GS by an override, else none; both, as the opaque parameter says (log 16). -/
def overrideBase (s : State) (legacy : List LegacyPrefix) : Qword :=
  if LegacyPrefix.fs ∈ legacy ∧ LegacyPrefix.gs ∈ legacy then
    if Config.fsWinsOverGs (fsGsOverrides legacy) then s.seg.fs else s.seg.gs
  else if LegacyPrefix.fs ∈ legacy then s.seg.fs
  else if LegacyPrefix.gs ∈ legacy then s.seg.gs
  else 0

/-- The sum of base, index and displacement in `w`-bit arithmetic: 64 bits, or 32 under `0x67` (R105). -/
def addressSum (w : Nat) (s : State) (next : Qword) (n : Nat) (m : MemOperand) : BitVec w :=
  let reg : GReg → BitVec w := fun r => (getGpr s r).setWidth w
  let disp : Displacement → BitVec w := fun d => match d with
    | .none => 0
    | .disp8 d => d.signExtend w * BitVec.ofNat w n
    | .disp32 d => d.signExtend w
  let idx : BitVec 2 → GReg → BitVec w := fun sc x => if x = 4 then 0 else reg x * BitVec.ofNat w (2 ^ sc.toNat)
  match m with
  | .ripRelative d => next.setWidth w + d.signExtend w
  | .base r d => reg r + disp d
  | .sib sc x r d => reg r + idx sc x + disp d
  | .sibNoBase sc x d => idx sc x + d.signExtend w

/-- The linear address of a memory operand under its prefixes. -/
def linearSum (s : State) (legacy : List LegacyPrefix) (next : Qword) (n : Nat) (m : MemOperand) : Qword :=
  (if LegacyPrefix.addressSize ∈ legacy then (addressSum 32 s next n m).setWidth 64 else addressSum 64 s next n m) +
    overrideBase s legacy

/-- The segment used is SS: the base register is RSP or RBP, and no override selects FS or GS (R106, 10_state.md R33). -/
def usesStackSegment (legacy : List LegacyPrefix) (m : MemOperand) : Prop :=
  LegacyPrefix.fs ∉ legacy ∧ LegacyPrefix.gs ∉ legacy ∧
    ((∃ r d, m = .base r d ∧ (r = 4#4 ∨ r = 5#4)) ∨ ∃ sc x r d, m = .sib sc x r d ∧ (r = 4#4 ∨ r = 5#4))

/-! ## What carrying out a form means (40_complex_multiply.md R137, R138) -/

/-- The result of element `i` when it is selected. -/
def elementOf (f : Form) (o : Operands) (src2 : Src2) (s : State) (i : Nat) : ElementResult :=
  cmulElement f.conj (fpEnv s f.er) (dwordAt (getZmm s o.src1) i)
    (src2Element s src2 (src2Address s f.vl o src2 (ripNext s o src2)) i)

/-- The flags raised by the selected elements (60_exceptions.md R171). -/
def selectedFlags (f : Form) (o : Operands) (src2 : Src2) (s : State) : FpFlags :=
  ((List.range (elementCount f.vl)).filter (selected s o.mask)).foldr (fun i acc => (elementOf f o src2 s i).flags ||| acc) 0#6

/-- The elements of the destination (R141, R144, R145) and the zeros above them (R146). -/
def destinationHolds (f : Form) (o : Operands) (src2 : Src2) (s t : State) : Prop :=
  (∀ i < elementCount f.vl, dwordAt (getZmm t o.dest) i =
      if selected s o.mask i then pairOf (elementOf f o src2 s i).re (elementOf f o src2 s i).im
      else if o.zeroing then 0#32 else dwordAt (getZmm s o.dest) i) ∧
  ∀ i < 16, elementCount f.vl ≤ i → dwordAt (getZmm t o.dest) i = 0#32

/-- What no instruction changes, apart from one vector register, `MXCSR` and `RIP` (10_state.md R39). -/
def unchangedBut (d : VReg) (s t : State) : Prop :=
  (∀ n, n ≠ d → getZmm t n = getZmm s n) ∧ (∀ n, getK t n = getK s n) ∧ (∀ n, getGpr t n = getGpr s n) ∧
  t.mode = s.mode ∧ t.seg = s.seg ∧ t.cr0 = s.cr0 ∧ t.cr2 = s.cr2 ∧ t.cr4 = s.cr4 ∧ t.xcr0 = s.xcr0 ∧
  t.rflags = s.rflags ∧ t.cpl = s.cpl ∧ t.features = s.features ∧ t.blocked = s.blocked ∧
  ∀ a, Memory.read t.mem a = Memory.read s.mem a

/-- The instruction answers a next state that holds what R137 or R138 writes, and nothing else is changed. -/
def carriesOut (i : Instr) (f : Form) (o : Operands) (src2 : Src2) (s : State) : Prop :=
  ∃ t, exec i s = .next t ∧ destinationHolds f o src2 s t ∧
    t.mxcsr = (if f.er.isSome ∧ Config.erUpdatesFlags = false then s.mxcsr
      else s.mxcsr ||| (selectedFlags f o src2 s).setWidth 32) ∧
    t.rip = s.rip + BitVec.ofNat 64 (encode i).length ∧ unchangedBut o.dest s t

/-! ## What every step keeps -/

/-- `MXCSR` holds no reserved bit, no divide-by-zero flag, and no overflow or underflow flag without the precision flag. -/
def mxcsrSound (m : Dword) : Bool :=
  m.extractLsb' 16 16 == 0#16 && !m.getLsbD 2 && (!m.getLsbD 3 || m.getLsbD 5) && (!m.getLsbD 4 || m.getLsbD 5)

/-- The invariant of a run: memory is in canonical form and `MXCSR` is sound. -/
def inv (s : State) : Bool := Memory.wf s.mem && mxcsrSound s.mxcsr

/-! ## What an execution reads (10_state.md R39) -/

/-- Two states agree on everything that 10_state.md R39 says an execution reads. -/
def sameReads (i : Instr) (s s' : State) : Prop :=
  let f := formOf i
  let o := operandsOf i
  let src2 := src2Of i
  s.mode = s'.mode ∧ s.features = s'.features ∧ osAvx512Enabled s = osAvx512Enabled s' ∧
  taskSwitched s = taskSwitched s' ∧
  (∀ e < elementCount f.vl, selected s o.mask e = selected s' o.mask e) ∧
  (∀ e < elementCount f.vl, dwordAt (getZmm s o.src1) e = dwordAt (getZmm s' o.src1) e) ∧
  (o.mask ≠ 0#3 → o.zeroing = false →
    ∀ e < elementCount f.vl, dwordAt (getZmm s o.dest) e = dwordAt (getZmm s' o.dest) e) ∧
  (f.er = none → mxcsrRc s.mxcsr = mxcsrRc s'.mxcsr) ∧
  mxcsrDaz s.mxcsr = mxcsrDaz s'.mxcsr ∧ mxcsrFtz s.mxcsr = mxcsrFtz s'.mxcsr ∧
  match src2 with
  | .reg n => ∀ e < elementCount f.vl, dwordAt (getZmm s n) e = dwordAt (getZmm s' n) e
  | .mem broadcast _ =>
    let lin := src2Address s f.vl o src2 (ripNext s o src2)
    src2Address s' f.vl o src2 (ripNext s' o src2) = lin ∧
    alignmentCheck s = alignmentCheck s' ∧ s.cpl = s'.cpl ∧ s.blocked = s'.blocked ∧
    ∀ a ∈ selectedAddresses s o.mask f.vl broadcast lin, readByte s a = readByte s' a

/-- Two executions answer the same: the same exception, the same refusal, or the same destination, the same flags raised and the same
advance of `RIP`. -/
def sameAnswer (i : Instr) (s s' : State) : Prop :=
  match exec i s, exec i s' with
  | .next t, .next t' =>
    getZmm t (operandsOf i).dest = getZmm t' (operandsOf i).dest ∧
    (∃ fl : FpFlags, t.mxcsr = raiseFlags s.mxcsr fl ∧ t'.mxcsr = raiseFlags s'.mxcsr fl) ∧
    t.rip - s.rip = t'.rip - s'.rip
  | .fault a, .fault b => a = b
  | .refused a, .refused b => a = b
  | _, _ => False

/-! ## The bytes an access checks (20_memory.md R55) -/

/-- The checked byte set of a memory operand. -/
def checkedAddresses (s : State) (mask : Opmask) (vl : VecLen) (broadcast : Bool) (lin : Qword) : List Qword :=
  if Config.faultSuppression then selectedAddresses s mask vl broadcast lin else operandAddresses vl broadcast lin

/-- An address is the lowest unreadable one of a list. -/
def lowestUnreadable (s : State) (addrs : List Qword) (a : Qword) : Prop :=
  a ∈ addrs ∧ readable s a.toNat = false ∧ ∀ b ∈ addrs, readable s b.toNat = false → a.toNat ≤ b.toNat

/-! ## The opcode table (30_encoding.md R109) -/

/-- A row as opcode_table.json writes it: six bytes of mask and six of match. -/
structure TableRow where
  mask : List Byte
  value : List Byte
deriving DecidableEq, Repr

def TableRow.accepts (r : TableRow) (bytes : List Byte) : Bool :=
  List.zipWith (· &&& ·) bytes r.mask == r.value

/-- The eight rows, in the table's order. -/
def opcodeTable : List TableRow :=
  [ ⟨[0xFF#8, 0x0F#8, 0x87#8, 0x10#8, 0xFF#8, 0xC0#8], [0x62#8, 0x06#8, 0x07#8, 0x10#8, 0xD6#8, 0xC0#8]⟩,
    ⟨[0xFF#8, 0x0F#8, 0x87#8, 0x10#8, 0xFF#8, 0xC0#8], [0x62#8, 0x06#8, 0x06#8, 0x10#8, 0xD6#8, 0xC0#8]⟩,
    ⟨[0xFF#8, 0x0F#8, 0x87#8, 0x60#8, 0xFF#8, 0x00#8], [0x62#8, 0x06#8, 0x07#8, 0x00#8, 0xD6#8, 0x00#8]⟩,
    ⟨[0xFF#8, 0x0F#8, 0x87#8, 0x60#8, 0xFF#8, 0x00#8], [0x62#8, 0x06#8, 0x07#8, 0x20#8, 0xD6#8, 0x00#8]⟩,
    ⟨[0xFF#8, 0x0F#8, 0x87#8, 0x60#8, 0xFF#8, 0x00#8], [0x62#8, 0x06#8, 0x07#8, 0x40#8, 0xD6#8, 0x00#8]⟩,
    ⟨[0xFF#8, 0x0F#8, 0x87#8, 0x60#8, 0xFF#8, 0x00#8], [0x62#8, 0x06#8, 0x06#8, 0x00#8, 0xD6#8, 0x00#8]⟩,
    ⟨[0xFF#8, 0x0F#8, 0x87#8, 0x60#8, 0xFF#8, 0x00#8], [0x62#8, 0x06#8, 0x06#8, 0x20#8, 0xD6#8, 0x00#8]⟩,
    ⟨[0xFF#8, 0x0F#8, 0x87#8, 0x60#8, 0xFF#8, 0x00#8], [0x62#8, 0x06#8, 0x06#8, 0x40#8, 0xD6#8, 0x00#8]⟩ ]

/-- How many bytes follow ModRM: SIB and displacement (30_encoding.md R100 to R103); `tail` is what stands there, of which the SIB byte is
the first. -/
def bytesAfterModRM (modrm : Byte) (tail : List Byte) : Nat :=
  let mod := modrm.extractLsb' 6 2
  let rm := modrm.extractLsb' 0 3
  let base := if rm = 4 then (tail.headD 0).extractLsb' 0 3 else rm
  if mod = 3 then 0
  else (if rm = 4 then 1 else 0) + (if mod = 1 then 1 else if mod = 2 ∨ base = 5 then 4 else 0)

/-- The first row that accepts six bytes. -/
def rowOfBytes (bytes : List Byte) : Option Nat := opcodeTable.findIdx? (TableRow.accepts · bytes)

/-- The row an instruction stands for. -/
def rowOfInstr : Instr → Nat
  | .vfcmulcphZmmEr _ _ _ => 0
  | .vfmulcphZmmEr _ _ _ => 1
  | .vfcmulcphXmm _ _ => 2
  | .vfcmulcphYmm _ _ => 3
  | .vfcmulcphZmm _ _ => 4
  | .vfmulcphXmm _ _ => 5
  | .vfmulcphYmm _ _ => 6
  | .vfmulcphZmm _ _ => 7

/-! ## The source's pseudocode (40_complex_multiply.md R133) -/

/-- `X.fp16[j]` (00_scope.md R14). -/
def fp16At (v : Zmm) (j : Nat) : Fp16 := v.extractLsb' (16 * j) 16

/-- `X.fp16[j] <- v`: the other bits keep their value. -/
def putFp16 (x : Zmm) (j : Nat) (v : Fp16) : Zmm :=
  (x &&& ~~~((BitVec.allOnes 16).setWidth 512 <<< (16 * j))) ||| (v.setWidth 512 <<< (16 * j))

/-- Both halves of element `i`. -/
def putPair (x : Zmm) (i : Nat) (re im : Fp16) : Zmm := putFp16 (putFp16 x (2 * i) re) (2 * i + 1) im

/-- The first loop: `tsrc2` from the second source, from any earlier content. -/
def tsrc2Loop (f : Form) (o : Operands) (src2 : Src2) (s : State) (tsrc2 : Zmm) : Zmm :=
  (List.range (elementCount f.vl)).foldl (init := tsrc2) fun acc i =>
    if selected s o.mask i then
      let d := src2Element s src2 (src2Address s f.vl o src2 (ripNext s o src2)) i
      putPair acc i (realPart d) (imagPart d)
    else acc

/-- The second loop: the products. -/
def tmpLoop (f : Form) (o : Operands) (s : State) (tsrc2 tmp : Zmm) : Zmm :=
  (List.range (elementCount f.vl)).foldl (init := tmp) fun acc i =>
    if selected s o.mask i then
      let env := fpEnv s f.er
      let a := getZmm s o.src1
      putPair acc i (fp16Mul env (fp16At a (2 * i)) (fp16At tsrc2 (2 * i))).1
        (fp16Mul env (fp16At a (2 * i + 1)) (fp16At tsrc2 (2 * i))).1
    else acc

/-- The third loop: it writes the destination register in place, and reads the first source from the register file as it then is. -/
def destLoop (f : Form) (o : Operands) (s : State) (tsrc2 tmp : Zmm) : State :=
  (List.range (elementCount f.vl)).foldl (init := s) fun st i =>
    if selected s o.mask i then
      let env := fpEnv s f.er
      let a := getZmm st o.src1
      let aRe := fp16At a (2 * i)
      let aIm := fp16At a (2 * i + 1)
      let bIm := fp16At tsrc2 (2 * i + 1)
      let re := if f.conj then fp16Fmadd env aIm bIm (fp16At tmp (2 * i)) else fp16Fnmadd env aIm bIm (fp16At tmp (2 * i))
      let im :=
        if f.conj then fp16Fnmadd env aRe bIm (fp16At tmp (2 * i + 1)) else fp16Fmadd env aRe bIm (fp16At tmp (2 * i + 1))
      setZmm st o.dest (putPair (getZmm st o.dest) i re.1 im.1)
    else if o.zeroing then setZmm st o.dest (putPair (getZmm st o.dest) i 0x0000#16 0x0000#16)
    else st

/-- The whole block: the three loops, then `DEST[MAXVL-1:VL] := 0`. The temporaries start with any content. -/
def pseudocode (f : Form) (o : Operands) (src2 : Src2) (s : State) (tsrc2 tmp : Zmm) : State :=
  let tsrc2 := tsrc2Loop f o src2 s tsrc2
  let tmp := tmpLoop f o s tsrc2 tmp
  let t := destLoop f o s tsrc2 tmp
  let low := (BitVec.allOnes 512) >>> (512 - 32 * elementCount f.vl)
  setZmm t o.dest (getZmm t o.dest &&& low)

/-! ## Exact values (40_complex_multiply.md R122, R128) -/

def isFinite (a : Fp16) : Bool := !isNan a && !isInf a

/-- The exact real parts of R137 and R138, in units of `2^-48`. -/
def exactRe (conj : Bool) (a b : Dword) : Int :=
  let p := value24 (realPart a) * value24 (realPart b)
  let q := value24 (imagPart a) * value24 (imagPart b)
  if conj then p + q else p - q

/-- The exact imaginary parts of R137 and R138, in units of `2^-48`. -/
def exactIm (conj : Bool) (a b : Dword) : Int :=
  let p := value24 (imagPart a) * value24 (realPart b)
  let q := value24 (realPart a) * value24 (imagPart b)
  if conj then p - q else p + q

/-- The distance of two magnitudes. -/
def distance (a b : Nat) : Nat := (a - b) + (b - a)

/-- A result is the correct rounding of the non-zero value of sign `s` and magnitude `mag * 2^-48` (40_complex_multiply.md R125): toward
zero the largest magnitude not above it, away from zero the smallest not below it, to nearest a nearest one and on a tie an even
one; infinity only beyond the range; `PE` exactly when it is not exact. -/
def correctlyRounded (s : Bool) (mag : Nat) (rm : Rounding) (r : FpResult) : Prop :=
  let down := rm = .rz ∨ (rm = .rd ∧ s = false) ∨ (rm = .ru ∧ s = true)
  let up := (rm = .rd ∧ s = true) ∨ (rm = .ru ∧ s = false)
  isNan r.1 = false ∧ fpSign r.1 = s ∧
  (down → isFinite r.1 = true ∧ magnitude24 r.1 * 2 ^ 24 ≤ mag ∧
    ∀ h, isFinite h = true → magnitude24 h * 2 ^ 24 ≤ mag → magnitude24 h ≤ magnitude24 r.1) ∧
  (up → (isFinite r.1 = true → mag ≤ magnitude24 r.1 * 2 ^ 24 ∧
      ∀ h, isFinite h = true → mag ≤ magnitude24 h * 2 ^ 24 → magnitude24 r.1 ≤ magnitude24 h) ∧
    (isFinite r.1 = false → 65504 * 2 ^ 48 < mag)) ∧
  (rm = .rn → (isFinite r.1 = true → ∀ h, isFinite h = true →
      distance mag (magnitude24 r.1 * 2 ^ 24) ≤ distance mag (magnitude24 h * 2 ^ 24) ∧
      (distance mag (magnitude24 r.1 * 2 ^ 24) = distance mag (magnitude24 h * 2 ^ 24) →
        magnitude24 h ≠ magnitude24 r.1 → r.1.getLsbD 0 = false)) ∧
    (isFinite r.1 = false ↔ 65520 * 2 ^ 48 ≤ mag)) ∧
  (r.2 &&& flagPE = 0#6 ↔ isFinite r.1 = true ∧ magnitude24 r.1 * 2 ^ 24 = mag)

/-- A multiplication with a zero and an infinity (R126 step 2). -/
def zeroTimesInfinity (a b : Fp16) : Prop := (isInf a = true ∧ isZero b = true) ∨ (isZero a = true ∧ isInf b = true)

/-- The sign of the product term of a fused operation (R127). -/
def productSign (neg : Bool) (a b : Fp16) : Bool := fpSign a ^^ fpSign b ^^ neg

/-- A fused operation on operands that are no NaN is invalid (R127 steps 2 and 3). -/
def fusedInvalid (neg : Bool) (a b c : Fp16) : Prop :=
  zeroTimesInfinity a b ∨ ((isInf a = true ∨ isInf b = true) ∧ isInf c = true ∧ fpSign c ≠ productSign neg a b)

/-- The exact value of a fused operation on finite operands, in units of `2^-48` (R127 step 6). -/
def fusedExact (neg : Bool) (a b c : Fp16) : Int :=
  (if neg then -(value24 a * value24 b) else value24 a * value24 b) + value24 c * 2 ^ 24

end Sys2Proof.Machine
end

