-- ==== Sys2Proof/Certificates/Slice0/Obligations.lean ====
section
/-! DEFINITION. The statements for the provers. -/

open Sys2Proof Sys2Proof.Machine

/-! ## Reset, launch and fetching -/

/-- 70_reset_and_hazards.md R202: after reset every form raises `#UD`, as an execution; a step there is refused before it (log 29). -/
def Obligations.EveryFormIsUndefinedAfterReset : Prop :=
  ∀ i : Instr, exec i State.reset = .fault .ud

/-- 10_state.md R40: the columns for power-up and `INIT#`. That `INIT#` leaves the whole of `RIP` and
every segment base as reset does rests on values the table does not give, the model's choice (logs 2, 31); the other values it does not
give (logs 2, 4, 5, 6) are not stated. -/
def Obligations.ResetAndInitHoldTheTablesValues : Prop :=
  (State.reset.mxcsr = 0x00001F80#32 ∧ (∀ n, getZmm State.reset n = 0#512) ∧ (∀ n, getK State.reset n = 0#64) ∧
    (∀ n, n ≠ 2#4 → getGpr State.reset n = 0#64) ∧ State.reset.mode = .realAddress ∧
    State.reset.rip.setWidth 32 = 0x0000FFF0#32 ∧ State.reset.seg.cs = 0xFFFF0000#64 ∧
    taskSwitched State.reset = false ∧ osxsave State.reset = false ∧ State.reset.xcr0 = 1#64) ∧
  ∀ s : State, (applyInit s).mxcsr = s.mxcsr ∧ (∀ n, getZmm (applyInit s) n = getZmm s n) ∧
    (∀ n, getK (applyInit s) n = getK s n) ∧ (∀ n, getGpr (applyInit s) n = getGpr State.reset n) ∧
    (applyInit s).mode = .realAddress ∧ (applyInit s).rip = State.reset.rip ∧ (applyInit s).seg = State.reset.seg ∧
    taskSwitched (applyInit s) = false ∧ osxsave (applyInit s) = false ∧ (applyInit s).xcr0 = 1#64

/-- The invariant holds at reset. -/
def Obligations.ResetMeetsTheInvariant : Prop := inv State.reset = true

/-- Every step keeps the invariant: canonical memory, and an `MXCSR` without reserved bits, without `ZE`, and without `OE` or `UE`
where `PE` is clear (60_exceptions.md R171, R173, 40_complex_multiply.md R128). It is no condition of admission: a launch state may
hold any flags. -/
def Obligations.EveryStepKeepsTheInvariant : Prop :=
  ∀ s t : State, inv s = true → step s = .next t → inv t = true

/-- When the bytes at the program counter decode to an instruction, a step in a launch state is that instruction's execution; the
execution itself moves `RIP` past the instruction. -/
def Obligations.StepRunsTheDecodedInstruction : Prop :=
  ∀ (s : State) (i : Instr) (rest : List Byte), isLaunchState s = true → decode (fetchBytes s) = .ok (i, rest) → step s = exec i s

/-- When memory at `RIP` holds the encoding of a well-formed instruction (one without legacy prefixes) in canonical, readable bytes,
a step in a launch state is that instruction's execution. -/
def Obligations.StepRunsTheEncodedInstruction : Prop :=
  ∀ (s : State) (i : Instr), isLaunchState s = true → i.wellFormed = true → s.rip.toNat + (encode i).length ≤ 2 ^ 64 →
    (∀ k < (encode i).length, canonical (s.rip + BitVec.ofNat 64 k) = true ∧
      readable s (s.rip + BitVec.ofNat 64 k).toNat = true ∧
      (encode i)[k]? = some (readByte s (s.rip + BitVec.ofNat 64 k))) →
    step s = exec i s

/-- An instruction whose bytes run into an address that cannot be fetched is given no step (10_state.md R31; log 8). -/
def Obligations.InstructionCutShortIsRefused : Prop :=
  ∀ (s : State) (i : Instr) (n : Nat), isLaunchState s = true → i.wellFormed = true → n < (encode i).length →
    fetchBytes s = (encode i).take n → step s = .refused .textUnavailable

/-- An instruction that does not end within its first 15 bytes raises `#GP(0)` (30_encoding.md R100). Such an instruction has permitted
legacy prefixes; that they are not refused first, and that fetching decides it before every other exception, is the model's choice
(logs 16, 26). -/
def Obligations.LongInstructionIsGeneralProtection : Prop :=
  ∀ (s : State) (i : Instr), isLaunchState s = true → (src2Of i).wellFormed = true → 15 < (encode i).length →
    fetchBytes s = (encode i).take 15 → step s = .fault .gp

/-- A launched machine with a well-formed instruction (one without legacy prefixes) placed where it fetches runs it, if it is
admitted (logs 1, 5, 6). -/
def Obligations.LaunchedMachineRunsThePlacedInstruction : Prop :=
  ∀ (s : State) (i : Instr), i.wellFormed = true → admission s = none → Memory.wf s.mem = true → s.blocked = [] →
    s.rip.toNat + 15 ≤ 2 ^ 47 → step (placeText s (encode i)) = exec i (placeText s (encode i))

/-- 70_reset_and_hazards.md R201: in 64-bit mode a state with `DAZ` or `FTZ` set (40_complex_multiply.md R129), with `MXCSR[31:16]`
not 0, or with alignment checking active (20_memory.md R60) is given no step, whatever its bytes are. The bit numbers of `CR0.AM`
and `RFLAGS.AC` are the model's choice (log 3). -/
def Obligations.StatesNotAdmittedAreRefused : Prop :=
  ∀ s : State, s.mode = .bits64 →
    let denormalControl := s.mxcsr.getLsbD 6 = true ∨ s.mxcsr.getLsbD 15 = true
    let reserved := s.mxcsr.extractLsb' 16 16 ≠ 0#16
    let checking := s.cr0.getLsbD 18 = true ∧ s.rflags.getLsbD 18 = true ∧ s.cpl = 3#2
    (denormalControl → step s = .refused .denormalControlSet) ∧
    (¬denormalControl → reserved → step s = .refused .reservedMxcsrBits) ∧
    (¬denormalControl → ¬reserved → checking → step s = .refused .alignmentChecking)

/-- Every step that answers a next state starts in a launch state of 70_reset_and_hazards.md R201 and ends in one. -/
def Obligations.EveryStepKeepsTheLaunchConditions : Prop :=
  ∀ s t : State, step s = .next t → isLaunchState s = true ∧ isLaunchState t = true

/-- Outside 64-bit mode every step is refused (30_encoding.md R108). An execution by itself is refused in the 32-bit modes and is `#UD`
in real-address and virtual-8086 mode (60_exceptions.md R176 item 4). -/
def Obligations.OtherModesStop : Prop :=
  ∀ (i : Instr) (s : State),
    (s.mode ≠ .bits64 → step s = .refused .outside64BitMode) ∧
    (s.mode = .bits32 → exec i s = .refused .outside64BitMode) ∧
    (s.mode = .realAddress ∨ s.mode = .virtual8086 → exec i s = .fault .ud)

/-! ## Encoding -/

/-- Decoding an encoded well-formed instruction (one without legacy prefixes, 30_encoding.md R97) gives it back, with every operand
at every value, and the bytes after it. -/
def Obligations.DecodeOfEncodeIsTheInstruction : Prop :=
  ∀ (i : Instr) (rest : List Byte), i.wellFormed = true → decode (encode i ++ rest) = .ok (i, rest)

/-- 30_encoding.md R97, R100: an encoding with permitted legacy prefixes is not admitted: the decoder gives no instruction and the
step is refused. -/
def Obligations.PermittedPrefixesAreRefused : Prop :=
  ∀ (i : Instr) (rest : List Byte), i.encodable = true → (operandsOf i).legacy ≠ [] →
    decode (encode i ++ rest) = .error .permittedPrefix ∧
    ∀ s : State, isLaunchState s = true → fetchBytes s = encode i ++ rest → step s = .refused .permittedPrefix

/-- The decoder that reads the prefixes too, the model's addition (log 16), gives every encodable instruction back. -/
def Obligations.ExtendedDecoderReadsThePrefixes : Prop :=
  ∀ (i : Instr) (rest : List Byte), i.encodable = true → decodeWithPrefixes (encode i ++ rest) = .ok (i, rest)

/-- Words written out from 30_encoding.md R83 to R104 (95_test_vectors.md X5, X7, X11, X14, X17, X18). -/
def Obligations.WordsOfTheSpecDecode : Prop :=
  decode [0x62, 0xF6, 0x6E, 0x28, 0xD6, 0xCB] = .ok (.vfmulcphYmm ⟨[], 1, 2, 0, false⟩ (.reg 3), []) ∧
  decode [0x62, 0xF6, 0x6F, 0x78, 0xD6, 0xCB] = .ok (.vfcmulcphZmmEr ⟨[], 1, 2, 0, false⟩ 3 .rz, []) ∧
  decode [0x62, 0x06, 0x16, 0x40, 0xD6, 0xF4] = .ok (.vfmulcphZmm ⟨[], 30, 29, 0, false⟩ (.reg 28), []) ∧
  decode [0x62, 0x26, 0x16, 0x47, 0xD6, 0xB4, 0xF5, 0x00, 0x00, 0x00, 0x10] =
    .ok (.vfmulcphZmm ⟨[], 30, 29, 7, false⟩ (.mem false (.sib 3 14 5 (.disp32 0x10000000))), []) ∧
  decode [0x62, 0x66, 0x16, 0xD7, 0xD6, 0x72, 0x80] =
    .ok (.vfmulcphZmm ⟨[], 30, 29, 7, true⟩ (.mem true (.base 2 (.disp8 0x80))), []) ∧
  decode [0x62, 0x76, 0x77, 0x00, 0xD6, 0x05, 0x00, 0x01, 0x00, 0x00] =
    .ok (.vfcmulcphXmm ⟨[], 8, 17, 0, false⟩ (.mem false (.ripRelative 0x100)), [])

/-- 30_encoding.md R109: on six bytes and any tail long enough for SIB and displacement, the decoder gives the instruction of the
first row of the table that accepts the bytes, and none where no row does. -/
def Obligations.DecoderFollowsTheOpcodeTable : Prop :=
  ∀ (p0 p1 p2 op modrm : Byte) (tail : List Byte), 5 ≤ tail.length →
    match rowOfBytes [0x62#8, p0, p1, p2, op, modrm] with
    | some n => ∃ i rest, decode (0x62#8 :: p0 :: p1 :: p2 :: op :: modrm :: tail) = .ok (i, rest) ∧ rowOfInstr i = n
    | none => ∃ e, decode (0x62#8 :: p0 :: p1 :: p2 :: op :: modrm :: tail) = .error e

/-- An encoding of the two instructions with an invalid field raises `#UD` (30_encoding.md R92, R95) if all of its bytes are fetched, and
is refused if its later bytes cannot be (10_state.md R31, 60_exceptions.md R181; log 30). -/
def Obligations.InvalidFieldsAreUndefinedOpcodes : Prop :=
  ∀ (s : State) (p0 p1 p2 modrm : Byte) (tail : List Byte), isLaunchState s = true →
    fetchBytes s = 0x62#8 :: p0 :: p1 :: p2 :: 0xD6#8 :: modrm :: tail →
    p0.extractLsb' 0 3 = 0b110#3 → p1.extractLsb' 1 1 = 1#1 →
    (p1.extractLsb' 7 1 = 1#1 ∨ p0.extractLsb' 3 1 = 1#1 ∨ p1.extractLsb' 2 1 = 0#1 ∨
      (p2.extractLsb' 5 2 = 0b11#2 ∧ ¬(modrm.extractLsb' 6 2 = 0b11#2 ∧ p2.extractLsb' 4 1 = 1#1))) →
    step s = if bytesAfterModRM modrm tail ≤ tail.length then .fault .ud else .refused .textUnavailable

/-- `LOCK`, `66`, `F2`, `F3` or a REX prefix before an instruction raises `#UD` (30_encoding.md R97, 20_memory.md R66). That it does so
among permitted prefixes too, which alone have the encoding refused, is the model's choice (log 16). An instruction that is cut
short is refused (10_state.md R31, log 30), and one longer than 15 bytes is `#GP(0)` (30_encoding.md R100), which before `#UD` is
the model's choice (log 26). -/
def Obligations.FaultingPrefixesAreUndefinedOpcodes : Prop :=
  ∀ (s : State) (ps : List Byte) (i : Instr), isLaunchState s = true → i.encodable = true →
    let faulting : Byte → Prop := fun b => b = 0xF0#8 ∨ b = 0x66#8 ∨ b = 0xF2#8 ∨ b = 0xF3#8 ∨ (0x40#8 ≤ b ∧ b ≤ 0x4F#8)
    (∀ b ∈ ps, faulting b ∨ b ∈ [0x2E#8, 0x36#8, 0x3E#8, 0x26#8, 0x64#8, 0x65#8, 0x67#8]) → (∃ b ∈ ps, faulting b) →
    (∀ rest, fetchBytes s = ps ++ (encode i ++ rest) → step s = .fault .ud) ∧
    ∀ n < (encode i).length, fetchBytes s = ps ++ (encode i).take n →
      step s = if (fetchBytes s).length = 15 then .fault .gp else .refused .textUnavailable

/-- 30_encoding.md R99, R100: an encoding that is not one of the two instructions is refused and raises no `#UD`: another first
byte, another opcode map, another opcode, or `pp` of `00b` or `01b` (95_test_vectors.md X41, X42). -/
def Obligations.OtherEncodingsAreRefused : Prop :=
  ∀ s : State, isLaunchState s = true →
    (∀ b rest, fetchBytes s = b :: rest →
      b ∉ [0x62#8, 0xF0#8, 0x66#8, 0xF2#8, 0xF3#8, 0x2E#8, 0x36#8, 0x3E#8, 0x26#8, 0x64#8, 0x65#8, 0x67#8] →
      ¬(0x40#8 ≤ b ∧ b ≤ 0x4F#8) → step s = .refused .notEvex) ∧
    ∀ p0 p1 p2 op modrm tail, fetchBytes s = 0x62#8 :: p0 :: p1 :: p2 :: op :: modrm :: tail →
      (p0.extractLsb' 0 3 ≠ 0b110#3 → step s = .refused .otherOpcodeMap) ∧
      (p0.extractLsb' 0 3 = 0b110#3 → op ≠ 0xD6#8 → step s = .refused .otherOpcode) ∧
      (p0.extractLsb' 0 3 = 0b110#3 → op = 0xD6#8 → p1.extractLsb' 0 2 = 0b00#2 ∨ p1.extractLsb' 0 2 = 0b01#2 →
        step s = .refused .undescribedPp)

/-! ## Completion, results and frame -/

/-- VFCMULCPH without embedded rounding completes on every ready state and operand, with the product by the conjugate in the
selected elements, and changes nothing else (40_complex_multiply.md R137, R151 to R153). The statement speaks of exec, in every
state: with `DAZ` or `FTZ` set (log 12), with `MXCSR[31:16]` not 0 (log 23), with legacy prefixes (log 16) and under active
alignment checking (log 17) that it completes is the model's choice; a step refuses them all. -/
def Obligations.VfcmulcphFormsComplete : Prop :=
  ∀ (o : Operands) (src2 : Src2) (s : State),
    (ready s .v128 o src2 = true → carriesOut (.vfcmulcphXmm o src2) ⟨true, .v128, none⟩ o src2 s) ∧
    (ready s .v256 o src2 = true → carriesOut (.vfcmulcphYmm o src2) ⟨true, .v256, none⟩ o src2 s) ∧
    (ready s .v512 o src2 = true → carriesOut (.vfcmulcphZmm o src2) ⟨true, .v512, none⟩ o src2 s)

/-- VFMULCPH without embedded rounding completes likewise, with the plain product (R138, R154 to R156). The statement speaks of
exec, in every state: with `DAZ` or `FTZ` set (log 12), with `MXCSR[31:16]` not 0 (log 23), with legacy prefixes (log 16) and under
active alignment checking (log 17) that it completes is the model's choice; a step refuses them all. -/
def Obligations.VfmulcphFormsComplete : Prop :=
  ∀ (o : Operands) (src2 : Src2) (s : State),
    (ready s .v128 o src2 = true → carriesOut (.vfmulcphXmm o src2) ⟨false, .v128, none⟩ o src2 s) ∧
    (ready s .v256 o src2 = true → carriesOut (.vfmulcphYmm o src2) ⟨false, .v256, none⟩ o src2 s) ∧
    (ready s .v512 o src2 = true → carriesOut (.vfmulcphZmm o src2) ⟨false, .v512, none⟩ o src2 s)

/-- The embedded-rounding forms complete with the static rounding mode; whether `MXCSR` gains the flags is the OPEN parameter (R157,
R158, 60_exceptions.md R174; log 13). That exec completes with `DAZ` or `FTZ` set (log 12), with `MXCSR[31:16]` not 0 (log 23) and
with legacy prefixes (log 16) is the model's choice; a step refuses them all. -/
def Obligations.EmbeddedRoundingFormsComplete : Prop :=
  ∀ (o : Operands) (n : VReg) (rc : Rounding) (s : State), ready s .v512 o (.reg n) = true →
    carriesOut (.vfcmulcphZmmEr o n rc) ⟨true, .v512, some rc⟩ o (.reg n) s ∧
    carriesOut (.vfmulcphZmmEr o n rc) ⟨false, .v512, some rc⟩ o (.reg n) s

/-- Whatever instruction answers a next state, in any state: nothing but its destination register, the five flags of `MXCSR` and
`RIP` is changed, and no byte of memory is (10_state.md R39, R31). -/
def Obligations.EveryInstructionKeepsItsFrame : Prop :=
  ∀ (i : Instr) (s t : State), exec i s = .next t →
    unchangedBut (operandsOf i).dest s t ∧ t.mem = s.mem ∧ t.rip = s.rip + BitVec.ofNat 64 (encode i).length ∧
    t.mxcsr &&& ~~~0x3B#32 = s.mxcsr &&& ~~~0x3B#32

/-- 10_state.md R28: a flag is only ever set: the new value is the old one OR the flags of the selected elements. An
embedded-rounding form adds none of them if the open parameter says so (60_exceptions.md R174, log 13). -/
def Obligations.FlagsAreOnlyEverSet : Prop :=
  ∀ (i : Instr) (s t : State), exec i s = .next t →
    (∃ fl : FpFlags, t.mxcsr = s.mxcsr ||| fl.setWidth 32 ∧ fl &&& flagZE = 0#6 ∧
      fl = if (formOf i).er.isSome = true ∧ Config.erUpdatesFlags = false then 0#6
        else selectedFlags (formOf i) (operandsOf i) (src2Of i) s) ∧
    (∀ b, s.mxcsr.getLsbD b = true → t.mxcsr.getLsbD b = true) ∧
    t.mxcsr.extractLsb' 6 26 = s.mxcsr.extractLsb' 6 26

/-- 60_exceptions.md R171: on completion of a form without embedded rounding `MXCSR[5:0]` is the old value OR the flags of the four
operations of every selected element. -/
def Obligations.FlagsAreThoseOfTheFourOperations : Prop :=
  ∀ (i : Instr) (s t : State), exec i s = .next t → (formOf i).er = none →
    let o := operandsOf i
    let env := fpEnv s none
    let flags : Nat → FpFlags := fun e =>
      let a := dwordAt (getZmm s o.src1) e
      let b := src2Element s (src2Of i) (src2Address s (formOf i).vl o (src2Of i) (ripNext s o (src2Of i))) e
      let re := fp16Mul env (realPart a) (realPart b)
      let im := fp16Mul env (imagPart a) (realPart b)
      re.2 ||| im.2 ||| (fp16Fma env (!(formOf i).conj) (imagPart a) (imagPart b) re.1).2 |||
        (fp16Fma env (formOf i).conj (realPart a) (imagPart b) im.1).2
    ∀ b < 6, t.mxcsr.getLsbD b =
      (s.mxcsr.getLsbD b || (List.range (elementCount (formOf i).vl)).any fun e => selected s o.mask e && (flags e).getLsbD b)

/-- 60_exceptions.md R173: no element raises `ZE`, and no instruction and no step changes it. -/
def Obligations.DivideByZeroFlagIsNeverSet : Prop :=
  (∀ (conj : Bool) (env : FpEnv) (a b : Dword), (cmulElement conj env a b).flags &&& flagZE = 0#6) ∧
  (∀ (i : Instr) (s t : State), exec i s = .next t → t.mxcsr.getLsbD 2 = s.mxcsr.getLsbD 2) ∧
  ∀ s t : State, step s = .next t → t.mxcsr.getLsbD 2 = s.mxcsr.getLsbD 2

/-- 40_complex_multiply.md R145, R146: zeroing clears all 32 bits of an unselected element, and the bits above the vector length are
cleared whatever the mask and whatever `z`. -/
def Obligations.ZeroedElementsAndUpperBits : Prop :=
  ∀ (i : Instr) (s t : State), exec i s = .next t →
    ((operandsOf i).zeroing = true → (operandsOf i).mask ≠ 0#3 → ∀ e < elementCount (formOf i).vl,
      (getK s (operandsOf i).mask).getLsbD e = false → dwordAt (getZmm t (operandsOf i).dest) e = 0#32) ∧
    ∀ b, 32 * elementCount (formOf i).vl ≤ b → (getZmm t (operandsOf i).dest).getLsbD b = false

/-- 40_complex_multiply.md R144, which the spec infers from the absence of an assignment: merging keeps an unselected element. -/
def Obligations.MergingKeepsUnselectedElements : Prop :=
  ∀ (i : Instr) (s t : State), exec i s = .next t → (operandsOf i).zeroing = false → (operandsOf i).mask ≠ 0#3 →
    ∀ e < elementCount (formOf i).vl, (getK s (operandsOf i).mask).getLsbD e = false →
      dwordAt (getZmm t (operandsOf i).dest) e = dwordAt (getZmm s (operandsOf i).dest) e

/-- 40_complex_multiply.md R143: with every element unselected the instruction still executes, raises no flag, zeroes or keeps each
element, clears the upper bits and advances `RIP`; the `#UD` checks still apply. The statement speaks of exec: with `DAZ` or `FTZ`
set (log 12), with `MXCSR[31:16]` not 0 (log 23), with legacy prefixes (log 16) and under active alignment checking (log 17) that it
completes is the model's choice; a step refuses them all. -/
def Obligations.AllElementsUnselected : Prop :=
  ∀ (i : Instr) (s : State), (operandsOf i).mask ≠ 0#3 →
    (∀ e < elementCount (formOf i).vl, (getK s (operandsOf i).mask).getLsbD e = false) →
    (ready s (formOf i).vl (operandsOf i) (src2Of i) = true →
      ∃ t, exec i s = .next t ∧ t.mxcsr = s.mxcsr ∧ t.rip = s.rip + BitVec.ofNat 64 (encode i).length ∧
        ∀ e < 16, dwordAt (getZmm t (operandsOf i).dest) e =
          if e < elementCount (formOf i).vl ∧ (operandsOf i).zeroing = false then dwordAt (getZmm s (operandsOf i).dest) e
          else 0#32) ∧
    (s.mode = .bits64 → legalOperands (operandsOf i) (src2Of i) = false → exec i s = .fault .ud)

/-! ## Exceptions -/

/-- 30_encoding.md R98: a destination equal to the first source, or to a register second source, raises `#UD`, whatever the mask,
the zeroing bit and the length; the two sources may be the same register. That a memory source is not compared is the spec's choice
D21 (log 20). The statement speaks of exec: with `DAZ` or `FTZ` set (log 12), with `MXCSR[31:16]` not 0 (log 23), with legacy
prefixes (log 16) and under active alignment checking (log 17) that it completes is the model's choice; a step refuses them all. -/
def Obligations.OverlapRaisesUndefinedOpcode : Prop :=
  ∀ (i : Instr) (s : State), s.mode = .bits64 →
    ((operandsOf i).dest = (operandsOf i).src1 ∨ src2Of i = .reg (operandsOf i).dest → exec i s = .fault .ud) ∧
    (enabled s (formOf i).vl = true → ((operandsOf i).zeroing = true → (operandsOf i).mask ≠ 0#3) →
      accessible s (formOf i).vl (operandsOf i) (src2Of i) = true → (operandsOf i).dest ≠ (operandsOf i).src1 →
      (∀ n, src2Of i = .reg n → n ≠ (operandsOf i).dest) → ∃ t, exec i s = .next t)

/-- 60_exceptions.md R176: the conditions of `#UD` of a decoded form, exactly. The bit number of `CR4.OSXSAVE` is log 3. -/
def Obligations.UndefinedOpcodeExactly : Prop :=
  ∀ (i : Instr) (s : State), s.mode ≠ .bits32 → (exec i s = .fault .ud ↔ undefinedConditions i s)

/-- 60_exceptions.md R177: with `CR0.TS` set, a form that no `#UD` condition stops raises `#NM` before any memory access, whatever
its memory operand; one that any of them stops (mode, feature, enabled state, operands) raises `#UD`. The bit numbers of `CR0.TS`
and `CR4.OSXSAVE` are log 3 (PRESUMED). -/
def Obligations.TaskSwitchedRaisesDeviceNotAvailable : Prop :=
  ∀ (i : Instr) (s : State), s.mode ≠ .bits32 → s.cr0.getLsbD 3 = true →
    (undefinedConditions i s → exec i s = .fault .ud) ∧ (¬undefinedConditions i s → exec i s = .fault .nm)

/-- 20_memory.md R55, R57 and 60_exceptions.md R178, R180: with alignment checking off, whatever the alignment, a memory form faults
exactly on its checked bytes: a non-canonical one first, with `#SS` exactly when the segment is SS (30_encoding.md R106), then an
unreadable one. That it is the lowest is the spec's choice D18 (log 21); what `user` and `present` say is log 22. That exec runs
legacy prefixes (log 16) and `DAZ` or `FTZ` (log 12) is the model's choice; a step refuses them all. -/
def Obligations.MemoryFaultsComeFromTheCheckedBytes : Prop :=
  ∀ (i : Instr) (s : State) (bc : Bool) (m : MemOperand), src2Of i = .mem bc m → enabled s (formOf i).vl = true →
    legalOperands (operandsOf i) (src2Of i) = true → alignmentCheck s = false →
    let lin := src2Address s (formOf i).vl (operandsOf i) (src2Of i) (ripNext s (operandsOf i) (src2Of i))
    let addrs := checkedAddresses s (operandsOf i).mask (formOf i).vl bc lin
    ((∃ a ∈ addrs, canonical a = false) →
      (usesStackSegment (operandsOf i).legacy m → exec i s = .fault .ss) ∧
      (¬usesStackSegment (operandsOf i).legacy m → exec i s = .fault .gp)) ∧
    ((∀ a ∈ addrs, canonical a = true) → (∃ a ∈ addrs, readable s a.toNat = false) →
      ∃ a code, lowestUnreadable s addrs a ∧ exec i s = .fault (.pf code a) ∧
        code.write = false ∧ code.fetch = false ∧ code.user = (s.cpl == 3#2) ∧
        ((∀ r ∈ s.blocked, r.first ≤ a.toNat → a.toNat ≤ r.last → r.protection = .notPresent) → code.present = false) ∧
        ((∀ r ∈ s.blocked, r.first ≤ a.toNat → a.toNat ≤ r.last → r.protection ≠ .notPresent) → code.present = true)) ∧
    ((∀ a ∈ addrs, canonical a = true ∧ readable s a.toNat = true) → ∃ t, exec i s = .next t)

/-- 20_memory.md R59, R60: `#AC(0)` is never raised while alignment checking is not active, or for a register or aligned second
source. For a misaligned memory operand under alignment checking, whose bytes may all be read and of which none is masked off, the
OPEN parameter (log 17) decides between `#AC(0)` and execution. That exec runs in such a state is the model's choice (log 17); a
step refuses it. -/
def Obligations.AlignmentFaultsOnlyUnderAlignmentCheck : Prop :=
  ∀ (i : Instr) (s : State),
    (alignmentCheck s = false ∨ (∃ n, src2Of i = .reg n) ∨ (∃ bc m, src2Of i = .mem bc m ∧
        operandBytes (formOf i).vl bc ∣
          (src2Address s (formOf i).vl (operandsOf i) (src2Of i) (ripNext s (operandsOf i) (src2Of i))).toNat) →
      exec i s ≠ .fault .ac) ∧
    ∀ bc m, src2Of i = .mem bc m → enabled s (formOf i).vl = true → legalOperands (operandsOf i) (src2Of i) = true →
      (operandsOf i).mask = 0#3 → alignmentCheck s = true →
      let n := operandBytes (formOf i).vl bc
      let lin := src2Address s (formOf i).vl (operandsOf i) (src2Of i) (ripNext s (operandsOf i) (src2Of i))
      ¬ n ∣ lin.toNat → (∀ a ∈ operandAddresses (formOf i).vl bc lin, canonical a = true ∧ readable s a.toNat = true) →
      if Config.misalignedFaults n lin = true then exec i s = .fault .ac else ∃ t, exec i s = .next t

/-! ## Operands -/

/-- 30_encoding.md R101 to R106 and 20_memory.md R50, R53, R54: where the elements of a memory second source come from: the address
of each form, the scale of a one-byte displacement, the order of the bytes. With legacy prefixes, the 32-bit sum and the segment
base they ask for; that exec runs those at all is the model's choice (log 16), a step refuses them. -/
def Obligations.MemoryElementsComeFromTheEffectiveAddress : Prop :=
  ∀ (i : Instr) (s t : State) (bc : Bool) (m : MemOperand), exec i s = .next t → src2Of i = .mem bc m →
    let n : Nat := if bc then 4 else match (formOf i).vl with | .v128 => 16 | .v256 => 32 | .v512 => 64
    let lin := linearSum s (operandsOf i).legacy (s.rip + BitVec.ofNat 64 (encode i).length) n m
    ∀ e < elementCount (formOf i).vl, selected s (operandsOf i).mask e = true →
      ∀ b : Dword,
        (∀ k < 4, b.extractLsb' (8 * k) 8 = readByte s (lin + (if bc then 0 else BitVec.ofNat 64 (4 * e)) + BitVec.ofNat 64 k)) →
        dwordAt (getZmm t (operandsOf i).dest) e =
          pairOf (cmulElement (formOf i).conj (fpEnv s (formOf i).er) (dwordAt (getZmm s (operandsOf i).src1) e) b).re
            (cmulElement (formOf i).conj (fpEnv s (formOf i).er) (dwordAt (getZmm s (operandsOf i).src1) e) b).im

/-- 30_encoding.md R101 to R106: the linear address of every addressing form in 64-bit mode: `0x67` makes the sum one of 32-bit
values, zero-extended, and an FS or GS override adds that segment's base. That the model gives these prefixes an effect, which
30_encoding.md R97 has a decoder refuse, and what it does with both overrides, is its own choice (log 16). -/
def Obligations.AddressPrefixesChangeTheAddress : Prop :=
  ∀ (s : State) (legacy : List LegacyPrefix) (next : Qword) (n : Nat) (m : MemOperand), s.mode = .bits64 →
    linearAddress s legacy next n m = linearSum s legacy next n m

/-- 10_state.md R25: of the opmask registers only the low `KL` bits of the selected one are read, and none is written. -/
def Obligations.OnlyTheLowMaskBitsAreRead : Prop :=
  ∀ (i : Instr) (s : State) (k : Vector Qword 8),
    ((operandsOf i).mask ≠ 0#3 → ∀ e < elementCount (formOf i).vl,
      (getK { s with k := k } (operandsOf i).mask).getLsbD e = (getK s (operandsOf i).mask).getLsbD e) →
    exec i { s with k := k } = match exec i s with
      | .next t => .next { t with k := k }
      | .fault f => .fault f
      | .refused r => .refused r

/-- 60_exceptions.md R172: the exception mask bits `MXCSR[12:7]` have no influence: changing them changes them and nothing else. -/
def Obligations.ExceptionMasksHaveNoInfluence : Prop :=
  ∀ (i : Instr) (s : State) (m : Dword), m &&& ~~~0x1F80#32 = s.mxcsr &&& ~~~0x1F80#32 →
    exec i { s with mxcsr := m } = match exec i s with
      | .next t => .next { t with mxcsr := (t.mxcsr &&& ~~~0x1F80#32) ||| (m &&& 0x1F80#32) }
      | .fault f => .fault f
      | .refused r => .refused r

/-- 10_state.md R39: two states that agree on the read set of an instruction, and on nothing else, get the same answer from it. In
particular masked-off elements and bytes, upper halves of the sources, `RC` under embedded rounding and all other registers are
no input. -/
def Obligations.AnswersDependOnTheReadSetOnly : Prop :=
  ∀ (i : Instr) (s s' : State), sameReads i s s' → sameAnswer i s s'

/-- 40_complex_multiply.md R133, R140: the source's three loops, with temporaries of any earlier content and the destination
register written in place, leave the register file that the execution leaves. -/
def Obligations.ThreeLoopsOfThePseudocodeAgree : Prop :=
  ∀ (i : Instr) (s t : State) (tsrc2 tmp : Zmm), exec i s = .next t →
    (pseudocode (formOf i) (operandsOf i) (src2Of i) s tsrc2 tmp).zmm = t.zmm

/-- 70_reset_and_hazards.md R206: two executions accumulate flags. -/
def Obligations.ConsecutiveExecutionsAccumulateFlags : Prop :=
  ∀ (i j : Instr) (s t u : State), (formOf i).er = none → (formOf j).er = none → exec i s = .next t → exec j t = .next u →
    mxcsrFlags u.mxcsr = mxcsrFlags s.mxcsr ||| selectedFlags (formOf i) (operandsOf i) (src2Of i) s |||
      selectedFlags (formOf j) (operandsOf j) (src2Of j) t

/-! ## Arithmetic -/

/-- 40_complex_multiply.md R128 (c), (d): in every rounding mode, with denormals used or flushed, no operation raises `ZE`, and `OE`
and `UE` come with `PE`. -/
def Obligations.OverflowAndUnderflowComeWithPrecision : Prop :=
  ∀ (env : FpEnv) (neg : Bool) (a b c : Fp16), ∀ fl ∈ [(fp16Mul env a b).2, (fp16Fma env neg a b c).2],
    fl &&& flagZE = 0#6 ∧ (fl &&& flagOE ≠ 0#6 → fl &&& flagPE ≠ 0#6) ∧ (fl &&& flagUE ≠ 0#6 → fl &&& flagPE ≠ 0#6)

/-- 40_complex_multiply.md R125: rounding a non-zero exact value is correct in every mode; OverflowAndUnderflowFlagsOfRounding says
when it overflows and underflows, FiniteOperationsAreCorrectlyRounded what the operations round. -/
def Obligations.RoundingIsCorrectInEveryMode : Prop :=
  ∀ (s : Bool) (mag : Nat) (rm : Rounding), 0 < mag → correctlyRounded s mag rm (roundExact s mag rm)

/-- 40_complex_multiply.md R126 step 6, R127 steps 6 and 8, R128 (b): with denormals used and produced, on finite operands with a
non-zero exact result a multiplication and a fused operation give that result correctly rounded, with the flags of its rounding and
`DE` for a denormal operand, where a denormal temporary counts as the open parameter says (log 15). -/
def Obligations.FiniteOperationsAreCorrectlyRounded : Prop :=
  ∀ (env : FpEnv) (neg : Bool) (a b c : Fp16), env.daz = false → env.ftz = false →
    isFinite a = true → isFinite b = true →
    (let x := value24 a * value24 b
     x ≠ 0 → correctlyRounded (decide (x < 0)) x.natAbs env.rm (fp16Mul env a b) ∧
       (fp16Mul env a b).2 = (roundExact (decide (x < 0)) x.natAbs env.rm).2 ||| flagIf (isDenormal a || isDenormal b) flagDE) ∧
    (isFinite c = true →
      let x := fusedExact neg a b c
      x ≠ 0 → correctlyRounded (decide (x < 0)) x.natAbs env.rm (fp16Fma env neg a b c) ∧
        (fp16Fma env neg a b c).2 = (roundExact (decide (x < 0)) x.natAbs env.rm).2 |||
          flagIf (isDenormal a || isDenormal b || (isDenormal c && Config.tmpDenormalSetsDe)) flagDE)

/-- 40_complex_multiply.md R125 steps 2 to 4: `OE` exactly when the magnitude, rounded without a bound on the exponent, is beyond
the largest finite value, and `UE` exactly when the result is inexact and, so rounded, below the smallest normal. -/
def Obligations.OverflowAndUnderflowFlagsOfRounding : Prop :=
  ∀ (s : Bool) (mag : Nat) (rm : Rounding), 0 < mag →
    let l := Nat.log2 mag
    let unbounded := rint (mag * 2 ^ 10) (2 ^ l) s rm * 2 ^ l
    let r := roundExact s mag rm
    (r.2 &&& flagOE ≠ 0#6 ↔ 65504 * 2 ^ 58 < unbounded) ∧
    (r.2 &&& flagUE ≠ 0#6 ↔ r.2 &&& flagPE ≠ 0#6 ∧ unbounded < 2 ^ 44)

/-- 40_complex_multiply.md R128 (e): with no NaN, infinity or denormal operand and an exactly representable result, the operation
gives that result and raises no flag. -/
def Obligations.ExactResultsRaiseNoFlag : Prop :=
  ∀ (env : FpEnv) (neg : Bool) (a b c h : Fp16), env.daz = false → env.ftz = false → isFinite h = true →
    (∀ x ∈ [a, b, c], isFinite x = true ∧ isDenormal x = false) →
    (value24 a * value24 b = value24 h * 2 ^ 24 →
      (fp16Mul env a b).2 = 0#6 ∧ isFinite (fp16Mul env a b).1 = true ∧ value24 (fp16Mul env a b).1 = value24 h) ∧
    ((if neg then -(value24 a * value24 b) else value24 a * value24 b) + value24 c * 2 ^ 24 = value24 h * 2 ^ 24 →
      (fp16Fma env neg a b c).2 = 0#6 ∧ isFinite (fp16Fma env neg a b c).1 = true ∧
        value24 (fp16Fma env neg a b c).1 = value24 h)

/-- 40_complex_multiply.md R137, R138: from finite operands, where no operation raised `PE`, the element is exactly the complex
product, or the product by the conjugate. -/
def Obligations.ComplexProductIsExactWithoutPrecisionFlag : Prop :=
  ∀ (conj : Bool) (env : FpEnv) (a b : Dword), env.daz = false → env.ftz = false →
    (∀ x ∈ [realPart a, imagPart a, realPart b, imagPart b], isFinite x = true) →
    (cmulElement conj env a b).flags &&& flagPE = 0#6 →
    isFinite (cmulElement conj env a b).re = true ∧ isFinite (cmulElement conj env a b).im = true ∧
    value24 (cmulElement conj env a b).re * 2 ^ 24 = exactRe conj a b ∧
    value24 (cmulElement conj env a b).im * 2 ^ 24 = exactIm conj a b

/-- 40_complex_multiply.md R131: a NaN result is a QNaN, the default one when no operand is a NaN, else one of the NaN operands
quieted; and a NaN operand, a NaN temporary among them, always gives a NaN. -/
def Obligations.NanResultsAreQuietedOperandsOrTheDefault : Prop :=
  (∀ (env : FpEnv) (neg : Bool) (a b c : Fp16), ∀ p ∈ [([a, b], (fp16Mul env a b).1), ([a, b, c], (fp16Fma env neg a b c).1)],
    (isNan p.2 = true → isQnan p.2 = true ∧
      ((∀ x ∈ p.1, isNan x = false) → p.2 = 0xFE00#16) ∧
      ((∃ x ∈ p.1, isNan x = true) → ∃ x ∈ p.1, isNan x = true ∧ p.2 = x ||| 0x0200#16)) ∧
    ((∃ x ∈ p.1, isNan x = true) → isNan p.2 = true)) ∧
  ∀ (conj : Bool) (env : FpEnv) (a b : Dword),
    (isNan (fp16Mul env (realPart a) (realPart b)).1 = true → isNan (cmulElement conj env a b).re = true) ∧
    (isNan (fp16Mul env (imagPart a) (realPart b)).1 = true → isNan (cmulElement conj env a b).im = true)

/-- 40_complex_multiply.md R126: when a multiplication raises `IE` and when `DE`. That a NaN operand keeps `DE` from being raised is
the spec's choice D17, which R132 calls OPEN (log 15). -/
def Obligations.InvalidAndDenormalFlagsOfMultiplication : Prop :=
  ∀ (env : FpEnv) (a b : Fp16), env.daz = false →
    ((fp16Mul env a b).2 &&& flagIE ≠ 0#6 ↔ isSnan a = true ∨ isSnan b = true ∨ zeroTimesInfinity a b) ∧
    ((fp16Mul env a b).2 &&& flagDE ≠ 0#6 ↔
      isNan a = false ∧ isNan b = false ∧ (isDenormal a = true ∨ isDenormal b = true))

/-- 40_complex_multiply.md R127 steps 1 to 4: when a fused operation raises `IE` and when `DE`. Zero times infinity with a quiet NaN
addend is the open parameter of log 11, a denormal temporary that of log 15; that a NaN or an invalid operation keeps `DE` from
being raised is the spec's choice D17, which R132 calls OPEN (log 15). -/
def Obligations.InvalidAndDenormalFlagsOfFusedOperations : Prop :=
  ∀ (env : FpEnv) (neg : Bool) (a b c : Fp16), env.daz = false →
    let noNan := isNan a = false ∧ isNan b = false ∧ isNan c = false
    ((fp16Fma env neg a b c).2 &&& flagIE ≠ 0#6 ↔
      isSnan a = true ∨ isSnan b = true ∨ isSnan c = true ∨ (noNan ∧ fusedInvalid neg a b c) ∨
      (isQnan c = true ∧ zeroTimesInfinity a b ∧ Config.zeroTimesInfPlusQnanSetsIe = true)) ∧
    ((fp16Fma env neg a b c).2 &&& flagDE ≠ 0#6 ↔
      noNan ∧ ¬fusedInvalid neg a b c ∧
      (isDenormal a = true ∨ isDenormal b = true ∨ (isDenormal c = true ∧ Config.tmpDenormalSetsDe = true)))

/-- 40_complex_multiply.md R126 steps 4 and 5, R127 steps 5 and 7: infinite results, and exactly zero ones, without NaN and invalid
operation: their signs, and that no flag but `DE` comes with them. -/
def Obligations.InfiniteAndZeroResults : Prop :=
  ∀ (env : FpEnv) (neg : Bool) (a b c : Fp16), env.daz = false → isNan a = false → isNan b = false →
    let s := fpSign a ^^ fpSign b
    let sp := productSign neg a b
    let onlyDe : FpResult → Fp16 → Prop := fun r v => r.1 = v ∧ r.2 &&& ~~~flagDE = 0#6
    (¬zeroTimesInfinity a b →
      ((isInf a = true ∨ isInf b = true) → onlyDe (fp16Mul env a b) (if s then 0xFC00#16 else 0x7C00#16)) ∧
      ((isZero a = true ∨ isZero b = true) → onlyDe (fp16Mul env a b) (if s then 0x8000#16 else 0x0000#16))) ∧
    (isNan c = false → ¬fusedInvalid neg a b c →
      ((isInf a = true ∨ isInf b = true) → onlyDe (fp16Fma env neg a b c) (if sp then 0xFC00#16 else 0x7C00#16)) ∧
      (isInf a = false → isInf b = false → isInf c = true → onlyDe (fp16Fma env neg a b c) c) ∧
      (isFinite a = true → isFinite b = true → isFinite c = true → fusedExact neg a b c = 0 →
        onlyDe (fp16Fma env neg a b c)
          (if (isZero a = true ∨ isZero b = true) ∧ isZero c = true ∧ sp = fpSign c then (if sp then 0x8000#16 else 0x0000#16)
            else if env.rm = .rd then 0x8000#16 else 0x0000#16)))
end

