-- ==== Sys2Proof/Laws/State.lean ====
section
/-! SUPPORT. One lemma per field per update of State, and the laws of the register accessors. -/

namespace Sys2Proof.Machine

/-! ## Writing a vector register -/

@[simp] theorem setZmm_mode (s : State) (n : VReg) (v : Zmm) : (setZmm s n v).mode = s.mode := rfl
@[simp] theorem setZmm_zmm (s : State) (n : VReg) (v : Zmm) : (setZmm s n v).zmm = s.zmm.set n.toNat v n.isLt := rfl
@[simp] theorem setZmm_k (s : State) (n : VReg) (v : Zmm) : (setZmm s n v).k = s.k := rfl
@[simp] theorem setZmm_mxcsr (s : State) (n : VReg) (v : Zmm) : (setZmm s n v).mxcsr = s.mxcsr := rfl
@[simp] theorem setZmm_rip (s : State) (n : VReg) (v : Zmm) : (setZmm s n v).rip = s.rip := rfl
@[simp] theorem setZmm_gpr (s : State) (n : VReg) (v : Zmm) : (setZmm s n v).gpr = s.gpr := rfl
@[simp] theorem setZmm_seg (s : State) (n : VReg) (v : Zmm) : (setZmm s n v).seg = s.seg := rfl
@[simp] theorem setZmm_cr0 (s : State) (n : VReg) (v : Zmm) : (setZmm s n v).cr0 = s.cr0 := rfl
@[simp] theorem setZmm_cr2 (s : State) (n : VReg) (v : Zmm) : (setZmm s n v).cr2 = s.cr2 := rfl
@[simp] theorem setZmm_cr4 (s : State) (n : VReg) (v : Zmm) : (setZmm s n v).cr4 = s.cr4 := rfl
@[simp] theorem setZmm_xcr0 (s : State) (n : VReg) (v : Zmm) : (setZmm s n v).xcr0 = s.xcr0 := rfl
@[simp] theorem setZmm_rflags (s : State) (n : VReg) (v : Zmm) : (setZmm s n v).rflags = s.rflags := rfl
@[simp] theorem setZmm_cpl (s : State) (n : VReg) (v : Zmm) : (setZmm s n v).cpl = s.cpl := rfl
@[simp] theorem setZmm_features (s : State) (n : VReg) (v : Zmm) : (setZmm s n v).features = s.features := rfl
@[simp] theorem setZmm_mem (s : State) (n : VReg) (v : Zmm) : (setZmm s n v).mem = s.mem := rfl
@[simp] theorem setZmm_blocked (s : State) (n : VReg) (v : Zmm) : (setZmm s n v).blocked = s.blocked := rfl

@[simp] theorem getZmm_setZmm_same (s : State) (n : VReg) (v : Zmm) : getZmm (setZmm s n v) n = v := by
  simp [getZmm, setZmm]

theorem getZmm_setZmm_other (s : State) (n m : VReg) (v : Zmm) (h : m ≠ n) :
    getZmm (setZmm s n v) m = getZmm s m := by
  have hne : n.toNat ≠ m.toNat := fun e => h (BitVec.eq_of_toNat_eq e.symm)
  simp [getZmm, setZmm, hne]

/-! ## Completing an execution -/

@[simp] theorem complete_mode (f : Form) (o : Operands) (src2 : Src2) (s : State) : (complete f o src2 s).mode = s.mode := rfl
@[simp] theorem complete_zmm (f : Form) (o : Operands) (src2 : Src2) (s : State) : (complete f o src2 s).zmm = s.zmm.set o.dest.toNat (destValue f o src2 s) o.dest.isLt := rfl
@[simp] theorem complete_k (f : Form) (o : Operands) (src2 : Src2) (s : State) : (complete f o src2 s).k = s.k := rfl
@[simp] theorem complete_mxcsr (f : Form) (o : Operands) (src2 : Src2) (s : State) : (complete f o src2 s).mxcsr = 
    updateFlags f.er.isSome s.mxcsr (raisedFlags f o src2 s) := rfl
@[simp] theorem complete_rip (f : Form) (o : Operands) (src2 : Src2) (s : State) : (complete f o src2 s).rip = ripNext s o src2 := rfl
@[simp] theorem complete_gpr (f : Form) (o : Operands) (src2 : Src2) (s : State) : (complete f o src2 s).gpr = s.gpr := rfl
@[simp] theorem complete_seg (f : Form) (o : Operands) (src2 : Src2) (s : State) : (complete f o src2 s).seg = s.seg := rfl
@[simp] theorem complete_cr0 (f : Form) (o : Operands) (src2 : Src2) (s : State) : (complete f o src2 s).cr0 = s.cr0 := rfl
@[simp] theorem complete_cr2 (f : Form) (o : Operands) (src2 : Src2) (s : State) : (complete f o src2 s).cr2 = s.cr2 := rfl
@[simp] theorem complete_cr4 (f : Form) (o : Operands) (src2 : Src2) (s : State) : (complete f o src2 s).cr4 = s.cr4 := rfl
@[simp] theorem complete_xcr0 (f : Form) (o : Operands) (src2 : Src2) (s : State) : (complete f o src2 s).xcr0 = s.xcr0 := rfl
@[simp] theorem complete_rflags (f : Form) (o : Operands) (src2 : Src2) (s : State) : (complete f o src2 s).rflags = s.rflags := rfl
@[simp] theorem complete_cpl (f : Form) (o : Operands) (src2 : Src2) (s : State) : (complete f o src2 s).cpl = s.cpl := rfl
@[simp] theorem complete_features (f : Form) (o : Operands) (src2 : Src2) (s : State) : (complete f o src2 s).features = s.features := rfl
@[simp] theorem complete_mem (f : Form) (o : Operands) (src2 : Src2) (s : State) : (complete f o src2 s).mem = s.mem := rfl
@[simp] theorem complete_blocked (f : Form) (o : Operands) (src2 : Src2) (s : State) : (complete f o src2 s).blocked = s.blocked := rfl

@[simp] theorem getZmm_complete_same (f : Form) (o : Operands) (src2 : Src2) (s : State) :
    getZmm (complete f o src2 s) o.dest = destValue f o src2 s := by
  simp [getZmm]

theorem getZmm_complete_other (f : Form) (o : Operands) (src2 : Src2) (s : State) (n : VReg) (h : n ≠ o.dest) :
    getZmm (complete f o src2 s) n = getZmm s n :=
  getZmm_setZmm_other s o.dest n _ h

@[simp] theorem getK_complete (f : Form) (o : Operands) (src2 : Src2) (s : State) (n : Opmask) :
    getK (complete f o src2 s) n = getK s n := rfl

@[simp] theorem getGpr_complete (f : Form) (o : Operands) (src2 : Src2) (s : State) (n : GReg) :
    getGpr (complete f o src2 s) n = getGpr s n := rfl

/-! ## Launching -/

@[simp] theorem launch_mode (s : State) : (launch s).mode = .bits64 := rfl
@[simp] theorem launch_zmm (s : State) : (launch s).zmm = s.zmm := rfl
@[simp] theorem launch_k (s : State) : (launch s).k = s.k := rfl
@[simp] theorem launch_mxcsr (s : State) : (launch s).mxcsr = s.mxcsr := rfl
@[simp] theorem launch_rip (s : State) : (launch s).rip = s.rip := rfl
@[simp] theorem launch_gpr (s : State) : (launch s).gpr = s.gpr := rfl
@[simp] theorem launch_seg (s : State) : (launch s).seg = s.seg := rfl
@[simp] theorem launch_cr0 (s : State) : (launch s).cr0 = s.cr0 &&& ~~~(1#64 <<< 3) := rfl
@[simp] theorem launch_cr2 (s : State) : (launch s).cr2 = s.cr2 := rfl
@[simp] theorem launch_cr4 (s : State) : (launch s).cr4 = s.cr4 ||| (1#64 <<< 18) := rfl
@[simp] theorem launch_xcr0 (s : State) : (launch s).xcr0 = s.xcr0 ||| 0xE6#64 := rfl
@[simp] theorem launch_rflags (s : State) : (launch s).rflags = s.rflags := rfl
@[simp] theorem launch_cpl (s : State) : (launch s).cpl = s.cpl := rfl
@[simp] theorem launch_features (s : State) : (launch s).features = s.features := rfl
@[simp] theorem launch_mem (s : State) : (launch s).mem = s.mem := rfl
@[simp] theorem launch_blocked (s : State) : (launch s).blocked = s.blocked := rfl

/-! ## INIT# -/

@[simp] theorem applyInit_mode (s : State) : (applyInit s).mode = State.reset.mode := rfl
@[simp] theorem applyInit_zmm (s : State) : (applyInit s).zmm = s.zmm := rfl
@[simp] theorem applyInit_k (s : State) : (applyInit s).k = s.k := rfl
@[simp] theorem applyInit_mxcsr (s : State) : (applyInit s).mxcsr = s.mxcsr := rfl
@[simp] theorem applyInit_rip (s : State) : (applyInit s).rip = State.reset.rip := rfl
@[simp] theorem applyInit_gpr (s : State) : (applyInit s).gpr = State.reset.gpr := rfl
@[simp] theorem applyInit_seg (s : State) : (applyInit s).seg = State.reset.seg := rfl
@[simp] theorem applyInit_cr0 (s : State) : (applyInit s).cr0 = State.reset.cr0 := rfl
@[simp] theorem applyInit_cr2 (s : State) : (applyInit s).cr2 = State.reset.cr2 := rfl
@[simp] theorem applyInit_cr4 (s : State) : (applyInit s).cr4 = State.reset.cr4 := rfl
@[simp] theorem applyInit_xcr0 (s : State) : (applyInit s).xcr0 = State.reset.xcr0 := rfl
@[simp] theorem applyInit_rflags (s : State) : (applyInit s).rflags = State.reset.rflags := rfl
@[simp] theorem applyInit_cpl (s : State) : (applyInit s).cpl = State.reset.cpl := rfl
@[simp] theorem applyInit_features (s : State) : (applyInit s).features = s.features := rfl
@[simp] theorem applyInit_mem (s : State) : (applyInit s).mem = s.mem := rfl
@[simp] theorem applyInit_blocked (s : State) : (applyInit s).blocked = s.blocked := rfl

/-! ## Placing text -/

@[simp] theorem placeText_mode (s : State) (bytes : List Byte) : (placeText s bytes).mode = .bits64 := rfl
@[simp] theorem placeText_zmm (s : State) (bytes : List Byte) : (placeText s bytes).zmm = s.zmm := rfl
@[simp] theorem placeText_k (s : State) (bytes : List Byte) : (placeText s bytes).k = s.k := rfl
@[simp] theorem placeText_mxcsr (s : State) (bytes : List Byte) : (placeText s bytes).mxcsr = s.mxcsr := rfl
@[simp] theorem placeText_rip (s : State) (bytes : List Byte) : (placeText s bytes).rip = s.rip := rfl
@[simp] theorem placeText_gpr (s : State) (bytes : List Byte) : (placeText s bytes).gpr = s.gpr := rfl
@[simp] theorem placeText_seg (s : State) (bytes : List Byte) : (placeText s bytes).seg = s.seg := rfl
@[simp] theorem placeText_cr0 (s : State) (bytes : List Byte) : (placeText s bytes).cr0 = s.cr0 &&& ~~~(1#64 <<< 3) := rfl
@[simp] theorem placeText_cr2 (s : State) (bytes : List Byte) : (placeText s bytes).cr2 = s.cr2 := rfl
@[simp] theorem placeText_cr4 (s : State) (bytes : List Byte) : (placeText s bytes).cr4 = s.cr4 ||| (1#64 <<< 18) := rfl
@[simp] theorem placeText_xcr0 (s : State) (bytes : List Byte) : (placeText s bytes).xcr0 = s.xcr0 ||| 0xE6#64 := rfl
@[simp] theorem placeText_rflags (s : State) (bytes : List Byte) : (placeText s bytes).rflags = s.rflags := rfl
@[simp] theorem placeText_cpl (s : State) (bytes : List Byte) : (placeText s bytes).cpl = s.cpl := rfl
@[simp] theorem placeText_features (s : State) (bytes : List Byte) : (placeText s bytes).features = s.features := rfl
@[simp] theorem placeText_mem (s : State) (bytes : List Byte) : (placeText s bytes).mem = 
    Memory.writeBytes s.mem (fetchAddress (launch s)).toNat bytes := rfl
@[simp] theorem placeText_blocked (s : State) (bytes : List Byte) : (placeText s bytes).blocked = s.blocked := rfl

end Sys2Proof.Machine
end

