-- ==== Sys2Proof/Laws/Vector.lean ====
section
/-! SUPPORT. The elements of a packed vector value and of the destination (40_complex_multiply.md R141 to R146). -/

namespace Sys2Proof.Machine

@[simp] theorem dwordAt_zero (i : Nat) : dwordAt 0#512 i = 0#32 := by
  simp [dwordAt]

/-- Element `i` of a packed list is its entry, or 0 where the list has none. -/
theorem dwordAt_packDwords : ∀ (l : List Dword) (i : Nat), i < 16 → dwordAt (packDwords l) i = l.getD i 0#32
  | [], i, _ => by simp [packDwords]
  | d :: ds, 0, _ => by
    ext j hj
    have h1 : j < 512 := by omega
    simp [dwordAt, packDwords, BitVec.getElem_extractLsb', hj, h1]
  | d :: ds, i + 1, hi => by
    have ih := dwordAt_packDwords ds i (by omega)
    rw [List.getD_cons_succ, ← ih]
    ext j hj
    have h2 : ¬ 32 * (i + 1) + j < 32 := by omega
    have h3 : 32 * (i + 1) + j - 32 = 32 * i + j := by omega
    have h4 : 32 * (i + 1) + j < 512 := by omega
    have h5 : BitVec.getLsbD d (32 * (i + 1) + j) = false := BitVec.getLsbD_of_ge d _ (by omega)
    simp [dwordAt, packDwords, BitVec.getElem_extractLsb', h2, h3, h4, h5, BitVec.getLsbD_eq_getElem (by omega : 32 * i + j < 512)]

/-- The real and imaginary parts of a pair. -/
@[simp] theorem realPart_pairOf (re im : Fp16) : realPart (pairOf re im) = re := by
  exact BitVec.extractLsb'_append_eq_right

@[simp] theorem imagPart_pairOf (re im : Fp16) : imagPart (pairOf re im) = im := by
  exact BitVec.extractLsb'_append_eq_left

theorem elementCount_le (vl : VecLen) : elementCount vl ≤ 16 := by
  cases vl <;> decide

/-- Element `i` of the new destination value. -/
theorem dwordAt_destValue (f : Form) (o : Operands) (src2 : Src2) (s : State) (i : Nat) (hi : i < elementCount f.vl) :
    dwordAt (destValue f o src2 s) i = (destElement f o src2 s i).1 := by
  have := elementCount_le f.vl
  rw [destValue, dwordAt_packDwords _ _ (by omega)]
  simp [destElements, List.getD_eq_getElem?_getD, hi]

/-- Above the vector length the new destination value is 0 (R146). -/
theorem dwordAt_destValue_upper (f : Form) (o : Operands) (src2 : Src2) (s : State) (i : Nat) (h16 : i < 16)
    (hi : elementCount f.vl ≤ i) : dwordAt (destValue f o src2 s) i = 0#32 := by
  rw [destValue, dwordAt_packDwords _ _ h16]
  simp [destElements, List.getD_eq_getElem?_getD, hi]

end Sys2Proof.Machine
end

