-- ==== Sys2Proof/Laws/Exec.lean ====
section
/-! SUPPORT. What an execution and a step can do, said once: one inversion lemma for the shared operation, for exec and for step. -/

namespace Sys2Proof.Machine

/-- Every arm of exec is the shared operation of its form. -/
theorem exec_eq_complexMultiply (i : Instr) (s : State) :
    exec i s = complexMultiply (formOf i) (operandsOf i) (src2Of i) s := by
  cases i <;> rfl

/-- The shared operation answers a next state exactly when no exception and no refusal stands before it. -/
theorem complexMultiply_next_iff {f : Form} {o : Operands} {src2 : Src2} {s t : State} :
    complexMultiply f o src2 s = .next t ↔
      s.mode ≠ .bits32 ∧ undefinedOpcode s f.vl o src2 = false ∧ taskSwitched s = false ∧
        src2Fault s f.vl o src2 (ripNext s o src2) = none ∧ t = complete f o src2 s := by
  unfold complexMultiply raise
  by_cases h1 : s.mode = .bits32
  · simp [h1]
  cases h2 : undefinedOpcode s f.vl o src2
  · cases h3 : taskSwitched s
    · cases h4 : src2Fault s f.vl o src2 (ripNext s o src2) <;> simp [h1, eq_comm]
    · simp [h1]
  · simp [h1]

/-- exec answers a next state exactly when no exception and no refusal stands before it. -/
theorem exec_next_iff {i : Instr} {s t : State} :
    exec i s = .next t ↔
      s.mode ≠ .bits32 ∧ undefinedOpcode s (formOf i).vl (operandsOf i) (src2Of i) = false ∧ taskSwitched s = false ∧
        src2Fault s (formOf i).vl (operandsOf i) (src2Of i) (ripNext s (operandsOf i) (src2Of i)) = none ∧
        t = complete (formOf i) (operandsOf i) (src2Of i) s := by
  rw [exec_eq_complexMultiply, complexMultiply_next_iff]

/-- A step that answers a next state has fetched an instruction and run it. -/
theorem step_next {s t : State} (h : step s = .next t) : ∃ i, fetchInstruction s = .run i ∧ exec i s = .next t := by
  unfold step raise at h
  cases hf : fetchInstruction s with
  | run i => rw [hf] at h; exact ⟨i, rfl, h⟩
  | stop f => rw [hf] at h; cases h
  | refuse r => rw [hf] at h; cases h

/-- A step that answers a next state completes some form. -/
theorem step_next_complete {s t : State} (h : step s = .next t) : ∃ f o src2, t = complete f o src2 s := by
  obtain ⟨i, -, hi⟩ := step_next h
  exact ⟨formOf i, operandsOf i, src2Of i, (exec_next_iff.mp hi).2.2.2.2⟩

/-- The decoder gives what the decoder with prefixes gives, where no permitted prefix stands before it. -/
theorem decode_ok_iff {bytes : List Byte} {r : Instr × List Byte} :
    decode bytes = .ok r ↔ (scanPrefixes bytes).legacy = [] ∧ decodeWithPrefixes bytes = .ok r := by
  unfold decode
  cases h : (scanPrefixes bytes).legacy with
  | nil => simp
  | cons p ps => cases decodeWithPrefixes bytes <;> simp

/-- An instruction is only ever fetched in a launch state, from bytes that decode to it. -/
theorem fetchInstruction_run {s : State} {i : Instr} (h : fetchInstruction s = .run i) :
    isLaunchState s = true ∧ ∃ rest, decode (fetchBytes s) = .ok (i, rest) := by
  unfold fetchInstruction at h
  cases hm : s.mode <;> rw [hm] at h <;> simp only at h
  · cases h
  · cases h
  · cases h
  · unfold fetchIn64BitMode at h
    cases ha : admission s with
    | some r => rw [ha] at h; cases h
    | none =>
      rw [ha] at h
      refine ⟨by simp [isLaunchState, hm, ha], ?_⟩
      simp only [fetchedOfBytes] at h
      cases hd : decode (fetchBytes s) with
      | ok r => rw [hd] at h; cases h; exact ⟨r.2, rfl⟩
      | error e => rw [hd] at h; cases e <;> simp only [fetchedOfError] at h <;> first | cases h | (split at h <;> cases h)

/-- In a launch state the fetched bytes decide. -/
theorem fetchInstruction_launchState {s : State} (h : isLaunchState s = true) :
    fetchInstruction s = fetchedOfBytes (fetchBytes s) := by
  simp only [isLaunchState, Bool.and_eq_true, beq_iff_eq, Option.isNone_iff_eq_none] at h
  simp [fetchInstruction, fetchIn64BitMode, h.1, h.2]

/-! ## Lengths -/

@[simp] theorem disp32Bytes_length (d : BitVec 32) : (disp32Bytes d).length = 4 := rfl

@[simp] theorem Displacement.bytes_length (d : Displacement) : d.bytes.length = d.size := by
  cases d <;> rfl

@[simp] theorem Src2.tail_length (src2 : Src2) : src2.code.tail.length = src2.size := by
  rcases src2 with n | ⟨b, m⟩
  · rfl
  · cases m <;> simp [Src2.code, MemOperand.code, Src2.size, MemOperand.size, Nat.add_comm]

@[simp] theorem encodeForm_length (conj : Bool) (ll : BitVec 2) (bit : BitVec 1) (o : Operands) (src2 : Src2) :
    (encodeForm conj ll bit o src2).length = formLength o src2 := by
  simp [encodeForm, formLength]
  omega

/-- The length the meanings advance by is the length of the encoding. -/
theorem encode_length (i : Instr) : (encode i).length = formLength (operandsOf i) (src2Of i) := by
  cases i <;> simp [encode, operandsOf, src2Of]

end Sys2Proof.Machine
end

