-- ==== Sys2Proof/Laws/Memory.lean ====
section
/-! SUPPORT. The laws of memory: a read after a write, and that every memory operation keeps the canonical form. -/

namespace Sys2Proof.Machine

@[simp] theorem Memory.read_nil (a : Nat) : Memory.read [] a = Memory.unlisted := rfl

theorem Memory.wfFrom_mono {low low' : Nat} (h : low' ≤ low) :
    ∀ {mem : List Host.Cell}, Memory.wfFrom low mem = true → Memory.wfFrom low' mem = true
  | [], _ => rfl
  | (x, b) :: rest, hw => by
    simp only [Memory.wfFrom, Bool.and_eq_true, decide_eq_true_eq] at hw ⊢
    exact ⟨⟨⟨by omega, hw.1.1.2⟩, hw.1.2⟩, hw.2⟩

/-- Below the lowest listed address nothing is listed. -/
theorem Memory.read_below {low a : Nat} :
    ∀ {mem : List Host.Cell}, Memory.wfFrom low mem = true → a < low → Memory.read mem a = Memory.unlisted
  | [], _, _ => rfl
  | (x, b) :: rest, hw, ha => by
    simp only [Memory.wfFrom, Bool.and_eq_true, decide_eq_true_eq] at hw
    have hx : x ≠ a := by omega
    simp only [Memory.read, hx, if_false]
    exact Memory.read_below hw.2 (by omega)

/-- A write keeps the canonical form. -/
theorem Memory.wfFrom_write {low a : Nat} {b : Byte} (h64 : a < 2 ^ 64) (hl : low ≤ a) :
    ∀ {mem : List Host.Cell}, Memory.wfFrom low mem = true → Memory.wfFrom low (Memory.write mem a b) = true := by
  intro mem
  induction mem generalizing low with
  | nil =>
    intro _
    by_cases hb : b = Memory.unlisted <;> simp [Memory.write, Memory.wfFrom, hb, hl, -Nat.reducePow, h64]
  | cons cell rest ih =>
    obtain ⟨x, c⟩ := cell
    intro hw
    simp only [Memory.wfFrom, Bool.and_eq_true, decide_eq_true_eq] at hw
    obtain ⟨⟨⟨hlx, hx64⟩, hc⟩, hrest⟩ := hw
    simp only [Memory.write]
    split
    · next hax =>
      split
      · simp [Memory.wfFrom, hlx, -Nat.reducePow, hx64, hrest, bne_iff_ne.mp hc]
      · next hb =>
        simp [Memory.wfFrom, hl, -Nat.reducePow, h64, hb, hx64, hrest, bne_iff_ne.mp hc]
        omega
    · split
      · next hax =>
        subst hax
        split
        · exact Memory.wfFrom_mono (by omega) hrest
        · next hb => simp [Memory.wfFrom, hl, -Nat.reducePow, h64, hb, hrest]
      · next h1 h2 =>
        simp only [Memory.wfFrom, Bool.and_eq_true, decide_eq_true_eq]
        exact ⟨⟨⟨hlx, hx64⟩, hc⟩, ih (by omega) hrest⟩

theorem Memory.wf_write {mem : List Host.Cell} {a : Nat} {b : Byte} (h64 : a < 2 ^ 64) (hw : Memory.wf mem = true) :
    Memory.wf (Memory.write mem a b) = true :=
  Memory.wfFrom_write h64 (Nat.zero_le a) hw

theorem Memory.wf_writeBytes :
    ∀ {bytes : List Byte} {mem : List Host.Cell} {a : Nat}, a + bytes.length ≤ 2 ^ 64 → Memory.wf mem = true →
      Memory.wf (Memory.writeBytes mem a bytes) = true
  | [], _, _, _, hw => hw
  | b :: bs, mem, a, h, hw => by
    simp only [List.length_cons] at h
    exact Memory.wf_writeBytes (mem := Memory.write mem a b) (a := a + 1) (by omega) (Memory.wf_write (by omega) hw)

theorem Memory.wf_reset : Memory.wf State.reset.mem = true := rfl

/-- A read after a write to the same address gives the byte written. -/
theorem Memory.read_write_same {low a : Nat} {b : Byte} :
    ∀ {mem : List Host.Cell}, Memory.wfFrom low mem = true → Memory.read (Memory.write mem a b) a = b := by
  intro mem
  induction mem generalizing low with
  | nil =>
    intro _
    by_cases hb : b = Memory.unlisted <;> simp [Memory.write, Memory.read, hb]
  | cons cell rest ih =>
    obtain ⟨x, c⟩ := cell
    intro hw
    simp only [Memory.wfFrom, Bool.and_eq_true, decide_eq_true_eq] at hw
    obtain ⟨⟨⟨hlx, hx64⟩, hc⟩, hrest⟩ := hw
    simp only [Memory.write]
    split
    · next hax =>
      split
      · next hb =>
        have hx : x ≠ a := by omega
        simp only [Memory.read, hx, if_false]
        rw [Memory.read_below hrest (by omega), hb]
      · simp [Memory.read]
    · split
      · next hax =>
        subst hax
        split
        · next hb => rw [Memory.read_below hrest (by omega), hb]
        · simp [Memory.read]
      · next h1 h2 =>
        have hx : x ≠ a := fun e => h2 e.symm
        simp only [Memory.read, hx, if_false]
        exact ih hrest

/-- A write leaves every other address alone. -/
theorem Memory.read_write_other {a a' : Nat} {b : Byte} (hne : a' ≠ a) :
    ∀ (mem : List Host.Cell), Memory.read (Memory.write mem a b) a' = Memory.read mem a' := by
  intro mem
  have hne' : ¬ a = a' := fun e => hne e.symm
  induction mem with
  | nil => by_cases hb : b = Memory.unlisted <;> simp [Memory.write, Memory.read, hb, hne']
  | cons cell rest ih =>
    obtain ⟨x, c⟩ := cell
    simp only [Memory.write]
    split
    · split <;> simp [Memory.read, hne']
    · split
      · next hax => subst hax; split <;> simp [Memory.read, hne']
      · simp [Memory.read, ih]

end Sys2Proof.Machine
end

