-- ==== Sys2Proof/Laws/PerInstr.lean ====
section
/-! SUPPORT. The per-instruction family EncodingLength: the length of every instruction's encoding (20_memory.md R61,
30_encoding.md R83, R100). -/

namespace Sys2Proof

open Sys2Proof.Machine

/-- At least 6 bytes; at most 11 without legacy prefixes; at most 15 if encodable. -/
def Laws.EncodingLength.Statement (i : Instr) : Prop :=
  6 ≤ (encode i).length ∧ ((operandsOf i).legacy = [] → (encode i).length ≤ 11) ∧
    (i.encodable = true → (encode i).length ≤ 15)

theorem Src2.size_le (src2 : Src2) : src2.size ≤ 5 := by
  rcases src2 with n | ⟨b, m⟩
  · exact Nat.zero_le _
  · cases m with
    | ripRelative d => simp [Src2.size, MemOperand.size]
    | base r d => cases d <;> simp [Src2.size, MemOperand.size, Displacement.size]
    | sib sc i r d => cases d <;> simp [Src2.size, MemOperand.size, Displacement.size]
    | sibNoBase sc i d => simp [Src2.size, MemOperand.size]

theorem formLength_bounds (o : Operands) (src2 : Src2) :
    6 ≤ formLength o src2 ∧ (o.legacy = [] → formLength o src2 ≤ 11) ∧
      (formEncodable o src2 = true → formLength o src2 ≤ 15) := by
  have := Src2.size_le src2
  refine ⟨by unfold formLength; omega, fun h => by simp [formLength, h]; omega, fun h => ?_⟩
  simp only [formEncodable, Bool.and_eq_true, decide_eq_true_eq] at h
  exact h.2

theorem Laws.EncodingLength.vfcmulcphZmmEr (o : Operands) (n : VReg) (rc : Rounding) :
    Laws.EncodingLength.Statement (.vfcmulcphZmmEr o n rc) := by
  rw [Statement, encode_length]; exact formLength_bounds o (.reg n)

theorem Laws.EncodingLength.vfmulcphZmmEr (o : Operands) (n : VReg) (rc : Rounding) :
    Laws.EncodingLength.Statement (.vfmulcphZmmEr o n rc) := by
  rw [Statement, encode_length]; exact formLength_bounds o (.reg n)

theorem Laws.EncodingLength.vfcmulcphXmm (o : Operands) (src2 : Src2) :
    Laws.EncodingLength.Statement (.vfcmulcphXmm o src2) := by
  rw [Statement, encode_length]; exact formLength_bounds o src2

theorem Laws.EncodingLength.vfcmulcphYmm (o : Operands) (src2 : Src2) :
    Laws.EncodingLength.Statement (.vfcmulcphYmm o src2) := by
  rw [Statement, encode_length]; exact formLength_bounds o src2

theorem Laws.EncodingLength.vfcmulcphZmm (o : Operands) (src2 : Src2) :
    Laws.EncodingLength.Statement (.vfcmulcphZmm o src2) := by
  rw [Statement, encode_length]; exact formLength_bounds o src2

theorem Laws.EncodingLength.vfmulcphXmm (o : Operands) (src2 : Src2) :
    Laws.EncodingLength.Statement (.vfmulcphXmm o src2) := by
  rw [Statement, encode_length]; exact formLength_bounds o src2

theorem Laws.EncodingLength.vfmulcphYmm (o : Operands) (src2 : Src2) :
    Laws.EncodingLength.Statement (.vfmulcphYmm o src2) := by
  rw [Statement, encode_length]; exact formLength_bounds o src2

theorem Laws.EncodingLength.vfmulcphZmm (o : Operands) (src2 : Src2) :
    Laws.EncodingLength.Statement (.vfmulcphZmm o src2) := by
  rw [Statement, encode_length]; exact formLength_bounds o src2

end Sys2Proof
end

