-- ==== Sys2Proof/Tests/Slice0.lean ====
section
/-! SUPPORT. The model's own tests: the well-formedness checks, words written out from the spec's encodings, single steps with the
results of 95_test_vectors.md, and a witness for the hypotheses of each statement. -/

namespace Sys2Proof.Tests

-- Elaborated one after another: each waiting kernel evaluation would hold a thread.
set_option Elab.async false

open Sys2Proof Sys2Proof.Machine

/-! ## Helpers -/

def isNext : Host.Outcome State Fault Refusal → Bool
  | .next _ => true
  | .fault _ => false
  | .refused _ => false

def faultOf : Host.Outcome State Fault Refusal → Option Fault
  | .next _ => none
  | .fault f => some f
  | .refused _ => none

def refusalOf : Host.Outcome State Fault Refusal → Option Refusal
  | .next _ => none
  | .fault _ => none
  | .refused r => some r

/-- A field of the next state. -/
def ofNext {α : Type} (g : State → α) : Host.Outcome State Fault Refusal → Option α
  | .next t => some (g t)
  | .fault _ => none
  | .refused _ => none

theorem exists_next {a : Host.Outcome State Fault Refusal} (h : isNext a = true) : ∃ t, a = .next t := by
  cases a with
  | next t => exact ⟨t, rfl⟩
  | fault f => cases h
  | refused r => cases h

/-- A launched machine at `0x400000` (95_test_vectors.md section 6). -/
def start : State := { launch State.reset with rip := 0x400000#64 }

def ops (dest src1 : VReg) (mask : Opmask) (zeroing : Bool) : Operands :=
  { legacy := [], dest := dest, src1 := src1, mask := mask, zeroing := zeroing }

/-- The first elements of a register. -/
def elements (n : VReg) (count : Nat) (s : State) : List Dword := (List.range count).map (dwordAt (getZmm s n))

def withK1 (s : State) (v : Qword) : State := { s with k := s.k.set 1 v }

def withBytes (s : State) (a : Nat) (bytes : List Byte) : State := { s with mem := Memory.writeBytes s.mem a bytes }

/-- The sources and the old destination of 95_test_vectors.md section 4: registers 1, 2 and 0. -/
def vectors : State :=
  setZmm
    (setZmm (setZmm start 1 (packDwords [0x40003C00#32, 0x3C000000#32, 0x3C003C00#32, 0x00004000#32])) 2
      (packDwords [0x44004200#32, 0x3C000000#32, 0x3C003C00#32, 0x00007BFF#32]))
    0 (packDwords (List.replicate 16 0xBBBBAAAA#32))

/-! ## Well-formedness: an ill-formed term for each check -/

theorem test_wf_sib_base_without_sib : MemOperand.wellFormed (.base 4 .none) = false := by decide
theorem test_wf_r12_base_without_sib : MemOperand.wellFormed (.base 12 (.disp8 0)) = false := by decide
theorem test_wf_rbp_base_without_displacement : MemOperand.wellFormed (.base 13 .none) = false := by decide
theorem test_wf_sib_rbp_without_displacement : MemOperand.wellFormed (.sib 0 4 5 .none) = false := by decide
theorem test_wf_too_long :
    Instr.encodable (.vfmulcphXmm ⟨List.replicate 10 .addressSize, 1, 2, 0, false⟩ (.reg 3)) = false := by decide
theorem test_wf_prefixed :
    Instr.wellFormed (.vfmulcphXmm ⟨[.fs], 1, 2, 0, false⟩ (.reg 3)) = false ∧
    Instr.encodable (.vfmulcphXmm ⟨[.fs], 1, 2, 0, false⟩ (.reg 3)) = true := by decide
theorem test_wf_accepts : Instr.wellFormed (.vfmulcphXmm (ops 1 2 0 false) (.mem false (.base 13 (.disp8 0)))) = true := by
  decide

/-! ## Words written out bit by bit (30_encoding.md R83 to R104; 95_test_vectors.md section 2) -/

/-- X1: 62, R X B R' 0 mmm = 1 1 1 1 0 110, W vvvv 1 pp = 0 1101 1 11, z L'L b V' aaa = 0 00 0 1 000, D6, 11 001 011. -/
theorem test_decode_vfcmulcphXmm :
    decode [0x62, 0b11110110, 0b01101111, 0b00001000, 0xD6, 0b11001011] = .ok (.vfcmulcphXmm (ops 1 2 0 false) (.reg 3), []) := by
  decide

/-- X19: mask 3, base RSP through SIB, one-byte displacement. -/
theorem test_decode_vfcmulcphYmm :
    decode [0x62, 0b11110110, 0b01100111, 0b00101011, 0xD6, 0b01010100, 0b00100100, 0x01] =
      .ok (.vfcmulcphYmm (ops 2 3 3 false) (.mem false (.sib 0 4 4 (.disp8 1))), []) := by
  decide

/-- X24: zeroing, mask 1, broadcast. -/
theorem test_decode_vfcmulcphZmm :
    decode [0x62, 0b11110110, 0b01011111, 0b11011001, 0xD6, 0b00011000] =
      .ok (.vfcmulcphZmm (ops 3 4 1 true) (.mem true (.base 0 .none)), []) := by
  decide

/-- X20: base 13 needs a displacement. -/
theorem test_decode_vfmulcphXmm :
    decode [0x62, 0b11010110, 0b01101110, 0b00001000, 0xD6, 0b01001101, 0x00] =
      .ok (.vfmulcphXmm (ops 1 2 0 false) (.mem false (.base 13 (.disp8 0))), []) := by
  decide

/-- X25. -/
theorem test_decode_vfmulcphYmm :
    decode [0x62, 0b11110110, 0b01001110, 0b00101010, 0xD6, 0b01101011, 0x02] =
      .ok (.vfmulcphYmm (ops 5 6 2 false) (.mem false (.base 3 (.disp8 2))), []) := by
  decide

/-- X13: `X` supplies bit 4 of a register source. -/
theorem test_decode_vfmulcphZmm :
    decode [0x62, 0b10110110, 0b01101110, 0b01001000, 0xD6, 0b11001011] = .ok (.vfmulcphZmm (ops 1 2 0 false) (.reg 19), []) := by
  decide

/-- X8: `L'L = 01b` is the rounding mode here, not the length. -/
theorem test_decode_vfcmulcphZmmEr :
    decode [0x62, 0b11110110, 0b01101111, 0b00111000, 0xD6, 0b11001011] =
      .ok (.vfcmulcphZmmEr (ops 1 2 0 false) 3 .rd, []) := by
  decide

/-- X10. -/
theorem test_decode_vfmulcphZmmEr :
    decode [0x62, 0b11110110, 0b01101110, 0b00011000, 0xD6, 0b11001011] =
      .ok (.vfmulcphZmmEr (ops 1 2 0 false) 3 .rn, []) := by
  decide

/-- X23: no base and no index. -/
theorem test_decode_no_base :
    decode [0x62, 0xF6, 0x6E, 0x48, 0xD6, 0x0C, 0x25, 0x00, 0x10, 0x00, 0x00] =
      .ok (.vfmulcphZmm (ops 1 2 0 false) (.mem false (.sibNoBase 0 4 0x1000)), []) := by
  decide

/-- X36, X38 to X43: invalid and foreign encodings by name. -/
theorem test_decode_errors :
    decode [0x62, 0xF6, 0x6E, 0x68, 0xD6, 0xCB] = .error .reservedLength ∧
    decode [0x62, 0xF6, 0xEE, 0x08, 0xD6, 0xCB] = .error .wideBit ∧
    decode [0x62, 0xFE, 0x6E, 0x08, 0xD6, 0xCB] = .error .reservedBit ∧
    decode [0x62, 0xF6, 0x6A, 0x08, 0xD6, 0xCB] = .error .reservedBit ∧
    decode [0x62, 0xF6, 0x6D, 0x08, 0xD6, 0xCB] = .error .otherPp ∧
    decode [0x62, 0xF6, 0x6C, 0x08, 0xD6, 0xCB] = .error .otherPp ∧
    decode [0xF0, 0x62, 0xF6, 0x6E, 0x08, 0xD6, 0xCB] = .error .faultingPrefix := by
  decide

/-- 10_state.md R31: `W = 1`, and `LOCK`, with the displacement byte missing and there. -/
theorem test_decode_cut_short :
    decode [0x62, 0xF6, 0xEE, 0x08, 0xD6, 0x4B] = .error .truncated ∧ decode [0x62, 0xF6, 0xEE, 0x08, 0xD6, 0x4B, 0x00] = .error .wideBit ∧
    decode [0xF0, 0x62, 0xF6, 0x6E, 0x08, 0xD6, 0x4B] = .error .truncated ∧
    decode [0xF0, 0x62, 0xF6, 0x6E, 0x08, 0xD6, 0x4B, 0x00] = .error .faultingPrefix := by
  decide

/-- X49: an address-size prefix is not admitted; the decoder that reads it gives the instruction (log 16). -/
theorem test_decode_address_size :
    decode [0x67, 0x62, 0xF6, 0x6E, 0x08, 0xD6, 0x0B] = .error .permittedPrefix ∧
    decodeWithPrefixes [0x67, 0x62, 0xF6, 0x6E, 0x08, 0xD6, 0x0B] =
      .ok (.vfmulcphXmm ⟨[.addressSize], 1, 2, 0, false⟩ (.mem false (.base 3 .none)), []) := by
  decide

/-- 70_reset_and_hazards.md R201: the step refuses what is not admitted, and runs with any flags and masks. -/
theorem test_step_admission :
    let s := withBytes vectors 0x400000 [0x62, 0xF6, 0x76, 0x08, 0xD6, 0xC2]
    refusalOf (step { s with mxcsr := 0x00001FC0 }) = some .denormalControlSet ∧
    refusalOf (step { s with mxcsr := 0x00011F80 }) = some .reservedMxcsrBits ∧
    refusalOf (step { s with cr0 := 0x40000, rflags := 0x40000, cpl := 3 }) = some .alignmentChecking ∧
    isNext (step { s with mxcsr := 0x00007FBF }) = true := by
  decide +kernel

/-! ## Arithmetic (95_test_vectors.md section 3) -/

def element (conj : Bool) (rm : Rounding) (aRe aIm bRe bIm : Fp16) : Fp16 × Fp16 × FpFlags :=
  let r := cmulElement conj { rm := rm, daz := false, ftz := false } (pairOf aRe aIm) (pairOf bRe bIm)
  (r.re, r.im, r.flags)

/-- V1, V3u, V19: the plain case, directed rounding, an exact denormal from rounding errors. -/
theorem test_elements_finite :
    element false .rn 0x3C00 0x4000 0x4200 0x4400 = (0xC500, 0x4900, 0) ∧
    element true .rn 0x3C00 0x4000 0x4200 0x4400 = (0x4980, 0x4000, 0) ∧
    element false .ru 0x3E00 0x8C00 0x3956 0x3C00 = (0x3C02, 0x3E00, 0x20) ∧
    element true .rd 0x3E00 0x8C00 0x3956 0x3C00 = (0x3BFF, 0xBE01, 0x20) ∧
    element true .rn 0x3C01 0x3C01 0x3C01 0x3C01 = (0x4002, 0x8010, 0x20) := by
  decide +kernel

/-- V5d, V7, V8, V10, V11, V13: overflow, invalid operations, signs of zeros, underflow, a signalling NaN. -/
theorem test_elements_special :
    element true .rd 0x7BFF 0x0000 0x4000 0x0000 = (0x7BFF, 0x8000, 0x28) ∧
    element false .rn 0x7C00 0x7C00 0x3C00 0x3C00 = (0xFE00, 0x7C00, 0x01) ∧
    element true .rn 0x0000 0x0000 0x7C00 0x0000 = (0xFE00, 0xFE00, 0x01) ∧
    element false .rn 0x8000 0x0000 0x3C00 0x3C00 = (0x8000, 0x0000, 0) ∧
    element false .rd 0x0001 0x0000 0x3800 0x0000 = (0x8000, 0x0000, 0x32) ∧
    element true .rn 0x7D00 0x3C00 0x3C00 0x3C00 = (0x7F00, 0x7F00, 0x01) := by
  decide +kernel

/-! ## Single steps (95_test_vectors.md sections 4 to 6), at most two an instruction -/

/-- P1: one 128-bit multiply from memory text, upper bits cleared, flags accumulated. -/
theorem test_step_vfmulcphXmm :
    ofNext (fun t => (elements 0 5 t, t.mxcsr, t.rip))
      (step (withBytes vectors 0x400000 [0x62, 0xF6, 0x76, 0x08, 0xD6, 0xC2])) =
      some ([0x4900C500, 0x0000BC00, 0x40000000, 0x00007C00, 0], 0x00001FA8, 0x400006) := by
  decide +kernel

/-- M7: broadcast under a merging mask. -/
theorem test_exec_vfmulcphXmm_broadcast :
    ofNext (elements 0 5)
      (exec (.vfmulcphXmm (ops 0 1 1 false) (.mem true (.base 0 .none)))
        (withBytes (withK1 vectors 0x0E) 0 [0x00, 0x42, 0x00, 0x44])) =
      some [0xBBBBAAAA, 0x4200C400, 0x4700BC00, 0x48004600, 0] := by
  decide +kernel

/-- M6. -/
theorem test_exec_vfcmulcphXmm :
    ofNext (fun t => (elements 0 5 t, t.mxcsr)) (exec (.vfcmulcphXmm (ops 0 1 0 false) (.reg 2)) vectors) =
      some ([0x40004980, 0x00003C00, 0x00004000, 0x00007C00, 0], 0x00001FA8) := by
  decide +kernel

/-- M4: every element unselected under zeroing. -/
theorem test_exec_vfcmulcphXmm_none_selected :
    ofNext (fun t => (getZmm t 0, t.mxcsr)) (exec (.vfcmulcphXmm (ops 0 1 1 true) (.reg 2)) vectors) =
      some (0, 0x00001F80) := by
  decide +kernel

/-- P5: a full-width memory source; the lower four elements. -/
theorem test_exec_vfcmulcphYmm :
    ofNext (elements 0 9)
      (exec (.vfcmulcphYmm (ops 0 3 1 false) (.mem false (.base 0 (.disp8 1))))
        (withBytes (withK1 (setZmm vectors 3 (packDwords (List.replicate 16 0x40003C00))) 0x0F) 0x20
          [0x00, 0x42, 0x00, 0x44, 0x00, 0x3C, 0x00, 0x00, 0x00, 0x00, 0x00, 0x3C, 0x00, 0xBC, 0x00, 0x00])) =
      some [0x40004980, 0x40003C00, 0xBC004000, 0xC000BC00, 0xBBBBAAAA, 0xBBBBAAAA, 0xBBBBAAAA, 0xBBBBAAAA, 0] := by
  decide +kernel

/-- X31: the destination is the second source. -/
theorem test_exec_vfmulcphYmm_overlap : faultOf (exec (.vfmulcphYmm (ops 1 2 0 false) (.reg 1)) vectors) = some .ud := by
  decide +kernel

/-- V12d in every element: the rounding mode comes from `MXCSR.RC`, here toward negative infinity. -/
theorem test_exec_vfmulcphYmm :
    ofNext (elements 3 9)
      (exec (.vfmulcphYmm (ops 3 4 0 false) (.reg 5))
        { setZmm (setZmm vectors 4 (packDwords (List.replicate 16 0x3C003C00))) 5 (packDwords (List.replicate 16 0x3C003C00)) with
          mxcsr := 0x3F80 }) =
      some [0x40008000, 0x40008000, 0x40008000, 0x40008000, 0x40008000, 0x40008000, 0x40008000, 0x40008000, 0] := by
  decide +kernel

/-- M6 at 512 bits: the elements above the fourth are zero products. -/
theorem test_exec_vfcmulcphZmm :
    ofNext (elements 0 16) (exec (.vfcmulcphZmm (ops 0 1 0 false) (.reg 2)) vectors) =
      some [0x40004980, 0x00003C00, 0x00004000, 0x00007C00, 0, 0, 0, 0, 0, 0, 0, 0, 0, 0, 0, 0] := by
  decide +kernel

/-- M8's mask at 512 bits: bit 4 selects a zero product here, and the rest is kept. -/
theorem test_exec_vfmulcphZmm :
    ofNext (elements 0 6) (exec (.vfmulcphZmm (ops 0 1 1 false) (.reg 2)) (withK1 vectors 0x18)) =
      some [0xBBBBAAAA, 0xBBBBAAAA, 0xBBBBAAAA, 0x00007C00, 0, 0xBBBBAAAA] := by
  decide +kernel

/-- V5z and V5: toward zero the overflow saturates, whatever `MXCSR.RC` says. -/
theorem test_exec_er_forms :
    ofNext (elements 0 4) (exec (.vfcmulcphZmmEr (ops 0 1 0 false) 2 .rz) vectors) =
      some [0x40004980, 0x00003C00, 0x00004000, 0x00007BFF] ∧
    ofNext (elements 0 4) (exec (.vfmulcphZmmEr (ops 0 1 0 false) 2 .rz) vectors) =
      some [0x4900C500, 0x0000BC00, 0x40000000, 0x00007BFF] := by
  decide +kernel

/-- X47, X44, X45, X46: `#NM`, and the features the forms need. -/
theorem test_exec_conditions :
    faultOf (exec (.vfmulcphZmm (ops 1 2 0 false) (.reg 3)) { vectors with cr0 := 8 }) = some .nm ∧
    faultOf (exec (.vfmulcphXmm (ops 1 2 0 false) (.reg 3)) { vectors with features := ⟨true, false⟩ }) = some .ud ∧
    isNext (exec (.vfmulcphZmmEr (ops 1 2 0 false) 3 .rn) { vectors with features := ⟨true, false⟩ }) = true ∧
    faultOf (exec (.vfmulcphZmm (ops 1 2 0 false) (.reg 3)) { vectors with features := ⟨false, true⟩ }) = some .ud := by
  decide +kernel

/-! ## Memory faults and the opaque parameters they pass through -/

/-- Where the whole operand and its selected bytes give the same fault, the opaque parameter of log 14 does not matter. -/
theorem operandFault_of_both {s : State} {seg : Segment} {mask : Opmask} {vl : VecLen} {bc : Bool} {lin : Qword} {f : Fault}
    (whole : memoryFault s seg (operandAddresses vl bc lin) = some f)
    (part : memoryFault s seg (selectedAddresses s mask vl bc lin) = some f) :
    operandFault s seg mask vl bc lin = some f := by
  unfold operandFault
  simp [whole, part]

/-- A machine whose addresses from `0x3000` on are not present. -/
def halfMapped (base : Qword) : State :=
  { withK1 vectors 0x1F with gpr := (Vector.replicate 16 0).set 7 base, blocked := [⟨0x3000, 0xFFFF, .notPresent⟩] }

/-- F3: an unreadable byte of a selected element. -/
theorem test_page_fault :
    operandFault (halfMapped 0x2FF0) .ds 1 .v256 false 0x2FF0 = some (.pf ⟨false, false, false, false⟩ 0x3000) := by
  apply operandFault_of_both <;> decide +kernel

/-- F6: a non-canonical address, through DS and through SS. -/
theorem test_non_canonical :
    operandFault (halfMapped 0) .ds 1 .v256 false 0x0000800000000000 = some .gp ∧
    operandFault (halfMapped 0) .ss 1 .v256 false 0x0000800000000000 = some .ss := by
  constructor <;> apply operandFault_of_both <;> decide +kernel

theorem of_all {α : Type} {l : List α} {p : α → Bool} (h : l.all p = true) : ∀ x ∈ l, p x = true := List.all_eq_true.mp h

/-! ## Witnesses: for each statement with hypotheses, states and operands that meet them together -/

/-- `P1` in memory. -/
def placed : State := withBytes vectors 0x400000 [0x62, 0xF6, 0x76, 0x08, 0xD6, 0xC2]

def plainXmm : Instr := .vfmulcphXmm (ops 0 1 0 false) (.reg 2)

/-- An element source in memory at RDI. -/
def memoryYmm (zeroing : Bool) : Instr := .vfcmulcphYmm (ops 0 1 1 zeroing) (.mem false (.base 7 .none))

theorem witness_EveryStepKeepsTheInvariant : inv placed = true ∧ ∃ t, step placed = .next t :=
  ⟨by decide +kernel, exists_next (by decide +kernel)⟩

theorem witness_StepRunsTheDecodedInstruction :
    isLaunchState placed = true ∧ ∃ rest, decode (fetchBytes placed) = .ok (plainXmm, rest) :=
  ⟨by decide, List.replicate 9 0, by decide +kernel⟩

/-- The last six bytes of the address space. -/
theorem witness_StepRunsTheEncodedInstruction :
    let s := withBytes { start with rip := 0xFFFFFFFFFFFFFFFA } 0xFFFFFFFFFFFFFFFA (encode plainXmm)
    isLaunchState s = true ∧ plainXmm.wellFormed = true ∧ s.rip.toNat + (encode plainXmm).length = 2 ^ 64 ∧
    (∀ k < (encode plainXmm).length, canonical (s.rip + BitVec.ofNat 64 k) = true ∧
      readable s (s.rip + BitVec.ofNat 64 k).toNat = true ∧
      (encode plainXmm)[k]? = some (readByte s (s.rip + BitVec.ofNat 64 k))) := by
  decide +kernel

/-- Five bytes, and none, before the canonical range ends. -/
theorem witness_InstructionCutShortIsRefused :
    let s := withBytes { start with rip := 0x00007FFFFFFFFFFB } 0x00007FFFFFFFFFFB (encode plainXmm)
    plainXmm.wellFormed = true ∧ 5 < (encode plainXmm).length ∧ isLaunchState s = true ∧ fetchBytes s = (encode plainXmm).take 5 ∧
    isLaunchState { start with rip := 0x0000800000000000 } = true ∧
    fetchBytes { start with rip := 0x0000800000000000 } = (encode plainXmm).take 0 := by
  decide +kernel

/-- Sixteen bytes, of which fifteen are fetched. -/
theorem witness_LongInstructionIsGeneralProtection :
    let i := Instr.vfmulcphXmm ⟨List.replicate 10 .addressSize, 1, 2, 0, false⟩ (.reg 3)
    isLaunchState start = true ∧ (src2Of i).wellFormed = true ∧ (encode i).length = 16 ∧
    fetchBytes (withBytes start 0x400000 (encode i)) = (encode i).take 15 := by
  decide +kernel

theorem witness_LaunchedMachineRunsThePlacedInstruction :
    plainXmm.wellFormed = true ∧ admission State.reset = none ∧ admission placed = none ∧ Memory.wf State.reset.mem = true ∧ State.reset.blocked = [] ∧
    State.reset.rip.toNat + 15 ≤ 2 ^ 47 ∧ ({ placed with rip := 0x00007FFFFFFFFFF1 } : State).rip.toNat + 15 = 2 ^ 47 ∧
    Memory.wf placed.mem = true ∧ placed.blocked = [] := by
  decide +kernel

theorem witness_OtherModesStop :
    ({ start with mode := .bits32 } : State).mode = .bits32 ∧ State.reset.mode = .realAddress ∧
    ({ start with mode := .virtual8086 } : State).mode = .virtual8086 := by
  decide

/-- The longest instruction with given prefixes: SIB and four displacement bytes. -/
def longest (legacy : List LegacyPrefix) : Instr :=
  .vfcmulcphZmm ⟨legacy, 31, 0, 7, true⟩ (.mem true (.sib 3 15 13 (.disp32 0x80000000)))

theorem witness_DecodeOfEncodeIsTheInstruction : (longest []).wellFormed = true ∧ (encode (longest [])).length = 11 := by
  decide +kernel

/-- 15 bytes with four prefixes; the fetched bytes are exactly those. -/
theorem witness_PermittedPrefixesAreRefused :
    let i := longest [.addressSize, .fs, .cs, .ds]
    i.encodable = true ∧ (operandsOf i).legacy ≠ [] ∧ (encode i).length = 15 ∧ isLaunchState start = true ∧
    fetchBytes (withBytes start 0x400000 (encode i)) = encode i ++ [] := by
  decide +kernel

theorem witness_ExtendedDecoderReadsThePrefixes :
    (longest []).encodable = true ∧ (longest [.addressSize, .fs, .cs, .ds]).encodable = true := by decide +kernel

/-- Each refusal and two that stand in each other's way: `DAZ`, `FTZ`, a reserved bit, alignment checking. -/
theorem witness_StatesNotAdmittedAreRefused :
    start.mode = .bits64 ∧ (0x00001FC0#32).getLsbD 6 = true ∧ (0x00009F80#32).getLsbD 15 = true ∧
    (0x00011F80#32).getLsbD 6 = false ∧ (0x00011F80#32).getLsbD 15 = false ∧ (0x00011F80#32).extractLsb' 16 16 ≠ 0#16 ∧
    start.mxcsr.getLsbD 6 = false ∧ start.mxcsr.getLsbD 15 = false ∧ start.mxcsr.extractLsb' 16 16 = 0#16 ∧
    (0x00040000#64).getLsbD 18 = true := by
  decide +kernel

/-- Every row, and none. -/
theorem witness_DecoderFollowsTheOpcodeTable :
    5 ≤ (List.replicate 5 (0 : Byte)).length ∧
    rowOfBytes [0x62, 0xF6, 0x6F, 0x18, 0xD6, 0xCB] = some 0 ∧ rowOfBytes [0x62, 0xF6, 0x6E, 0x78, 0xD6, 0xCB] = some 1 ∧
    rowOfBytes [0x62, 0xF6, 0x6F, 0x08, 0xD6, 0xCB] = some 2 ∧ rowOfBytes [0x62, 0xF6, 0x6F, 0x38, 0xD6, 0x0B] = some 3 ∧
    rowOfBytes [0x62, 0xF6, 0x6F, 0x48, 0xD6, 0xCB] = some 4 ∧ rowOfBytes [0x62, 0xF6, 0x6E, 0x18, 0xD6, 0x0B] = some 5 ∧
    rowOfBytes [0x62, 0xF6, 0x6E, 0x28, 0xD6, 0xCB] = some 6 ∧ rowOfBytes [0x62, 0xF6, 0x6E, 0x48, 0xD6, 0xCB] = some 7 ∧
    rowOfBytes [0x62, 0xF6, 0x6E, 0x68, 0xD6, 0xCB] = none ∧ rowOfBytes [0x62, 0xF6, 0x6C, 0x08, 0xD6, 0xCB] = none := by
  decide

/-- Each invalid field by itself: `W`, `P0[3]`, `P1[2]` and `L'L`, the last with a memory source under `b = 1` too. -/
theorem witness_InvalidFieldsAreUndefinedOpcodes :
    isLaunchState start = true ∧
    (∀ bytes ∈ ([[0x62, 0xF6, 0xEE, 0x08, 0xD6, 0xCB], [0x62, 0xFE, 0x6E, 0x08, 0xD6, 0xCB], [0x62, 0xF6, 0x6A, 0x08, 0xD6, 0xCB],
      [0x62, 0xF6, 0x6E, 0x68, 0xD6, 0xCB], [0x62, 0xF6, 0x6F, 0x78, 0xD6, 0x0B]] : List (List Byte)),
      fetchBytes (withBytes start 0x400000 bytes) = bytes ++ List.replicate 9 0) ∧
    (0xF6#8).extractLsb' 0 3 = 0b110#3 ∧ (0xFE#8).extractLsb' 0 3 = 0b110#3 ∧
    (0xEE#8).extractLsb' 1 1 = 1#1 ∧ (0x6E#8).extractLsb' 1 1 = 1#1 ∧ (0x6A#8).extractLsb' 1 1 = 1#1 ∧
    (0x6F#8).extractLsb' 1 1 = 1#1 ∧
    (0xEE#8).extractLsb' 7 1 = 1#1 ∧ (0xFE#8).extractLsb' 3 1 = 1#1 ∧ (0x6A#8).extractLsb' 2 1 = 0#1 ∧
    (0x68#8).extractLsb' 5 2 = 0b11#2 ∧ (0x68#8).extractLsb' 4 1 ≠ 1#1 ∧
    (0x78#8).extractLsb' 5 2 = 0b11#2 ∧ (0x0B#8).extractLsb' 6 2 ≠ 0b11#2 := by
  decide +kernel

/-- All bytes there; a displacement byte missing at the end of the canonical range; SIB and four displacement bytes. -/
theorem witness_InvalidFields_cut_short :
    bytesAfterModRM 0xCB [] = 0 ∧ bytesAfterModRM 0x4B [] = 1 ∧ bytesAfterModRM 0x0D [] = 4 ∧ bytesAfterModRM 0x0C [0x25] = 5 ∧
    bytesAfterModRM 0x0C [0x24] = 1 ∧ bytesAfterModRM 0x8C [0x24] = 5 ∧
    (let s := withBytes { start with rip := 0x00007FFFFFFFFFFA } 0x00007FFFFFFFFFFA [0x62, 0xF6, 0xEE, 0x08, 0xD6, 0x4B]
     isLaunchState s = true ∧ fetchBytes s = [0x62, 0xF6, 0xEE, 0x08, 0xD6, 0x4B] ∧ refusalOf (step s) = some .textUnavailable) := by
  decide +kernel

/-- `LOCK` before an instruction cut short, and before one that passes byte 15. -/
theorem witness_FaultingPrefixes_cut_short :
    (let s := withBytes { start with rip := 0x00007FFFFFFFFFFC } 0x00007FFFFFFFFFFC [0xF0, 0x62, 0xF6, 0x76]
     isLaunchState s = true ∧ 3 < (encode plainXmm).length ∧ fetchBytes s = [0xF0] ++ (encode plainXmm).take 3) ∧
    (let ps : List Byte := 0xF0 :: List.replicate 9 0x67
     fetchBytes (withBytes start 0x400000 (ps ++ encode plainXmm)) = ps ++ (encode plainXmm).take 5 ∧
     (fetchBytes (withBytes start 0x400000 (ps ++ encode plainXmm))).length = 15) := by
  decide +kernel

/-- Each faulting byte alone, and behind and before a permitted prefix. -/
theorem witness_FaultingPrefixesAreUndefinedOpcodes :
    isLaunchState start = true ∧ plainXmm.encodable = true ∧
    ∀ ps ∈ ([[0xF0], [0x66], [0xF2], [0xF3], [0x40], [0x4F], [0x67, 0xF0], [0xF0, 0x67]] : List (List Byte)),
      (∀ b ∈ ps, (b = 0xF0#8 ∨ b = 0x66#8 ∨ b = 0xF2#8 ∨ b = 0xF3#8 ∨ (0x40#8 ≤ b ∧ b ≤ 0x4F#8)) ∨
        b ∈ [0x2E#8, 0x36#8, 0x3E#8, 0x26#8, 0x64#8, 0x65#8, 0x67#8]) ∧
      (∃ b ∈ ps, (b = 0xF0#8 ∨ b = 0x66#8 ∨ b = 0xF2#8 ∨ b = 0xF3#8 ∨ (0x40#8 ≤ b ∧ b ≤ 0x4F#8))) ∧
      fetchBytes (withBytes start 0x400000 (ps ++ encode plainXmm)) =
        ps ++ (encode plainXmm ++ List.replicate (9 - ps.length) 0) := by
  decide +kernel

/-- A foreign first byte, map, opcode, and both foreign `pp` (X41, X42). -/
theorem witness_OtherEncodingsAreRefused :
    isLaunchState start = true ∧
    (0x0F#8) ∉ [0x62#8, 0xF0#8, 0x66#8, 0xF2#8, 0xF3#8, 0x2E#8, 0x36#8, 0x3E#8, 0x26#8, 0x64#8, 0x65#8, 0x67#8] ∧
    ¬(0x40#8 ≤ 0x0F#8 ∧ 0x0F#8 ≤ 0x4F#8) ∧
    (∀ bytes ∈ ([[0x0F], [0x62, 0xF5, 0x6E, 0x08, 0xD6, 0xCB], [0x62, 0xF6, 0x6E, 0x08, 0xD7, 0xCB], [0x62, 0xF6, 0x6D, 0x08, 0xD6, 0xCB],
      [0x62, 0xF6, 0x6C, 0x08, 0xD6, 0xCB]] : List (List Byte)),
      fetchBytes (withBytes start 0x400000 bytes) = bytes ++ List.replicate (15 - bytes.length) 0) ∧
    (0xF5#8).extractLsb' 0 3 ≠ 0b110#3 ∧ (0xF6#8).extractLsb' 0 3 = 0b110#3 ∧ (0x6D#8).extractLsb' 0 2 = 0b01#2 ∧
    (0x6C#8).extractLsb' 0 2 = 0b00#2 := by
  decide +kernel

/-- Ready with a register source, with an unaligned memory source, and with an unselecting mask under zeroing. -/
theorem witness_FormsComplete :
    (∀ vl ∈ [VecLen.v128, .v256, .v512], ready start vl (ops 31 30 0 false) (.reg 30) = true ∧
      ready start vl (ops 0 1 7 true) (.mem true (.ripRelative 1)) = true ∧
      ready start vl (ops 0 1 1 false) (.mem false (.sib 2 15 12 (.disp8 0x7F))) = true) ∧
    ready { start with features := ⟨true, false⟩ } .v512 (ops 2 1 0 false) (.reg 1) = true := by
  decide +kernel

theorem witness_EmbeddedRoundingFormsComplete : ready start .v512 (ops 31 0 7 true) (.reg 16) = true := by decide +kernel

/-- A next state of every constructor, for the statements whose hypothesis is one: the frame, the flags, `ZE`, the unselected
elements and the three loops. -/
theorem witness_exec_next :
    ∀ i ∈ [Instr.vfcmulcphZmmEr (ops 0 1 1 true) 2 .ru, .vfmulcphZmmEr (ops 0 1 1 false) 2 .rd,
      .vfcmulcphXmm (ops 0 1 1 false) (.reg 2), .vfcmulcphYmm (ops 0 1 1 true) (.reg 2), .vfcmulcphZmm (ops 0 1 0 false) (.reg 2),
      .vfmulcphXmm (ops 0 1 1 true) (.mem true (.base 0 .none)), .vfmulcphYmm (ops 0 1 0 false) (.mem false (.base 3 (.disp8 1))),
      .vfmulcphZmm (ops 0 1 1 false) (.reg 1)],
      ∃ t, exec i (withK1 vectors 0xFFF6) = .next t := by
  intro i hi
  refine exists_next ?_
  revert i
  decide +kernel

/-- Unselected elements of the state above, under zeroing and under merging; the first bit above each length. -/
theorem witness_unselected :
    (operandsOf (memoryYmm true)).zeroing = true ∧ (operandsOf (memoryYmm false)).zeroing = false ∧
    (operandsOf (memoryYmm true)).mask ≠ 0#3 ∧ (getK (withK1 vectors 0xFFF6) 1).getLsbD 0 = false ∧
    (getK (withK1 vectors 0xFFF6) 1).getLsbD 3 = false ∧
    32 * elementCount .v128 ≤ 128 ∧ 32 * elementCount .v256 ≤ 256 ∧ 32 * elementCount .v512 ≤ 512 := by
  decide +kernel

theorem witness_AllElementsUnselected :
    let i := Instr.vfcmulcphYmm (ops 0 1 1 false) (.reg 2)
    let s := withK1 vectors 0xFFFFFFFFFFFFFF00
    (operandsOf i).mask ≠ 0#3 ∧ (∀ e < elementCount (formOf i).vl, (getK s (operandsOf i).mask).getLsbD e = false) ∧
    ready s (formOf i).vl (operandsOf i) (src2Of i) = true ∧ s.mode = .bits64 ∧
    legalOperands (ops 0 1 1 true) (.reg 0) = false := by
  decide +kernel

/-- A first source, a register second source, and neither: a memory source, and one register as both sources. -/
theorem witness_OverlapRaisesUndefinedOpcode :
    start.mode = .bits64 ∧ (operandsOf (.vfmulcphXmm (ops 5 5 0 false) (.reg 1))).dest = 5 ∧
    src2Of (.vfmulcphZmmEr (ops 5 1 1 true) 5 .rn) = .reg 5 ∧ enabled start .v512 = true ∧
    accessible start .v512 (ops 0 1 1 true) (.mem false (.base 0 .none)) = true ∧
    accessible start .v512 (ops 0 1 0 false) (.reg 1) = true := by
  decide +kernel

theorem witness_FlagsAreThoseOfTheFourOperations : (formOf plainXmm).er = none ∧ ∃ t, exec plainXmm vectors = .next t :=
  ⟨rfl, exists_next (by decide +kernel)⟩

/-- Each condition of `#UD` by itself stops the form, and without any it runs. -/
theorem witness_UndefinedOpcodeExactly :
    (∀ s ∈ [State.reset, { start with mode := .virtual8086 }, { start with features := ⟨false, true⟩ },
      { start with features := ⟨true, false⟩ }, { start with cr4 := 0 }, { start with xcr0 := 0x67 },
      { start with xcr0 := 0xE5 }],
      s.mode ≠ .bits32 ∧ faultOf (exec plainXmm s) = some .ud) ∧
    faultOf (exec (.vfmulcphXmm (ops 0 1 0 true) (.reg 2)) start) = some .ud ∧
    faultOf (exec (.vfmulcphXmm (ops 1 1 0 false) (.reg 2)) start) = some .ud ∧
    faultOf (exec (.vfmulcphXmm (ops 2 1 0 false) (.reg 2)) start) = some .ud ∧ isNext (exec plainXmm start) = true := by
  decide +kernel

/-- With no other condition, and with each kind of `#UD` condition beside it. -/
theorem witness_TaskSwitchedRaisesDeviceNotAvailable :
    let ts (s : State) : State := { s with cr0 := 0x80000019 }
    (ts start).mode ≠ .bits32 ∧ (ts start).cr0.getLsbD 3 = true ∧ ¬undefinedConditions plainXmm (ts start) ∧
    (∀ s ∈ [State.reset, { start with features := ⟨false, true⟩ }, { start with cr4 := 0 }, { start with xcr0 := 1 }],
      undefinedConditions plainXmm (ts s)) ∧
    undefinedConditions (.vfmulcphXmm (ops 0 0 0 false) (.reg 2)) (ts start) := by
  simp only [undefinedConditions]
  decide +kernel

/-- The hypotheses, and each clause: a non-canonical byte, an unreadable byte, neither (32 bytes that end where the region begins). -/
theorem witness_MemoryFaultsComeFromTheCheckedBytes :
    src2Of (memoryYmm true) = .mem false (.base 7 .none) ∧ enabled (halfMapped 0) .v256 = true ∧
    legalOperands (operandsOf (memoryYmm true)) (.mem false (.base 7 .none)) = true ∧ alignmentCheck (halfMapped 0) = false ∧
    (∃ a ∈ checkedAddresses (halfMapped 0) 1 .v256 false 0x00007FFFFFFFFFF0, canonical a = false) ∧
    ((∀ a ∈ checkedAddresses (halfMapped 0) 1 .v256 false 0x2FF0, canonical a = true) ∧
      ∃ a ∈ checkedAddresses (halfMapped 0) 1 .v256 false 0x2FF0, readable (halfMapped 0) a.toNat = false) ∧
    ∀ a ∈ checkedAddresses (halfMapped 0) 1 .v256 false 0x2FE0, (canonical a && readable (halfMapped 0) a.toNat) = true := by
  refine ⟨rfl, by decide, by decide, by decide, ⟨0x0000800000000000, ?_, by decide⟩,
    ⟨of_all ?_, ⟨0x3000, ?_, by decide +kernel⟩⟩, of_all ?_⟩ <;>
  unfold checkedAddresses <;> split <;> decide +kernel

/-- The stack segment by base RSP or RBP, and not: another base, no base, an FS override. The protections at a faulting address. -/
theorem witness_MemoryFaults_segment_and_protection :
    usesStackSegment [.cs] (.base 5 (.disp8 0)) ∧ usesStackSegment [] (.sib 0 1 4 .none) ∧ ¬usesStackSegment [] (.base 13 (.disp8 0)) ∧
    ¬usesStackSegment [] (.sibNoBase 0 4 0) ∧ ¬usesStackSegment [.fs] (.base 5 (.disp8 0)) ∧
    (∀ r ∈ (halfMapped 0).blocked, r.first ≤ 0x3000 → 0x3000 ≤ r.last → r.protection = .notPresent) ∧
    (∀ r ∈ [(⟨0x3000, 0x3000, .noRead⟩ : Region)], r.first ≤ 0x3000 → 0x3000 ≤ r.last → r.protection ≠ .notPresent) := by
  simp [usesStackSegment, halfMapped]

/-- A machine that checks alignment. -/
def checking : State := { vectors with cr0 := 0x40000, rflags := 0x40000, cpl := 3 }

/-- Alignment checking off, a register source, an aligned operand; and a misaligned operand under alignment checking. -/
theorem witness_AlignmentFaultsOnlyUnderAlignmentCheck :
    alignmentCheck vectors = false ∧ src2Of plainXmm = .reg 2 ∧
    (let o := ops 0 1 0 false
     let aligned : Src2 := .mem false (.base 0 (.disp8 1))
     let misaligned : Src2 := .mem true (.base 0 (.disp32 2))
     operandBytes .v256 false ∣ (src2Address checking .v256 o aligned (ripNext checking o aligned)).toNat ∧
     enabled checking .v256 = true ∧ legalOperands o misaligned = true ∧ o.mask = 0#3 ∧ alignmentCheck checking = true ∧
     src2Address checking .v256 o misaligned (ripNext checking o misaligned) = 2 ∧
     ¬ operandBytes .v256 true ∣ (src2Address checking .v256 o misaligned (ripNext checking o misaligned)).toNat) ∧
    ∀ a ∈ operandAddresses .v256 true 2, (canonical a && readable checking a.toNat) = true :=
  ⟨by decide, rfl, by decide +kernel, of_all (by decide +kernel)⟩

/-- Each addressing form completes, with a selected element; the four bytes of an element always make a dword. -/
theorem witness_MemoryElementsComeFromTheEffectiveAddress :
    (∀ m ∈ [MemOperand.ripRelative 0x100, .base 7 (.disp8 0x80), .sib 1 3 5 (.disp32 4), .sibNoBase 2 4 0x40],
      ∀ bc ∈ [false, true], ∃ t, exec (.vfmulcphYmm (ops 0 1 1 true) (.mem bc m)) (withK1 vectors 0x80) = .next t) ∧
    (∃ t, exec (.vfmulcphYmm ⟨[.gs, .addressSize], 0, 1, 1, true⟩ (.mem false (.base 7 .none))) (withK1 vectors 0x80) = .next t) ∧
    selected (withK1 vectors 0x80) 1 7 = true ∧
    ∀ k < 4, (0x44332211#32).extractLsb' (8 * k) 8 =
      readByte (withBytes vectors 0x1C [0x11, 0x22, 0x33, 0x44]) (0x1C#64 + BitVec.ofNat 64 k) := by
  refine ⟨fun m hm bc hb => exists_next ?_, exists_next (by decide +kernel), by decide +kernel, by decide +kernel⟩
  revert m bc
  decide +kernel

theorem witness_AddressPrefixesChangeTheAddress : start.mode = .bits64 := rfl

/-- Another opmask file: other upper bits of the selected register, and other registers. -/
theorem witness_OnlyTheLowMaskBitsAreRead :
    (operandsOf (memoryYmm true)).mask ≠ 0#3 ∧
    ∀ e < elementCount .v256, (getK { withK1 vectors 0x1F with k := Vector.replicate 8 0xFFFFFFFFFFFFFF1F } 1).getLsbD e =
      (getK (withK1 vectors 0x1F) 1).getLsbD e := by
  decide +kernel

theorem witness_ExceptionMasksHaveNoInfluence : 0x00000000#32 &&& ~~~0x1F80#32 = start.mxcsr &&& ~~~0x1F80#32 := by decide

/-- Two states that differ in an unread register, the upper half of a source, the flags and more. -/
theorem witness_AnswersDependOnTheReadSetOnly :
    let s := withK1 vectors 0x0F
    let s' := { setZmm (setZmm s 9 1) 2 (getZmm s 2 ||| (1#512 <<< 300)) with mxcsr := 0x00001FBF, cr2 := 1, gpr := Vector.replicate 16 7 }
    s ≠ s' ∧ sameReads (.vfmulcphXmm (ops 0 1 1 false) (.reg 2)) s s' := by
  refine ⟨by decide +kernel, ?_⟩
  simp only [sameReads, formOf, operandsOf, src2Of]
  decide +kernel

/-- The same with a memory source: two states with other bytes outside the selected elements. -/
theorem witness_AnswersDependOnTheReadSetOnly_memory :
    let s := withBytes (withK1 vectors 0x01) 0 [1, 2, 3, 4, 5]
    let s' := withBytes (withK1 vectors 0x01) 0 [1, 2, 3, 4, 6]
    s ≠ s' ∧ sameReads (memoryYmm true) s s' := by
  refine ⟨by decide +kernel, ?_⟩
  simp only [sameReads, memoryYmm, formOf, operandsOf, src2Of]
  refine ⟨by decide, by decide, by decide, by decide, by decide +kernel, by decide +kernel, by decide, by decide, by decide,
    by decide, by decide +kernel, by decide, by decide, by decide, ?_⟩
  have same := of_all (l := selectedAddresses (withBytes (withK1 vectors 0x01) 0 [1, 2, 3, 4, 5]) 1 .v256 false 0)
    (p := fun a => readByte (withBytes (withK1 vectors 0x01) 0 [1, 2, 3, 4, 5]) a ==
      readByte (withBytes (withK1 vectors 0x01) 0 [1, 2, 3, 4, 6]) a) (by decide +kernel)
  exact fun a ha => eq_of_beq (same a ha)

theorem witness_ConsecutiveExecutionsAccumulateFlags :
    (formOf plainXmm).er = none ∧ (formOf (memoryYmm true)).er = none ∧
    ∃ t u, exec plainXmm vectors = .next t ∧ exec (memoryYmm true) t = .next u := by
  refine ⟨rfl, rfl, ?_⟩
  obtain ⟨t, ht⟩ := exists_next (show isNext (exec plainXmm vectors) = true by decide +kernel)
  obtain ⟨u, hu⟩ := exists_next (show isNext (exec (memoryYmm true) (complete (formOf plainXmm) (operandsOf plainXmm)
    (src2Of plainXmm) vectors)) = true by decide +kernel)
  exact ⟨t, u, ht, by rw [(exec_next_iff.mp ht).2.2.2.2]; exact hu⟩

/-- The smallest magnitude; a tie; the two sides of the overflow threshold. -/
theorem witness_RoundingIsCorrectInEveryMode :
    (∀ mag ∈ [1, 2 ^ 23, 65520 * 2 ^ 48 - 1, 65520 * 2 ^ 48], 0 < mag) ∧
    roundExact false (2 ^ 23) .rn = (0x0000, 0x30) ∧ roundExact false (65520 * 2 ^ 48 - 1) .rn = (0x7BFF, 0x20) ∧
    roundExact true (65520 * 2 ^ 48) .rn = (0xFC00, 0x28) := by
  decide +kernel

/-- 1 times 2 is 2; 1 times 2 plus 1 is 3; minus 1 times 2 plus 1 is minus 1. -/
theorem witness_ExactResultsRaiseNoFlag :
    (∀ x ∈ ([0x3C00, 0x4000, 0x3C00] : List Fp16), (isFinite x && !isDenormal x) = true) ∧
    isFinite 0x4000 = true ∧ isFinite 0x4200 = true ∧ isFinite 0xBC00 = true ∧
    value24 0x3C00 * value24 0x4000 = value24 0x4000 * 2 ^ 24 ∧
    value24 0x3C00 * value24 0x4000 + value24 0x3C00 * 2 ^ 24 = value24 0x4200 * 2 ^ 24 ∧
    -(value24 0x3C00 * value24 0x4000) + value24 0x3C00 * 2 ^ 24 = value24 0xBC00 * 2 ^ 24 :=
  ⟨of_all (by decide), by decide +kernel⟩

/-- Inexact, overflowing and denormal results of finite operands, of either sign. -/
theorem witness_FiniteOperationsAreCorrectlyRounded :
    (∀ x ∈ ([0x3C01, 0x3C01, 0x7BFF, 0x0001, 0xBC01] : List Fp16), isFinite x = true) ∧
    value24 0x3C01 * value24 0xBC01 ≠ 0 ∧ value24 0x7BFF * value24 0x7BFF ≠ 0 ∧ fusedExact true 0x3C01 0x3C01 0x0001 ≠ 0 ∧
    fp16Fma ⟨.ru, false, false⟩ false 0x3C01 0x3C01 0x0000 = (0x3C03, 0x20) :=
  ⟨of_all (by decide), by decide +kernel⟩

theorem witness_ComplexProductIsExactWithoutPrecisionFlag :
    (∀ x ∈ ([Machine.realPart 0x40003C00, imagPart 0x40003C00, Machine.realPart 0x44004200, imagPart 0x44004200] : List Fp16),
      isFinite x = true) ∧
    (cmulElement true ⟨.rn, false, false⟩ 0x40003C00 0x44004200).flags &&& flagPE = 0#6 :=
  ⟨of_all (by decide +kernel), by decide +kernel⟩

/-- No NaN operand but a NaN result; one NaN operand; a NaN temporary in either part. -/
theorem witness_NanResultsAreQuietedOperandsOrTheDefault :
    (∀ x ∈ ([0x7C00, 0x0000] : List Fp16), (!isNan x) = true) ∧
    fp16Mul ⟨.rn, false, false⟩ 0x7C00 0x0000 = (0xFE00, 0x01) ∧ isNan 0x7D00 = true ∧
    isNan (fp16Mul ⟨.rn, false, false⟩ (Machine.realPart 0x3C007C00#32) (Machine.realPart 0x3C000000#32)).1 = true ∧
    isNan (fp16Mul ⟨.rn, false, false⟩ (imagPart 0x7C003C00#32) (Machine.realPart 0x3C000000#32)).1 = true :=
  ⟨of_all (by decide), by decide +kernel⟩

/-- Infinity minus infinity; an exact cancellation; a sum of zeros of one sign; an infinite addend. -/
theorem witness_InfiniteAndZeroResults :
    fp16Fma ⟨.rn, false, false⟩ false 0x7C00 0x3C00 0xFC00 = (0xFE00, 0x01) ∧
    (isNan 0x7C00 = false ∧ ¬zeroTimesInfinity 0x7C00 0x3C00 ∧ ¬fusedInvalid false 0x7C00 0x3C00 0x7C00) ∧
    (¬zeroTimesInfinity 0x8000 0x3C00 ∧ isZero 0x8000 = true ∧ ¬fusedInvalid true 0x8000 0x3C00 0x0000) ∧
    (isInf 0x3C00 = false ∧ isInf 0xFC00 = true ∧ ¬fusedInvalid false 0x3C00 0x3C00 0xFC00) ∧
    (isFinite 0x3C00 = true ∧ fusedExact true 0x3C00 0x3C00 0x3C00 = 0 ∧ fusedExact true 0x8000 0x3C00 0x0000 = 0 ∧
      productSign true 0x8000 0x3C00 = fpSign 0x0000) := by
  simp only [zeroTimesInfinity, fusedInvalid]
  decide +kernel

/-- A fused operation that raises each flag, and none. -/
theorem witness_InvalidAndDenormalFlagsOfFusedOperations :
    (fp16Fma ⟨.rn, false, false⟩ true 0x3C00 0x3C00 0x7D00).2 = 0x01 ∧ (fp16Fma ⟨.rn, false, false⟩ true 0x7C00 0x3C00 0x7C00).2 = 0x01 ∧
    (fp16Fma ⟨.rn, false, false⟩ false 0x03FF 0x3C00 0x3C00).2 = 0x22 ∧ (fp16Fma ⟨.rn, false, false⟩ false 0x7E00 0x03FF 0x3C00).2 = 0 := by
  decide +kernel

theorem witness_InvalidAndDenormalFlagsOfMultiplication :
    (fp16Mul ⟨.rn, false, false⟩ 0x0000 0xFC00).2 = 0x01 ∧ (fp16Mul ⟨.rn, false, false⟩ 0x7D00 0x3C00).2 = 0x01 ∧
    (fp16Mul ⟨.rn, false, false⟩ 0x03FF 0x3C00).2 = 0x02 ∧ (fp16Mul ⟨.rn, false, false⟩ 0x7E00 0x03FF).2 = 0x00 := by
  decide +kernel

end Sys2Proof.Tests
end

section
/-! What the opmask file has to do with an execution: it is read through `selected` alone (10_state.md R25), at the
elements of the form, and never written. -/

namespace Sys2Proof.Machine

/-! ## Answers that differ in the next state only -/

/-- The same answer, with a change made to the next state if there is one. -/
def mapNext (g : State → State) : Answer → Answer
  | .next t => .next (g t)
  | .fault f => .fault f
  | .refused r => .refused r

@[simp] theorem mapNext_next (g : State → State) (t : State) : mapNext g (.next t) = .next (g t) := rfl
@[simp] theorem mapNext_raise (g : State → State) (f : Fault) : mapNext g (raise f) = raise f := rfl
@[simp] theorem mapNext_refused (g : State → State) (r : Refusal) : mapNext g (.refused r) = .refused r := rfl

/-- Two states that the checks of the shared operation do not tell apart get answers that differ as their completions do. -/
theorem complexMultiply_eq_mapNext {f : Form} {o : Operands} {src2 : Src2} {s s' : State} {g : State → State}
    (hmode : s'.mode = s.mode) (hud : undefinedOpcode s' f.vl o src2 = undefinedOpcode s f.vl o src2)
    (hts : taskSwitched s' = taskSwitched s)
    (hfault : src2Fault s' f.vl o src2 (ripNext s' o src2) = src2Fault s f.vl o src2 (ripNext s o src2))
    (hcomplete : complete f o src2 s' = g (complete f o src2 s)) :
    complexMultiply f o src2 s' = mapNext g (complexMultiply f o src2 s) := by
  unfold complexMultiply
  rw [hmode, hud, hts, hfault, hcomplete]
  by_cases h32 : s.mode = .bits32
  · simp [h32]
  cases undefinedOpcode s f.vl o src2
  case true => simp [h32]
  cases taskSwitched s
  case true => simp [h32]
  cases src2Fault s f.vl o src2 (ripNext s o src2) <;> simp [h32]

/-! ## Two states with the same selection -/

section SameSelection

variable {s s' : State} {mask : Opmask} {vl : VecLen}
  (hsel : ∀ e < elementCount vl, selected s' mask e = selected s mask e)

include hsel

theorem anySelected_congr : anySelected s' mask vl = anySelected s mask vl := by
  rw [anySelected, anySelected, Bool.eq_iff_iff, List.any_eq_true, List.any_eq_true]
  refine exists_congr fun e => and_congr_right fun he => ?_
  rw [hsel e (List.mem_range.mp he)]

theorem selectedAddresses_congr (broadcast : Bool) (lin : Qword) :
    selectedAddresses s' mask vl broadcast lin = selectedAddresses s mask vl broadcast lin := by
  have hbytes : (List.range (vectorBytes vl)).filter (fun b => selected s' mask (b / 4)) =
      (List.range (vectorBytes vl)).filter fun b => selected s mask (b / 4) := by
    refine List.filter_congr fun b hb => hsel _ ?_
    rw [List.mem_range, vectorBytes] at hb
    omega
  rw [selectedAddresses, selectedAddresses, anySelected_congr hsel, hbytes]

end SameSelection

/-! ## Replacing the opmask file -/

/-- Opmask files that agree on the low bits of the selected register select the same elements. -/
theorem selected_replaceK {s : State} {k : Vector Qword 8} {mask : Opmask} {e : Nat}
    (hk : mask ≠ 0#3 → (getK { s with k := k } mask).getLsbD e = (getK s mask).getLsbD e) :
    selected { s with k := k } mask e = selected s mask e := by
  by_cases h0 : mask = 0#3
  · simp [selected, h0]
  · simp [selected, hk h0]

section ReplaceK

variable {s : State} {k : Vector Qword 8} {f : Form} {o : Operands}
  (hsel : ∀ e < elementCount f.vl, selected { s with k := k } o.mask e = selected s o.mask e)

include hsel

theorem operandFault_replaceK (seg : Segment) (broadcast : Bool) (lin : Qword) :
    operandFault { s with k := k } seg o.mask f.vl broadcast lin = operandFault s seg o.mask f.vl broadcast lin := by
  rw [operandFault, selectedAddresses_congr hsel]
  rfl

theorem alignmentFault_replaceK (broadcast : Bool) (lin : Qword) :
    alignmentFault { s with k := k } o.mask f.vl broadcast lin = alignmentFault s o.mask f.vl broadcast lin := by
  rw [alignmentFault, anySelected_congr hsel]
  rfl

theorem src2Fault_replaceK (src2 : Src2) (next : Qword) :
    src2Fault { s with k := k } f.vl o src2 next = src2Fault s f.vl o src2 next := by
  cases src2 with
  | reg n => rfl
  | mem broadcast m =>
    simp only [src2Fault, operandFault_replaceK hsel, alignmentFault_replaceK hsel]
    rfl

/-- The elements of the new destination and their flags read the opmask file through the selection alone. -/
theorem destElements_replaceK (src2 : Src2) :
    destElements f o src2 { s with k := k } = destElements f o src2 s := by
  refine List.map_congr_left fun e he => ?_
  rw [destElement, hsel e (List.mem_range.mp he)]
  rfl

/-- An execution leaves the opmask file as it finds it, and the rest does not depend on the bits that select no element. -/
theorem complete_replaceK (src2 : Src2) :
    complete f o src2 { s with k := k } = { complete f o src2 s with k := k } := by
  rw [complete, destValue, raisedFlags, destElements_replaceK hsel]
  rfl

theorem complexMultiply_replaceK (src2 : Src2) :
    complexMultiply f o src2 { s with k := k } = mapNext (fun t => { t with k := k }) (complexMultiply f o src2 s) :=
  complexMultiply_eq_mapNext rfl rfl rfl (src2Fault_replaceK hsel src2 _) (complete_replaceK hsel src2)

end ReplaceK

/-- Settles O32: an opmask file that agrees on the low `KL` bits of the selected register makes the same selection, and the shared
operation reads the file through that alone. -/
theorem onlyTheLowMaskBitsAreRead : Obligations.OnlyTheLowMaskBitsAreRead := by
  intro i s k hk
  have hsel : ∀ e < elementCount (formOf i).vl, selected { s with k := k } (operandsOf i).mask e = selected s (operandsOf i).mask e :=
    fun e he => selected_replaceK fun hmask => hk hmask e he
  rw [exec_eq_complexMultiply, exec_eq_complexMultiply]
  exact complexMultiply_replaceK hsel (src2Of i)

end Sys2Proof.Machine
end

section
/-! When an execution answers at once: an overlap of registers raises `#UD` before anything else (30_encoding.md R98), and a ready
form completes (70_reset_and_hazards.md R203, 20_memory.md R55, R60). -/

namespace Sys2Proof.Machine

/-! ## The conditions of `#UD` -/

/-- The model's comparison of registers, by register number (30_encoding.md R98, D21). -/
theorem overlaps_iff {o : Operands} {src2 : Src2} : overlaps o src2 = true ↔ o.dest = o.src1 ∨ src2 = .reg o.dest := by
  cases src2 with
  | reg n => simp [overlaps, @eq_comm _ n]
  | mem broadcast m => simp [overlaps]

theorem legalOperands_iff {o : Operands} {src2 : Src2} :
    legalOperands o src2 = true ↔ overlaps o src2 = false ∧ (o.zeroing = true → o.mask ≠ 0#3) := by
  rw [← Bool.not_eq_true (overlaps o src2), overlaps_iff]
  cases hz : o.zeroing <;> simp [legalOperands, hz, and_assoc]

theorem undefinedOpcode_of_overlaps {o : Operands} {src2 : Src2} (s : State) (vl : VecLen) (h : overlaps o src2 = true) :
    undefinedOpcode s vl o src2 = true := by
  simp [undefinedOpcode, h]

/-- In an enabled state the operands alone decide about `#UD`. -/
theorem undefinedOpcode_of_enabled {s : State} {vl : VecLen} {o : Operands} {src2 : Src2} (hen : enabled s vl = true)
    (hlegal : legalOperands o src2 = true) : undefinedOpcode s vl o src2 = false := by
  obtain ⟨hoverlap, hmask⟩ := legalOperands_iff.mp hlegal
  simp only [enabled, Bool.and_eq_true, beq_iff_eq] at hen
  obtain ⟨⟨⟨⟨⟨⟨hmode, hfp16⟩, hlength⟩, hosxsave⟩, hvector⟩, hsse⟩, -⟩ := hen
  have hfeatures : hasFeatures s vl = true := by rw [hasFeatures, hfp16, hlength, Bool.and_self]
  have hos : osAvx512Enabled s = true := by simp [osAvx512Enabled, osxsave, hosxsave, hvector, hsse]
  simpa [undefinedOpcode, hmode, hfeatures, hos, hoverlap] using hmask

theorem mode_of_enabled {s : State} {vl : VecLen} (hen : enabled s vl = true) : s.mode = .bits64 := by
  simp only [enabled, Bool.and_eq_true, beq_iff_eq] at hen
  obtain ⟨⟨⟨⟨⟨⟨hmode, -⟩, -⟩, -⟩, -⟩, -⟩, -⟩ := hen
  exact hmode

theorem taskSwitched_of_enabled {s : State} {vl : VecLen} (hen : enabled s vl = true) : taskSwitched s = false := by
  simp only [enabled, Bool.and_eq_true, Bool.not_eq_true'] at hen
  exact hen.2

/-- Outside 32-bit mode a condition of `#UD` comes before every other answer. -/
theorem complexMultiply_undefinedOpcode {f : Form} {o : Operands} {src2 : Src2} {s : State} (hmode : s.mode ≠ .bits32)
    (hud : undefinedOpcode s f.vl o src2 = true) : complexMultiply f o src2 s = .fault .ud := by
  rw [complexMultiply, if_neg hmode, if_pos hud, raise]

/-! ## The checks of an accessible memory operand -/

theorem memoryFault_eq_none_iff {s : State} {seg : Segment} {addrs : List Qword} :
    memoryFault s seg addrs = none ↔ ∀ a ∈ addrs, canonical a = true ∧ readable s a.toNat = true := by
  unfold memoryFault
  by_cases hcanonical : ∀ a ∈ addrs, canonical a = true
  · have hany : (addrs.any fun a => !canonical a) = false := by simpa using hcanonical
    simpa [hany, List.min?_eq_none_iff, List.filter_eq_nil_iff, forall_and] using fun _ => hcanonical
  · have hany : (addrs.any fun a => !canonical a) = true := by simpa using hcanonical
    simp [hany, forall_and, hcanonical]

/-- An operand without a fault on any byte has none, whether or not masked-off elements are suppressed (log 14). -/
theorem operandFault_eq_none {s : State} {seg : Segment} {mask : Opmask} {vl : VecLen} {broadcast : Bool} {lin : Qword}
    (whole : memoryFault s seg (operandAddresses vl broadcast lin) = none) :
    operandFault s seg mask vl broadcast lin = none := by
  rw [operandFault, whole]

theorem alignmentFault_eq_none {s : State} {mask : Opmask} {vl : VecLen} {broadcast : Bool} {lin : Qword}
    (h : alignmentCheck s = false ∨ aligned (operandBytes vl broadcast) lin = true) :
    alignmentFault s mask vl broadcast lin = none := by
  rcases h with hoff | haligned
  · simp [alignmentFault, hoff]
  · simp [alignmentFault, haligned]

theorem src2Fault_of_accessible {s : State} {vl : VecLen} {o : Operands} {src2 : Src2} (h : accessible s vl o src2 = true) :
    src2Fault s vl o src2 (ripNext s o src2) = none := by
  cases src2 with
  | reg n => rfl
  | mem broadcast m =>
    simp only [accessible, Bool.and_eq_true, List.all_eq_true, Bool.or_eq_true, Bool.not_eq_true'] at h
    obtain ⟨hbytes, halign⟩ := h
    simp only [src2Fault, operandFault_eq_none (memoryFault_eq_none_iff.mpr hbytes), alignmentFault_eq_none halign]

/-! ## A ready form completes -/

theorem complexMultiply_of_ready {f : Form} {o : Operands} {src2 : Src2} {s : State} (h : ready s f.vl o src2 = true) :
    complexMultiply f o src2 s = .next (complete f o src2 s) := by
  simp only [ready, Bool.and_eq_true] at h
  obtain ⟨⟨hen, hlegal⟩, haccess⟩ := h
  have hmode : s.mode ≠ .bits32 := by simp [mode_of_enabled hen]
  exact complexMultiply_next_iff.mpr
    ⟨hmode, undefinedOpcode_of_enabled hen hlegal, taskSwitched_of_enabled hen, src2Fault_of_accessible haccess, rfl⟩

theorem exec_of_ready {i : Instr} {s : State} (h : ready s (formOf i).vl (operandsOf i) (src2Of i) = true) :
    exec i s = .next (complete (formOf i) (operandsOf i) (src2Of i) s) := by
  rw [exec_eq_complexMultiply, complexMultiply_of_ready h]

/-- Settles O25: an overlap is a condition of `#UD`, which comes first; without one, enabled and accessible is ready. -/
theorem overlapRaisesUndefinedOpcode : Obligations.OverlapRaisesUndefinedOpcode := by
  intro i s hmode
  constructor
  · intro hoverlap
    rw [exec_eq_complexMultiply]
    exact complexMultiply_undefinedOpcode (by simp [hmode]) (undefinedOpcode_of_overlaps s _ (overlaps_iff.mpr hoverlap))
  · intro hen hmask haccess hsrc1 hsrc2
    have hnone : overlaps (operandsOf i) (src2Of i) = false := by
      rw [← Bool.not_eq_true, overlaps_iff]
      rintro (h1 | h2)
      · exact hsrc1 h1
      · exact hsrc2 _ h2 rfl
    have hlegal : legalOperands (operandsOf i) (src2Of i) = true := legalOperands_iff.mpr ⟨hnone, hmask⟩
    exact ⟨_, exec_of_ready (by simp only [ready, hen, hlegal, haccess, Bool.and_self])⟩

end Sys2Proof.Machine
end

section
/-! The elements that the mask does not select (40_complex_multiply.md R143 to R145), and the bits above the vector length
(R146). -/

namespace Sys2Proof.Machine

/-! ## Bits and elements -/

/-- Every bit of a vector value is a bit of one of its elements. -/
theorem getLsbD_eq_getLsbD_dwordAt (v : Zmm) (b : Nat) : v.getLsbD b = (dwordAt v (b / 32)).getLsbD (b % 32) := by
  have hlt : b % 32 < 32 := Nat.mod_lt b (by decide)
  rw [dwordAt, BitVec.getLsbD_extractLsb', Nat.div_add_mod, decide_eq_true hlt, Bool.true_and]

/-- R146, bit by bit: the new destination value is 0 from the vector length on. -/
theorem getLsbD_destValue_upper (f : Form) (o : Operands) (src2 : Src2) (s : State) {b : Nat} (hb : 32 * elementCount f.vl ≤ b) :
    (destValue f o src2 s).getLsbD b = false := by
  by_cases h512 : b < 512
  · rw [getLsbD_eq_getLsbD_dwordAt, dwordAt_destValue_upper f o src2 s (b / 32) (by omega) (by omega), BitVec.getLsbD_zero]
  · exact BitVec.getLsbD_of_ge _ b (by omega)

/-! ## An unselected element -/

/-- With a mask, a clear bit of the opmask register leaves its element unselected. -/
theorem selected_eq_false {s : State} {mask : Opmask} {e : Nat} (hmask : mask ≠ 0#3) (hbit : (getK s mask).getLsbD e = false) :
    selected s mask e = false := by
  simp [selected, hmask, hbit]

/-- An unselected element is zeroed or kept, and raises no flag. -/
theorem destElement_unselected {f : Form} {o : Operands} {src2 : Src2} {s : State} {e : Nat} (h : selected s o.mask e = false) :
    destElement f o src2 s e = (if o.zeroing then 0#32 else dwordAt (getZmm s o.dest) e, 0#6) := by
  cases hz : o.zeroing <;> simp [destElement, h, hz]

theorem dwordAt_destValue_unselected {f : Form} {o : Operands} {src2 : Src2} {s : State} {e : Nat} (he : e < elementCount f.vl)
    (h : selected s o.mask e = false) :
    dwordAt (destValue f o src2 s) e = if o.zeroing then 0#32 else dwordAt (getZmm s o.dest) e := by
  rw [dwordAt_destValue f o src2 s e he, destElement_unselected h]

/-! ## What an answered execution leaves in the destination -/

theorem getZmm_dest_of_exec_next {i : Instr} {s t : State} (h : exec i s = .next t) :
    getZmm t (operandsOf i).dest = destValue (formOf i) (operandsOf i) (src2Of i) s := by
  obtain ⟨-, -, -, -, rfl⟩ := exec_next_iff.mp h
  exact getZmm_complete_same _ _ _ s

/-- Settles O22: an unselected element of the destination value is zeroed, and the value is 0 above the vector length. -/
theorem zeroedElementsAndUpperBits : Obligations.ZeroedElementsAndUpperBits := by
  intro i s t h
  rw [getZmm_dest_of_exec_next h]
  constructor
  · intro hz hmask e he hbit
    rw [dwordAt_destValue_unselected he (selected_eq_false hmask hbit), if_pos hz]
  · exact fun b hb => getLsbD_destValue_upper _ _ _ s hb

/-- Settles O23: an unselected element of the destination value is the old one. -/
theorem mergingKeepsUnselectedElements : Obligations.MergingKeepsUnselectedElements := by
  intro i s t h hz hmask e he hbit
  rw [getZmm_dest_of_exec_next h, dwordAt_destValue_unselected he (selected_eq_false hmask hbit), hz,
    if_neg Bool.false_ne_true]

/-! ## No element selected -/

/-- Only selected elements raise flags. -/
theorem raisedFlags_of_none_selected {f : Form} {o : Operands} {src2 : Src2} {s : State}
    (h : ∀ e < elementCount f.vl, selected s o.mask e = false) : raisedFlags f o src2 s = 0#6 := by
  have hflags : ∀ r ∈ destElements f o src2 s, r.2 = 0#6 := by
    simp only [destElements, List.forall_mem_map, List.mem_range]
    intro e he
    rw [destElement_unselected (h e he)]
  rw [raisedFlags]
  generalize destElements f o src2 s = results at hflags
  induction results with
  | nil => rfl
  | cons r rs ih =>
    obtain ⟨hr, hrs⟩ := List.forall_mem_cons.mp hflags
    rw [List.foldr_cons, ih hrs, hr, BitVec.or_zero]

@[simp] theorem updateFlags_zero (er : Bool) (m : Dword) : updateFlags er m 0#6 = m := by
  simp [updateFlags, raiseFlags]

/-- With a mask, operands that are not legal overlap. -/
theorem overlaps_of_not_legalOperands {o : Operands} {src2 : Src2} (hmask : o.mask ≠ 0#3)
    (h : legalOperands o src2 = false) : overlaps o src2 = true := by
  by_contra hnone
  have hlegal : legalOperands o src2 = true := legalOperands_iff.mpr ⟨Bool.eq_false_iff.mpr hnone, fun _ => hmask⟩
  simp [hlegal] at h

/-- Settles O24: a ready form completes; without a selected element no flag is raised and each element is zeroed or kept. Operands
that are not legal overlap, because there is a mask. -/
theorem allElementsUnselected : Obligations.AllElementsUnselected := by
  intro i s hmask hbits
  have hnone : ∀ e < elementCount (formOf i).vl, selected s (operandsOf i).mask e = false :=
    fun e he => selected_eq_false hmask (hbits e he)
  constructor
  · intro hready
    refine ⟨_, exec_of_ready hready, ?_, ?_, fun e he => ?_⟩
    · rw [complete_mxcsr, raisedFlags_of_none_selected hnone, updateFlags_zero]
    · rw [complete_rip, ripNext, encode_length]
    · rw [getZmm_complete_same]
      by_cases hlt : e < elementCount (formOf i).vl
      · rw [dwordAt_destValue_unselected hlt (hnone e hlt)]
        cases (operandsOf i).zeroing <;> simp [hlt]
      · rw [dwordAt_destValue_upper _ _ _ s e he (Nat.le_of_not_lt hlt), if_neg fun h => hlt h.1]
  · intro hmode hillegal
    rw [exec_eq_complexMultiply]
    exact complexMultiply_undefinedOpcode (by simp [hmode])
      (undefinedOpcode_of_overlaps s _ (overlaps_of_not_legalOperands hmask hillegal))

end Sys2Proof.Machine
end

section
/-! The rule for NaN results (40_complex_multiply.md R131): a NaN comes from a NaN operand or an invalid operation, because every other
branch of the two operations gives a number. -/

namespace Sys2Proof.Machine

/-! ## Fields and classes -/

theorem isNan_iff {a : Fp16} : isNan a = true ↔ fpExponent a = 31 ∧ fpFraction a ≠ 0 := by
  simp [isNan]

theorem isNan_of_fpExponent_ne {a : Fp16} (h : fpExponent a ≠ 31) : isNan a = false := by
  simp [isNan, h]

@[simp] theorem isNan_fpZero (s : Bool) : isNan (fpZero s) = false := by
  cases s <;> decide

@[simp] theorem isNan_fpInf (s : Bool) : isNan (fpInf s) = false := by
  cases s <;> decide

theorem isNan_of_isInf {a : Fp16} (h : isInf a = true) : isNan a = false := by
  simp only [isInf, Bool.and_eq_true, beq_iff_eq] at h
  obtain ⟨-, hfrac⟩ := h
  simp [isNan, hfrac]

theorem isNan_of_isDenormal {a : Fp16} (h : isDenormal a = true) : isNan a = false := by
  simp only [isDenormal, Bool.and_eq_true, beq_iff_eq] at h
  exact isNan_of_fpExponent_ne (by omega)

theorem isNan_of_isQnan {a : Fp16} (h : isQnan a = true) : isNan a = true :=
  (Bool.and_eq_true_iff.mp h).1

/-- `DAZ` does not touch a NaN. -/
theorem operandOf_of_isNan (env : FpEnv) {a : Fp16} (h : isNan a = true) : operandOf env a = a := by
  have hden : isDenormal a = false := by
    refine Bool.eq_false_iff.mpr fun hden => ?_
    simp [isNan_of_isDenormal hden] at h
  simp [operandOf, hden]

/-- `DAZ` makes no NaN and removes none. -/
@[simp] theorem isNan_operandOf (env : FpEnv) (a : Fp16) : isNan (operandOf env a) = isNan a := by
  rw [operandOf]
  split
  next h => rw [isNan_fpZero, isNan_of_isDenormal (Bool.and_eq_true_iff.mp h).2]
  next => rfl

/-! ## Rounding gives numbers -/

theorem fpExponent_packFinite (s : Bool) {e f : Nat} (he : e < 32) : fpExponent (packFinite s e f) = e := by
  have hfield : (packFinite s e f).extractLsb' 10 5 = BitVec.ofNat 5 e := by
    rw [packFinite, BitVec.extractLsb'_append_eq_of_le (by decide), BitVec.extractLsb'_append_eq_right]
  rw [fpExponent, hfield, BitVec.toNat_ofNat, Nat.mod_eq_of_lt he]

/-- A denormal result, or the smallest normal one that it rounds up to. -/
theorem isNan_fpZero_or {s : Bool} {q : Nat} (hq : q ≤ 1024) : isNan (fpZero s ||| BitVec.ofNat 16 q) = false := by
  have hsign : (fpZero s).extractLsb' 10 5 = 0#5 := by cases s <;> decide
  refine isNan_of_fpExponent_ne ?_
  rw [fpExponent, BitVec.extractLsb'_or, hsign, BitVec.zero_or, BitVec.extractLsb'_toNat, BitVec.toNat_ofNat]
  omega

theorem rint_le (num den : Nat) (s : Bool) (rm : Rounding) : rint num den s rm ≤ num / den + 1 := by
  unfold rint
  dsimp only
  split
  · omega
  · cases rm with
    | rn | rd | ru => dsimp only; split <;> omega
    | rz => dsimp only; omega

theorem isNan_overflowResult (s : Bool) (rm : Rounding) : isNan (overflowResult s rm).1 = false := by
  cases s <;> cases rm <;> decide

/-- A result of exponent `e - 48` overflows or packs an exponent field below 31. -/
theorem isNan_overflowResult_or_packFinite (s : Bool) (rm : Rounding) (e f : Nat) (flags : FpFlags) :
    isNan (if 63 < e then overflowResult s rm else (packFinite s (e - 33) f, flags)).1 = false := by
  split
  next => exact isNan_overflowResult s rm
  next he => exact isNan_of_fpExponent_ne (by rw [fpExponent_packFinite s (by omega)]; omega)

theorem isNan_roundExact (s : Bool) (mag : Nat) (rm : Rounding) : isNan (roundExact s mag rm).1 = false := by
  unfold roundExact
  by_cases hl : 34 ≤ Nat.log2 mag
  · simp only [if_pos hl]
    exact isNan_overflowResult_or_packFinite s rm _ _ _
  · have hmag : mag < 2 ^ 34 := Nat.lt_log2_self.trans_le (Nat.pow_le_pow_right (by decide) (by omega))
    have hq : rint mag (2 ^ 24) s rm ≤ 1024 := (rint_le mag (2 ^ 24) s rm).trans (by omega)
    simp only [if_neg hl]
    exact isNan_fpZero_or hq

theorem isNan_roundFp16 (env : FpEnv) (s : Bool) (mag : Nat) : isNan (roundFp16 env s mag).1 = false := by
  rw [roundFp16]
  split
  · exact isNan_fpZero s
  · exact isNan_roundExact s mag env.rm

theorem isNan_zeroSum (rm : Rounding) (sp : Bool) (a b c : Fp16) : isNan (zeroSum rm sp a b c) = false := by
  unfold zeroSum
  split
  · exact isNan_fpZero sp
  · cases rm <;> exact isNan_fpZero _

/-! ## Quieting a NaN -/

theorem isQnan_quiet {a : Fp16} (h : isNan a = true) : isQnan (quiet a) = true := by
  obtain ⟨hexp, -⟩ := isNan_iff.mp h
  have hexp' : fpExponent (quiet a) = 31 := by
    have hzero : (0x0200#16).extractLsb' 10 5 = 0#5 := by decide
    rw [fpExponent, quiet, BitVec.extractLsb'_or, hzero, BitVec.or_zero, ← fpExponent, hexp]
  have hbit : (quiet a).getLsbD 9 = true := by simp [quiet]
  have hfrac' : fpFraction (quiet a) ≠ 0 := by
    rw [fpFraction, quiet, BitVec.extractLsb'_or, BitVec.toNat_or]
    exact fun hzero => absurd (Nat.or_eq_zero_iff.mp hzero).2 (by decide)
  rw [isQnan, isNan_iff.mpr ⟨hexp', hfrac'⟩, hbit, Bool.and_self]

/-- A result with a NaN operand is one of the NaN operands quieted, whatever `Config.nanPick` answers. -/
theorem nanResult_eq_quiet (op : FpOp) {operands : List Fp16} (h : ∃ x ∈ operands, isNan x = true) :
    ∃ x ∈ operands, isNan x = true ∧ nanResult op operands = quiet x := by
  suffices hmem : ∃ x ∈ operands.filter isNan, nanResult op operands = quiet x by
    obtain ⟨x, hx, heq⟩ := hmem
    obtain ⟨hin, hnan⟩ := List.mem_filter.mp hx
    exact ⟨x, hin, hnan, heq⟩
  obtain ⟨y, hy, hnan⟩ := h
  have hne : operands.filter isNan ≠ [] := List.ne_nil_of_mem (List.mem_filter.mpr ⟨hy, hnan⟩)
  unfold nanResult
  split
  next hf => exact absurd hf hne
  next a hf => exact ⟨a, by simp [hf], rfl⟩
  next a b more hf =>
    have hlt : Config.nanPick op operands % (more.length + 2) < (a :: b :: more).length := Nat.mod_lt _ (by omega)
    exact ⟨_, by rw [hf]; exact List.getElem_mem hlt, by rw [List.getD_eq_getElem _ _ hlt]⟩

/-! ## The rule -/

/-- R131 for one operation: its operands and the bits of its result. -/
def followsNanRule (operands : List Fp16) (r : Fp16) : Prop :=
  (isNan r = true → isQnan r = true ∧
    ((∀ x ∈ operands, isNan x = false) → r = 0xFE00#16) ∧
    ((∃ x ∈ operands, isNan x = true) → ∃ x ∈ operands, isNan x = true ∧ r = x ||| 0x0200#16)) ∧
  ((∃ x ∈ operands, isNan x = true) → isNan r = true)

/-- With a NaN operand the rule asks for a NaN operand quieted. -/
theorem followsNanRule_nanResult (op : FpOp) {operands : List Fp16} (h : ∃ x ∈ operands, isNan x = true) :
    followsNanRule operands (nanResult op operands) := by
  obtain ⟨x, hx, hnan, heq⟩ := nanResult_eq_quiet op h
  have hq : isQnan (nanResult op operands) = true := heq ▸ isQnan_quiet hnan
  refine ⟨fun _ => ⟨hq, fun hnone => ?_, fun _ => ⟨x, hx, hnan, heq⟩⟩, fun _ => isNan_of_isQnan hq⟩
  simp [hnone x hx] at hnan

/-- Without one it asks for a number or the default QNaN. -/
theorem followsNanRule_of_no_nan {operands : List Fp16} {r : Fp16} (hnone : ∀ x ∈ operands, isNan x = false)
    (hr : isNan r = false ∨ r = defaultNan) : followsNanRule operands r := by
  have hno : ¬∃ x ∈ operands, isNan x = true := fun ⟨x, hx, hnan⟩ => by simp [hnone x hx] at hnan
  refine ⟨fun hnan => ?_, fun h => absurd h hno⟩
  obtain hr | rfl := hr
  · simp [hr] at hnan
  · exact ⟨by decide, fun _ => rfl, fun h => absurd h hno⟩

/-- `DAZ` leaves the NaN operands, and so the rule, as they are. -/
theorem followsNanRule_of_map_operandOf {env : FpEnv} {operands : List Fp16} {r : Fp16}
    (h : followsNanRule (operands.map (operandOf env)) r) : followsNanRule operands r := by
  have hall : (∀ x ∈ operands.map (operandOf env), isNan x = false) ↔ ∀ x ∈ operands, isNan x = false := by simp
  have hex : (∃ x ∈ operands.map (operandOf env), isNan x = true) ↔ ∃ x ∈ operands, isNan x = true := by simp
  rw [followsNanRule, hall, hex] at h
  obtain ⟨hnan, hsome⟩ := h
  refine ⟨fun hr => ?_, hsome⟩
  obtain ⟨hq, hdefault, hquiet⟩ := hnan hr
  refine ⟨hq, hdefault, fun h => ?_⟩
  obtain ⟨y, hy, hynan, heq⟩ := hquiet h
  obtain ⟨x, hx, rfl⟩ := List.mem_map.mp hy
  rw [isNan_operandOf] at hynan
  exact ⟨x, hx, hynan, by rw [heq, operandOf_of_isNan env hynan]⟩

/-! ## The operations follow the rule -/

theorem mulCore_followsNanRule (env : FpEnv) (a b : Fp16) : followsNanRule [a, b] (mulCore env a b).1 := by
  by_cases hnan : (isNan a || isNan b) = true
  · have hfst : (mulCore env a b).1 = nanResult .mul [a, b] := by simp only [mulCore, if_pos hnan]
    rw [hfst]
    exact followsNanRule_nanResult .mul (by simpa using hnan)
  · refine followsNanRule_of_no_nan (by simpa using hnan) ?_
    simp only [mulCore, if_neg hnan]
    split_ifs
    · exact .inr rfl
    · exact .inl (isNan_fpInf _)
    · exact .inl (isNan_fpZero _)
    · exact .inl (isNan_roundFp16 env _ _)

theorem fmaCore_followsNanRule (env : FpEnv) (neg : Bool) (a b c : Fp16) :
    followsNanRule [a, b, c] (fmaCore env neg a b c).1 := by
  by_cases hnan : (isNan a || isNan b || isNan c) = true
  · have hfst : (fmaCore env neg a b c).1 = nanResult (if neg then .fnmadd else .fmadd) [a, b, c] := by
      simp only [fmaCore, if_pos hnan]
    rw [hfst]
    exact followsNanRule_nanResult _ (by simpa [or_assoc] using hnan)
  · refine followsNanRule_of_no_nan (by simpa [and_assoc] using hnan) ?_
    simp only [fmaCore, if_neg hnan]
    split_ifs with _ _ hc _
    · exact .inr rfl
    · exact .inl (isNan_fpInf _)
    · exact .inl (isNan_of_isInf hc)
    · exact .inl (isNan_zeroSum _ _ _ _ _)
    · exact .inl (isNan_roundFp16 env _ _)

theorem fp16Mul_followsNanRule (env : FpEnv) (a b : Fp16) : followsNanRule [a, b] (fp16Mul env a b).1 :=
  followsNanRule_of_map_operandOf (mulCore_followsNanRule env _ _)

theorem fp16Fma_followsNanRule (env : FpEnv) (neg : Bool) (a b c : Fp16) :
    followsNanRule [a, b, c] (fp16Fma env neg a b c).1 :=
  followsNanRule_of_map_operandOf (fmaCore_followsNanRule env neg _ _ _)

/-- A NaN addend gives a NaN. -/
theorem isNan_fp16Fma_of_addend (env : FpEnv) (neg : Bool) (a b : Fp16) {c : Fp16} (h : isNan c = true) :
    isNan (fp16Fma env neg a b c).1 = true :=
  (fp16Fma_followsNanRule env neg a b c).2 ⟨c, by simp, h⟩

/-- Settles O42: both operations follow the rule, and a temporary is the addend of a fused operation. -/
theorem nanResultsAreQuietedOperandsOrTheDefault : Obligations.NanResultsAreQuietedOperandsOrTheDefault := by
  refine ⟨fun env neg a b c => ?_, fun conj env a b => ?_⟩
  · exact List.forall_mem_cons.mpr ⟨fp16Mul_followsNanRule env a b,
      List.forall_mem_cons.mpr ⟨fp16Fma_followsNanRule env neg a b c, List.forall_mem_nil _⟩⟩
  · cases conj <;> exact ⟨isNan_fp16Fma_of_addend env _ _ _, isNan_fp16Fma_of_addend env _ _ _⟩

end Sys2Proof.Machine
end

section
/-! The flags of an execution: those of the four operations of every selected element (60_exceptions.md R171), and never `ZE` (R173). -/

namespace Sys2Proof.Machine

/-! ## Flags bit by bit -/

/-- R171: no flag is cleared, and those of the execution are set. -/
theorem getLsbD_raiseFlags (m : Dword) (f : FpFlags) (b : Nat) : (raiseFlags m f).getLsbD b = (m.getLsbD b || f.getLsbD b) := by
  have hlt : f.getLsbD b = true → b < 32 := fun h => (BitVec.lt_of_getLsbD h).trans (by decide)
  have hwidth : (f.setWidth 32).getLsbD b = f.getLsbD b := by simpa [BitVec.getLsbD_setWidth] using hlt
  rw [raiseFlags, BitVec.getLsbD_or, hwidth]

theorem getLsbD_foldr_or {α : Type} {w : Nat} (g : α → BitVec w) (b : Nat) (l : List α) :
    (l.foldr (fun x acc => g x ||| acc) 0#w).getLsbD b = l.any fun x => (g x).getLsbD b := by
  induction l with
  | nil => simp
  | cons x xs ih => rw [List.foldr_cons, BitVec.getLsbD_or, ih, List.any_cons]

/-! ## The flags of an element and of an execution -/

/-- R136: the four operations of an element, the fused ones told apart by their sign. -/
theorem cmulElement_flags (conj : Bool) (env : FpEnv) (a b : Dword) :
    (cmulElement conj env a b).flags =
      (fp16Mul env (realPart a) (realPart b)).2 ||| (fp16Mul env (imagPart a) (realPart b)).2
        ||| (fp16Fma env (!conj) (imagPart a) (imagPart b) (fp16Mul env (realPart a) (realPart b)).1).2
        ||| (fp16Fma env conj (realPart a) (imagPart b) (fp16Mul env (imagPart a) (realPart b)).1).2 := by
  cases conj <;> rfl

/-- An element of the destination raises its flags if it is selected. -/
theorem getLsbD_destElement_flags (f : Form) (o : Operands) (src2 : Src2) (s : State) (e b : Nat) :
    (destElement f o src2 s e).2.getLsbD b = (selected s o.mask e && (elementOf f o src2 s e).flags.getLsbD b) := by
  cases hsel : selected s o.mask e
  · rw [destElement_unselected hsel, BitVec.getLsbD_zero, Bool.false_and]
  · rw [destElement, if_pos hsel, Bool.true_and]; rfl

theorem getLsbD_raisedFlags (f : Form) (o : Operands) (src2 : Src2) (s : State) (b : Nat) :
    (raisedFlags f o src2 s).getLsbD b =
      (List.range (elementCount f.vl)).any fun e => selected s o.mask e && (elementOf f o src2 s e).flags.getLsbD b := by
  simp only [raisedFlags, getLsbD_foldr_or, destElements, List.any_map, Function.comp_def, getLsbD_destElement_flags]

/-- Settles O49: the flags ORed into `MXCSR` are, bit by bit, those of the four operations of a selected element. -/
theorem flagsAreThoseOfTheFourOperations : Obligations.FlagsAreThoseOfTheFourOperations := by
  intro i s t h her o env flags b _
  obtain ⟨-, -, -, -, rfl⟩ := exec_next_iff.mp h
  have hflags : ∀ e, (elementOf (formOf i) o (src2Of i) s e).flags = flags e := fun e => by
    rw [elementOf, her, cmulElement_flags]
  rw [complete_mxcsr, her, updateFlags, Option.isSome_none, Bool.false_and, if_neg Bool.false_ne_true,
    getLsbD_raiseFlags, getLsbD_raisedFlags]
  simp only [o, hflags]

/-! ## No division (60_exceptions.md R173) -/

/-- The divide-by-zero flag is among the flags: bit 2, as in `MXCSR`. -/
def hasZe (f : FpFlags) : Bool := f.getLsbD 2

theorem and_flagZE_eq_zero_iff {f : FpFlags} : f &&& flagZE = 0#6 ↔ hasZe f = false := by
  revert f; decide

@[simp] theorem hasZe_or (f g : FpFlags) : hasZe (f ||| g) = (hasZe f || hasZe g) := BitVec.getLsbD_or

@[simp] theorem hasZe_flagIf (c : Bool) (f : FpFlags) : hasZe (flagIf c f) = (c && hasZe f) := by
  cases c <;> simp [flagIf, hasZe]

@[simp] theorem hasZe_flagIE : hasZe flagIE = false := by decide
@[simp] theorem hasZe_flagDE : hasZe flagDE = false := by decide
@[simp] theorem hasZe_flagOE : hasZe flagOE = false := by decide
@[simp] theorem hasZe_flagUE : hasZe flagUE = false := by decide
@[simp] theorem hasZe_flagPE : hasZe flagPE = false := by decide

/-! ### Every branch of an operation raises a union of the other flags -/

@[simp] theorem hasZe_overflowResult (s : Bool) (rm : Rounding) : hasZe (overflowResult s rm).2 = false := by
  simp [overflowResult]

@[simp] theorem hasZe_roundExact (s : Bool) (mag : Nat) (rm : Rounding) : hasZe (roundExact s mag rm).2 = false := by
  unfold roundExact
  dsimp only
  split_ifs <;> simp

@[simp] theorem hasZe_roundFp16 (env : FpEnv) (s : Bool) (mag : Nat) : hasZe (roundFp16 env s mag).2 = false := by
  rw [roundFp16]
  split <;> simp

theorem hasZe_mulCore (env : FpEnv) (a b : Fp16) : hasZe (mulCore env a b).2 = false := by
  unfold mulCore
  dsimp only
  split_ifs <;> simp

theorem hasZe_fmaCore (env : FpEnv) (neg : Bool) (a b c : Fp16) : hasZe (fmaCore env neg a b c).2 = false := by
  unfold fmaCore
  dsimp only
  split_ifs <;> simp

@[simp] theorem hasZe_fp16Mul (env : FpEnv) (a b : Fp16) : hasZe (fp16Mul env a b).2 = false := hasZe_mulCore env _ _

@[simp] theorem hasZe_fp16Fma (env : FpEnv) (neg : Bool) (a b c : Fp16) : hasZe (fp16Fma env neg a b c).2 = false :=
  hasZe_fmaCore env neg _ _ _

theorem hasZe_cmulElement (conj : Bool) (env : FpEnv) (a b : Dword) : hasZe (cmulElement conj env a b).flags = false := by
  simp [cmulElement_flags]

theorem hasZe_raisedFlags (f : Form) (o : Operands) (src2 : Src2) (s : State) : hasZe (raisedFlags f o src2 s) = false := by
  rw [hasZe, getLsbD_raisedFlags, List.any_eq_false]
  intro e _
  rw [← hasZe, elementOf, hasZe_cmulElement, Bool.and_false]
  exact Bool.false_ne_true

/-- Every form keeps `ZE`, whatever the open parameter for `{er}` forms says. -/
theorem getLsbD_two_mxcsr_complete (f : Form) (o : Operands) (src2 : Src2) (s : State) :
    (complete f o src2 s).mxcsr.getLsbD 2 = s.mxcsr.getLsbD 2 := by
  rw [complete_mxcsr, updateFlags]
  split
  · rfl
  · rw [getLsbD_raiseFlags, ← hasZe, hasZe_raisedFlags, Bool.or_false]

/-- Settles O21: no operation raises `ZE`, and a next state of exec or of step is the completion of a form. -/
theorem divideByZeroFlagIsNeverSet : Obligations.DivideByZeroFlagIsNeverSet := by
  refine ⟨fun conj env a b => and_flagZE_eq_zero_iff.mpr (hasZe_cmulElement conj env a b), fun i s t h => ?_, fun s t h => ?_⟩
  · obtain ⟨-, -, -, -, rfl⟩ := exec_next_iff.mp h
    exact getLsbD_two_mxcsr_complete _ _ _ s
  · obtain ⟨f, o, src2, rfl⟩ := step_next_complete h
    exact getLsbD_two_mxcsr_complete f o src2 s

end Sys2Proof.Machine
end

section
/-! Reset leaves the enabling state off, so that every form raises `#UD` (70_reset_and_hazards.md R202, R203); and the flags of `MXCSR`
accumulate over executions (R206, 60_exceptions.md R171). -/

namespace Sys2Proof.Machine

/-! ## After reset -/

theorem undefinedOpcode_of_not_osAvx512Enabled {s : State} (vl : VecLen) (o : Operands) (src2 : Src2)
    (h : osAvx512Enabled s = false) : undefinedOpcode s vl o src2 = true := by
  simp [undefinedOpcode, h]

theorem osAvx512Enabled_reset : osAvx512Enabled State.reset = false := by
  decide

/-- Settles O1: the enabling state is off after reset, and reset does not lead to a 32-bit mode, whose refusal would come first. -/
theorem everyFormIsUndefinedAfterReset : Obligations.EveryFormIsUndefinedAfterReset := by
  intro i
  have hmode : State.reset.mode ≠ .bits32 := by decide
  rw [exec_eq_complexMultiply]
  exact complexMultiply_undefinedOpcode hmode (undefinedOpcode_of_not_osAvx512Enabled _ _ _ osAvx512Enabled_reset)

/-! ## The flags of `MXCSR` -/

/-- R171: the flags of an execution, taken over all elements of the destination, are those of its selected elements. -/
theorem raisedFlags_eq_selectedFlags (f : Form) (o : Operands) (src2 : Src2) (s : State) :
    raisedFlags f o src2 s = selectedFlags f o src2 s := by
  refine BitVec.eq_of_getLsbD_eq fun b _ => ?_
  rw [getLsbD_raisedFlags, selectedFlags, getLsbD_foldr_or, List.any_filter]

@[simp] theorem mxcsrFlags_raiseFlags (m : Dword) (f : FpFlags) : mxcsrFlags (raiseFlags m f) = mxcsrFlags m ||| f := by
  rw [mxcsrFlags, raiseFlags, BitVec.extractLsb'_or, BitVec.extractLsb'_setWidth_of_le (by decide),
    BitVec.extractLsb'_eq_self, mxcsrFlags]

@[simp] theorem updateFlags_false (m : Dword) (f : FpFlags) : updateFlags false m f = raiseFlags m f := rfl

/-- One execution without embedded rounding ORs the flags of its selected elements into `MXCSR[5:0]`. -/
theorem mxcsrFlags_of_exec_next {i : Instr} {s t : State} (her : (formOf i).er = none) (h : exec i s = .next t) :
    mxcsrFlags t.mxcsr = mxcsrFlags s.mxcsr ||| selectedFlags (formOf i) (operandsOf i) (src2Of i) s := by
  obtain ⟨-, -, -, -, rfl⟩ := exec_next_iff.mp h
  rw [complete_mxcsr, her, Option.isSome_none, updateFlags_false, mxcsrFlags_raiseFlags, raisedFlags_eq_selectedFlags]

/-- Settles O36: the second execution ORs its flags into those the first one left. -/
theorem consecutiveExecutionsAccumulateFlags : Obligations.ConsecutiveExecutionsAccumulateFlags := by
  intro i j s t u heri herj hi hj
  rw [mxcsrFlags_of_exec_next herj hj, mxcsrFlags_of_exec_next heri hi]

end Sys2Proof.Machine
end

section
/-! What an execution does to `MXCSR`: it ORs in flags that are sound (60_exceptions.md R171, R173, 40_complex_multiply.md R128), and
leaves every other bit as it is. Hence the invariant, the launch conditions and the frame of every step. -/

namespace Sys2Proof.Machine

/-! ## Sound sets of flags (40_complex_multiply.md R128) -/

/-- A set of flags without `ZE`, and with `OE` or `UE` only where `PE` is. -/
def soundFlags (f : FpFlags) : Bool := !f.getLsbD 2 && (!f.getLsbD 3 || f.getLsbD 5) && (!f.getLsbD 4 || f.getLsbD 5)

theorem soundFlags_iff {f : FpFlags} :
    soundFlags f = true ↔
      f &&& flagZE = 0#6 ∧ (f &&& flagOE ≠ 0#6 → f &&& flagPE ≠ 0#6) ∧ (f &&& flagUE ≠ 0#6 → f &&& flagPE ≠ 0#6) := by
  revert f; decide

theorem soundFlags_or {f g : FpFlags} (hf : soundFlags f = true) (hg : soundFlags g = true) : soundFlags (f ||| g) = true := by
  simp only [soundFlags, BitVec.getLsbD_or, Bool.and_eq_true, Bool.or_eq_true, Bool.not_eq_true', Bool.or_eq_false_iff] at *
  tauto

theorem soundFlags_flagIf {f : FpFlags} (c : Bool) (hf : soundFlags f = true) : soundFlags (flagIf c f) = true := by
  cases c
  · exact (by decide : soundFlags 0#6 = true)
  · exact hf

theorem soundFlags_foldr {α : Type} {g : α → FpFlags} {l : List α} (h : ∀ x ∈ l, soundFlags (g x) = true) :
    soundFlags (l.foldr (fun x acc => g x ||| acc) 0#6) = true := by
  induction l with
  | nil => exact (by decide : soundFlags 0#6 = true)
  | cons x xs ih =>
    obtain ⟨hx, hxs⟩ := List.forall_mem_cons.mp h
    exact soundFlags_or hx (ih hxs)

theorem soundFlags_overflowResult (s : Bool) (rm : Rounding) : soundFlags (overflowResult s rm).2 = true := by
  simp only [overflowResult]; decide

/-- A result that overflows, or raises `PE` alone if it is not exact. -/
theorem soundFlags_overflowResult_or (s : Bool) (rm : Rounding) (p : Prop) [Decidable p] (r : Fp16) (inexact : Bool) :
    soundFlags (if p then overflowResult s rm else (r, flagIf inexact flagPE)).2 = true := by
  split
  · exact soundFlags_overflowResult s rm
  · exact soundFlags_flagIf inexact (by decide)

theorem soundFlags_roundExact (s : Bool) (mag : Nat) (rm : Rounding) : soundFlags (roundExact s mag rm).2 = true := by
  have htiny (inexact tiny : Bool) : soundFlags (flagIf inexact flagPE ||| flagIf (inexact && tiny) flagUE) = true := by
    revert inexact tiny; decide
  unfold roundExact
  by_cases hl : 34 ≤ Nat.log2 mag
  · simp only [if_pos hl]
    exact soundFlags_overflowResult_or ..
  · simp only [if_neg hl, htiny]

theorem soundFlags_roundFp16 (env : FpEnv) (s : Bool) (mag : Nat) : soundFlags (roundFp16 env s mag).2 = true := by
  rw [roundFp16]
  split
  · exact (by decide : soundFlags (flagUE ||| flagPE) = true)
  · exact soundFlags_roundExact s mag env.rm

theorem soundFlags_flagIf_flagIE (c : Bool) : soundFlags (flagIf c flagIE) = true := soundFlags_flagIf c (by decide)

theorem soundFlags_flagIf_flagDE (c : Bool) : soundFlags (flagIf c flagDE) = true := soundFlags_flagIf c (by decide)

theorem soundFlags_mulCore (env : FpEnv) (a b : Fp16) : soundFlags (mulCore env a b).2 = true := by
  unfold mulCore
  dsimp only
  split_ifs
  · exact soundFlags_flagIf_flagIE _
  · decide
  · exact soundFlags_flagIf_flagDE _
  · exact soundFlags_flagIf_flagDE _
  · exact soundFlags_or (soundFlags_flagIf_flagDE _) (soundFlags_roundFp16 env _ _)

theorem soundFlags_fmaCore (env : FpEnv) (neg : Bool) (a b c : Fp16) : soundFlags (fmaCore env neg a b c).2 = true := by
  unfold fmaCore
  dsimp only
  split_ifs
  · exact soundFlags_flagIf_flagIE _
  · exact soundFlags_flagIf_flagIE _
  · decide
  · exact soundFlags_flagIf_flagDE _
  · exact soundFlags_flagIf_flagDE _
  · exact soundFlags_flagIf_flagDE _
  · exact soundFlags_or (soundFlags_flagIf_flagDE _) (soundFlags_roundFp16 env _ _)

theorem soundFlags_fp16Mul (env : FpEnv) (a b : Fp16) : soundFlags (fp16Mul env a b).2 = true := soundFlags_mulCore env _ _

theorem soundFlags_fp16Fma (env : FpEnv) (neg : Bool) (a b c : Fp16) : soundFlags (fp16Fma env neg a b c).2 = true :=
  soundFlags_fmaCore env neg _ _ _

/-- Settles O37: every branch of the two operations raises a sound set of flags. -/
theorem overflowAndUnderflowComeWithPrecision : Obligations.OverflowAndUnderflowComeWithPrecision := by
  intro env neg a b c
  exact List.forall_mem_cons.mpr ⟨soundFlags_iff.mp (soundFlags_fp16Mul env a b),
    List.forall_mem_cons.mpr ⟨soundFlags_iff.mp (soundFlags_fp16Fma env neg a b c), List.forall_mem_nil _⟩⟩

theorem soundFlags_cmulElement (conj : Bool) (env : FpEnv) (a b : Dword) : soundFlags (cmulElement conj env a b).flags = true := by
  rw [cmulElement_flags]
  exact soundFlags_or (soundFlags_or (soundFlags_or (soundFlags_fp16Mul ..) (soundFlags_fp16Mul ..)) (soundFlags_fp16Fma ..))
    (soundFlags_fp16Fma ..)

theorem soundFlags_selectedFlags (f : Form) (o : Operands) (src2 : Src2) (s : State) :
    soundFlags (selectedFlags f o src2 s) = true :=
  soundFlags_foldr fun _ _ => soundFlags_cmulElement ..

/-! ## `MXCSR` after an execution -/

/-- The flags an execution adds to `MXCSR` (60_exceptions.md R171, R174). -/
def addedFlags (f : Form) (o : Operands) (src2 : Src2) (s : State) : FpFlags :=
  if f.er.isSome = true ∧ Config.erUpdatesFlags = false then 0#6 else selectedFlags f o src2 s

theorem mxcsr_complete_eq_raiseFlags (f : Form) (o : Operands) (src2 : Src2) (s : State) :
    (complete f o src2 s).mxcsr = raiseFlags s.mxcsr (addedFlags f o src2 s) := by
  rw [complete_mxcsr, updateFlags, addedFlags, raisedFlags_eq_selectedFlags]
  by_cases h : f.er.isSome = true ∧ Config.erUpdatesFlags = false
  · simp [h, raiseFlags]
  · rw [if_neg h, if_neg (by simpa using h)]

theorem soundFlags_addedFlags (f : Form) (o : Operands) (src2 : Src2) (s : State) : soundFlags (addedFlags f o src2 s) = true := by
  rw [addedFlags]
  split
  · rfl
  · exact soundFlags_selectedFlags f o src2 s

/-- The bits of `MXCSR` above the flags keep their value. -/
theorem getLsbD_raiseFlags_of_le (m : Dword) (f : FpFlags) {b : Nat} (hb : 6 ≤ b) :
    (raiseFlags m f).getLsbD b = m.getLsbD b := by
  rw [getLsbD_raiseFlags, BitVec.getLsbD_of_ge f b hb, Bool.or_false]

/-- A field of `MXCSR` above the flags keeps its value. -/
theorem extractLsb'_raiseFlags_of_le (m : Dword) (f : FpFlags) {b : Nat} (n : Nat) (hb : 6 ≤ b) :
    (raiseFlags m f).extractLsb' b n = m.extractLsb' b n := by
  refine BitVec.eq_of_getLsbD_eq fun j _ => ?_
  rw [BitVec.getLsbD_extractLsb', BitVec.getLsbD_extractLsb', getLsbD_raiseFlags_of_le m f (by omega)]

theorem mxcsrSound_raiseFlags {m : Dword} {f : FpFlags} (hm : mxcsrSound m = true) (hf : soundFlags f = true) :
    mxcsrSound (raiseFlags m f) = true := by
  simp only [mxcsrSound, soundFlags, extractLsb'_raiseFlags_of_le m f 16 (by decide : 6 ≤ 16), getLsbD_raiseFlags, Bool.and_eq_true,
    Bool.or_eq_true, Bool.not_eq_true', Bool.or_eq_false_iff] at *
  tauto

/-! ## The invariant -/

/-- Settles O3: reset lists no byte of memory, and its `MXCSR` has only mask bits set. -/
theorem resetMeetsTheInvariant : Obligations.ResetMeetsTheInvariant := by
  have hmxcsr : mxcsrSound State.reset.mxcsr = true := by decide
  rw [Obligations.ResetMeetsTheInvariant, inv, Memory.wf_reset, hmxcsr, Bool.and_self]

/-- Every completed form keeps the invariant: it writes no memory, and adds a sound set of flags. -/
theorem inv_complete {f : Form} {o : Operands} {src2 : Src2} {s : State} (h : inv s = true) : inv (complete f o src2 s) = true := by
  obtain ⟨hmem, hmxcsr⟩ := Bool.and_eq_true_iff.mp h
  rw [inv, complete_mem, hmem, mxcsr_complete_eq_raiseFlags,
    mxcsrSound_raiseFlags hmxcsr (soundFlags_addedFlags f o src2 s), Bool.and_self]

/-- Settles O4: a step that answers a next state completes a form. -/
theorem everyStepKeepsTheInvariant : Obligations.EveryStepKeepsTheInvariant := by
  intro s t hinv hstep
  obtain ⟨f, o, src2, rfl⟩ := step_next_complete hstep
  exact inv_complete hinv

/-! ## The launch conditions -/

/-- Admission reads `MXCSR` above its flags, and what no execution changes. -/
theorem admission_complete (f : Form) (o : Operands) (src2 : Src2) (s : State) :
    admission (complete f o src2 s) = admission s := by
  have hcheck : alignmentCheck (complete f o src2 s) = alignmentCheck s := rfl
  simp only [admission, mxcsrDaz, mxcsrFtz, hcheck, mxcsr_complete_eq_raiseFlags,
    extractLsb'_raiseFlags_of_le _ _ 16 (by decide : 6 ≤ 16), getLsbD_raiseFlags_of_le _ _ (by decide : 6 ≤ 6),
    getLsbD_raiseFlags_of_le _ _ (by decide : 6 ≤ 15)]
  rfl

theorem isLaunchState_complete (f : Form) (o : Operands) (src2 : Src2) (s : State) :
    isLaunchState (complete f o src2 s) = isLaunchState s := by
  rw [isLaunchState, isLaunchState, admission_complete, complete_mode]

/-- Settles O45: an instruction is fetched in a launch state only, and its completion is one. -/
theorem everyStepKeepsTheLaunchConditions : Obligations.EveryStepKeepsTheLaunchConditions := by
  intro s t hstep
  obtain ⟨i, hfetch, hexec⟩ := step_next hstep
  obtain ⟨-, -, -, -, rfl⟩ := exec_next_iff.mp hexec
  have hlaunch : isLaunchState s = true := (fetchInstruction_run hfetch).1
  exact ⟨hlaunch, (isLaunchState_complete _ _ _ s).trans hlaunch⟩

/-- In 64-bit mode a state that is not admitted is refused whatever its bytes are. -/
theorem step_of_admission {s : State} {r : Refusal} (hmode : s.mode = .bits64) (h : admission s = some r) :
    step s = .refused r := by
  simp [step, fetchInstruction, hmode, fetchIn64BitMode, h]

/-- Settles O44: each condition, where no earlier one holds, is the answer of `admission`. -/
theorem statesNotAdmittedAreRefused : Obligations.StatesNotAdmittedAreRefused := by
  intro s hmode denormalControl reserved checking
  have hdenormal : (mxcsrDaz s.mxcsr || mxcsrFtz s.mxcsr) = true ↔ denormalControl := by simp [mxcsrDaz, mxcsrFtz, denormalControl]
  have hchecking : alignmentCheck s = true ↔ checking := by simp [alignmentCheck, checking, and_assoc]
  refine ⟨fun hd => ?_, fun hd hr => ?_, fun hd hr hc => ?_⟩ <;> apply step_of_admission hmode <;> rw [admission]
  · rw [if_pos (hdenormal.mpr hd)]
  · rw [if_neg (hdenormal.not.mpr hd), if_pos (by simpa using hr)]
  · rw [if_neg (hdenormal.not.mpr hd), if_neg (by simpa [reserved] using hr), if_pos (hchecking.mpr hc)]

/-! ## The frame of an execution -/

/-- No completed form changes anything but its destination, `MXCSR` and `RIP`. -/
theorem unchangedBut_complete (f : Form) (o : Operands) (src2 : Src2) (s : State) : unchangedBut o.dest s (complete f o src2 s) :=
  ⟨fun n hn => getZmm_complete_other f o src2 s n hn, fun _ => rfl, fun _ => rfl, rfl, rfl, rfl, rfl, rfl, rfl, rfl, rfl, rfl, rfl,
    fun _ => rfl⟩

/-- `RIP` moves past the encoding. -/
theorem rip_complete (i : Instr) (s : State) :
    (complete (formOf i) (operandsOf i) (src2Of i) s).rip = s.rip + BitVec.ofNat 64 (encode i).length := by
  rw [complete_rip, ripNext, encode_length]

/-- A mask that covers every flag but `ZE` hides what a set of flags without `ZE` adds. -/
theorem raiseFlags_and_not_of_not_hasZe {m : Dword} {f : FpFlags} (hf : hasZe f = false) :
    raiseFlags m f &&& ~~~0x3B#32 = m &&& ~~~0x3B#32 := by
  have hhidden : f.setWidth 32 &&& ~~~0x3B#32 = 0#32 := by
    revert f; decide
  rw [raiseFlags, BitVec.and_or_distrib_right, hhidden, BitVec.or_zero]

theorem hasZe_of_soundFlags {f : FpFlags} (h : soundFlags f = true) : hasZe f = false :=
  and_flagZE_eq_zero_iff.mp (soundFlags_iff.mp h).1

/-- Settles O19: a completed form adds flags without `ZE` to `MXCSR`, advances `RIP` and writes its destination. -/
theorem everyInstructionKeepsItsFrame : Obligations.EveryInstructionKeepsItsFrame := by
  intro i s t h
  obtain ⟨-, -, -, -, rfl⟩ := exec_next_iff.mp h
  refine ⟨unchangedBut_complete _ _ _ s, rfl, rip_complete i s, ?_⟩
  rw [mxcsr_complete_eq_raiseFlags]
  exact raiseFlags_and_not_of_not_hasZe (hasZe_of_soundFlags (soundFlags_addedFlags ..))

/-- Settles O20: the flags are ORed into `MXCSR`, which clears none and touches no other bit. -/
theorem flagsAreOnlyEverSet : Obligations.FlagsAreOnlyEverSet := by
  intro i s t h
  obtain ⟨-, -, -, -, rfl⟩ := exec_next_iff.mp h
  rw [mxcsr_complete_eq_raiseFlags]
  refine ⟨⟨_, rfl, (soundFlags_iff.mp (soundFlags_addedFlags ..)).1, rfl⟩, fun b hb => ?_, extractLsb'_raiseFlags_of_le _ _ 26 (le_refl 6)⟩
  rw [getLsbD_raiseFlags, hb, Bool.true_or]

end Sys2Proof.Machine
end

section
/-! The encoder and the decoder, field by field (30_encoding.md R83 to R104): every byte of an encoding gives its fields back. -/

namespace Sys2Proof

open Machine

/-! ## The bytes of an encoding and their fields -/

/-- `P0` (30_encoding.md R84) of a form with the given second source. -/
def payload0 (o : Operands) (c : Src2Code) : Byte :=
  ~~~(o.dest.extractLsb' 3 1) ++ ~~~c.x ++ ~~~c.b ++ ~~~(o.dest.extractLsb' 4 1) ++ 0b0110#4

/-- `P1` (R85). -/
def payload1 (conj : Bool) (o : Operands) : Byte :=
  0#1 ++ ~~~(o.src1.extractLsb' 0 4) ++ 1#1 ++ (if conj then 0b11#2 else 0b10#2)

/-- `P2` (R86). -/
def payload2 (ll : BitVec 2) (bit : BitVec 1) (o : Operands) : Byte :=
  BitVec.ofBool o.zeroing ++ ll ++ bit ++ ~~~(o.src1.extractLsb' 4 1) ++ o.mask

/-- ModRM (R87). -/
def modrmByte (o : Operands) (c : Src2Code) : Byte := c.mod ++ o.dest.extractLsb' 0 3 ++ c.rm

/-- The bytes of a form after its legacy prefixes. -/
def evexBytes (conj : Bool) (ll : BitVec 2) (bit : BitVec 1) (o : Operands) (src2 : Src2) : List Byte :=
  0x62#8 :: payload0 o src2.code :: payload1 conj o :: payload2 ll bit o :: 0xD6#8 :: modrmByte o src2.code :: src2.code.tail

theorem encodeForm_eq_append (conj : Bool) (ll : BitVec 2) (bit : BitVec 1) (o : Operands) (src2 : Src2) :
    encodeForm conj ll bit o src2 = o.legacy.map LegacyPrefix.byte ++ evexBytes conj ll bit o src2 := by
  rw [encodeForm, List.append_assoc]
  rfl

section Fields

variable (conj : Bool) (ll : BitVec 2) (bit : BitVec 1) (o : Operands) (c : Src2Code)

@[simp] theorem payload0_fields :
    (payload0 o c).extractLsb' 0 3 = 0b110#3 ∧ (payload0 o c).extractLsb' 3 1 = 0#1 ∧
    (payload0 o c).extractLsb' 4 1 = ~~~(o.dest.extractLsb' 4 1) ∧ (payload0 o c).extractLsb' 5 1 = ~~~c.b ∧
    (payload0 o c).extractLsb' 6 1 = ~~~c.x ∧ (payload0 o c).extractLsb' 7 1 = ~~~(o.dest.extractLsb' 3 1) := by
  simp (disch := decide) only [payload0, BitVec.extractLsb'_append_eq_of_le, BitVec.extractLsb'_append_eq_of_add_le]
  simp

@[simp] theorem payload1_fields :
    (payload1 conj o).extractLsb' 0 2 = (if conj then 0b11#2 else 0b10#2) ∧ (payload1 conj o).extractLsb' 2 1 = 1#1 ∧
    (payload1 conj o).extractLsb' 3 4 = ~~~(o.src1.extractLsb' 0 4) ∧ (payload1 conj o).extractLsb' 7 1 = 0#1 := by
  simp (disch := decide) only [payload1, BitVec.extractLsb'_append_eq_of_le, BitVec.extractLsb'_append_eq_of_add_le, BitVec.extractLsb'_eq_self]
  simp

@[simp] theorem payload2_fields :
    (payload2 ll bit o).extractLsb' 0 3 = o.mask ∧ (payload2 ll bit o).extractLsb' 3 1 = ~~~(o.src1.extractLsb' 4 1) ∧
    (payload2 ll bit o).extractLsb' 4 1 = bit ∧ (payload2 ll bit o).extractLsb' 5 2 = ll ∧
    (payload2 ll bit o).extractLsb' 7 1 = BitVec.ofBool o.zeroing := by
  simp (disch := decide) only [payload2, BitVec.extractLsb'_append_eq_of_le, BitVec.extractLsb'_append_eq_of_add_le, BitVec.extractLsb'_eq_self]
  simp

@[simp] theorem modrmByte_fields :
    (modrmByte o c).extractLsb' 0 3 = c.rm ∧ (modrmByte o c).extractLsb' 3 3 = o.dest.extractLsb' 0 3 ∧
    (modrmByte o c).extractLsb' 6 2 = c.mod := by
  simp (disch := decide) only [modrmByte, BitVec.extractLsb'_append_eq_of_le, BitVec.extractLsb'_append_eq_of_add_le, BitVec.extractLsb'_eq_self]
  simp

end Fields

/-! ## The decoder reads back what the encoder writes -/

/-- The bytes of a 32-bit value, highest first (20_memory.md R50). -/
theorem append_bytes (d : BitVec 32) : d.extractLsb' 24 8 ++ d.extractLsb' 16 8 ++ d.extractLsb' 8 8 ++ d.extractLsb' 0 8 = d := by
  rw [BitVec.extractLsb'_append_extractLsb'_eq_extractLsb' (rfl : 24 = 16 + 8),
    BitVec.extractLsb'_append_extractLsb'_eq_extractLsb' (rfl : 16 = 8 + 8)]
  exact BitVec.extractLsb'_append_extractLsb'

theorem takeDisp32_disp32Bytes (d : BitVec 32) (rest : List Byte) : takeDisp32 (disp32Bytes d ++ rest) = .ok (d, rest) := by
  simp only [disp32Bytes, List.cons_append, List.nil_append, takeDisp32, append_bytes]

theorem takeDisplacement_bytes (d : Displacement) (rest : List Byte) :
    takeDisplacement d.mod (d.bytes ++ rest) = .ok (d, rest) := by
  cases d <;> simp [takeDisplacement, Displacement.mod, Displacement.bytes, takeDisp32_disp32Bytes]

/-- A register number from its high bit and its low bits. -/
theorem extractLsb'_append_low (r : GReg) : r.extractLsb' 3 1 ++ r.extractLsb' 0 3 = r :=
  BitVec.extractLsb'_append_extractLsb'

@[simp] theorem sibByte_fields (scale : BitVec 2) (index base : BitVec 3) :
    (scale ++ index ++ base).extractLsb' 0 3 = base ∧ (scale ++ index ++ base).extractLsb' 3 3 = index ∧
    (scale ++ index ++ base).extractLsb' 6 2 = scale := by
  simp (disch := decide) only [BitVec.extractLsb'_append_eq_of_le, BitVec.extractLsb'_append_eq_of_add_le]
  simp

theorem mod_eq_zero_iff {d : Displacement} : d.mod = 0b00#2 ↔ d = .none := by
  cases d <;> simp [Displacement.mod]

theorem takeMemOperand_code {m : MemOperand} (h : m.wellFormed = true) (rest : List Byte) :
    takeMemOperand m.code.mod m.code.rm m.code.x m.code.b (m.code.tail ++ rest) = .ok (m, rest) := by
  cases m with
  | ripRelative d => simp [takeMemOperand, MemOperand.code, takeDisp32_disp32Bytes]
  | base r d =>
    simp only [MemOperand.wellFormed, Bool.and_eq_true, bne_iff_ne, Bool.not_eq_true', Bool.and_eq_false_iff, beq_eq_false_iff_ne] at h
    obtain ⟨hsib, hrip⟩ := h
    have hrip' : ¬(d.mod = 0b00#2 ∧ r.extractLsb' 0 3 = 0b101#3) := by rw [mod_eq_zero_iff]; tauto
    simp only [takeMemOperand, MemOperand.code, if_neg hsib, if_neg hrip', takeDisplacement_bytes, extractLsb'_append_low]
  | sib scale index r d =>
    have hbase : ¬(d.mod = 0b00#2 ∧ r.extractLsb' 0 3 = 0b101#3) := by
      simpa [MemOperand.wellFormed, mod_eq_zero_iff, imp_iff_not_or] using h
    simp [takeMemOperand, takeSib, MemOperand.code, hbase, takeDisplacement_bytes, extractLsb'_append_low]
  | sibNoBase scale index d =>
    simp [takeMemOperand, takeSib, MemOperand.code, takeDisp32_disp32Bytes, extractLsb'_append_low]

theorem MemOperand.code_mod_ne (m : MemOperand) : m.code.mod ≠ 0b11#2 := by
  have hmod (d : Displacement) : d.mod ≠ 0b11#2 := by cases d <;> simp [Displacement.mod]
  cases m with
  | base _ d | sib _ _ _ d => exact hmod d
  | ripRelative _ | sibNoBase _ _ _ => simp [MemOperand.code]

/-- A vector register number from its two high bits and its low bits. -/
theorem vreg_append (n : VReg) : n.extractLsb' 4 1 ++ n.extractLsb' 3 1 ++ n.extractLsb' 0 3 = n := by
  rw [BitVec.extractLsb'_append_extractLsb'_eq_extractLsb' (rfl : 4 = 3 + 1)]
  exact BitVec.extractLsb'_append_extractLsb'

/-- A vector register number from the bits `X`, `B` and `rm` (30_encoding.md R91). -/
theorem takeSrc2_reg (n : VReg) (bit : BitVec 1) (rest : List Byte) :
    takeSrc2 (Src2.reg n).code.mod (Src2.reg n).code.rm (Src2.reg n).code.x (Src2.reg n).code.b bit ((Src2.reg n).code.tail ++ rest) =
      .ok (.reg n, rest) := by
  simp [takeSrc2, Src2.code, vreg_append]

theorem takeSrc2_code {src2 : Src2} (h : src2.wellFormed = true) (rest : List Byte) :
    takeSrc2 src2.code.mod src2.code.rm src2.code.x src2.code.b src2.broadcastBit (src2.code.tail ++ rest) = .ok (src2, rest) := by
  cases src2 with
  | reg n => exact takeSrc2_reg n _ rest
  | mem broadcast m =>
    have hbit : (BitVec.ofBool broadcast == 1#1) = broadcast := by cases broadcast <;> rfl
    simp only [takeSrc2, Src2.code, if_neg m.code_mod_ne, takeMemOperand_code h, Src2.broadcastBit, hbit]

/-- The operands of a form are those of its encoding. -/
theorem operandsOfBytes_encoded (legacy : List LegacyPrefix) (conj : Bool) (ll : BitVec 2) (bit : BitVec 1) (o : Operands) (c : Src2Code) :
    operandsOfBytes legacy (payload0 o c) (payload1 conj o) (payload2 ll bit o) (modrmByte o c) = { o with legacy := legacy } := by
  have hsrc1 : o.src1.extractLsb' 4 1 ++ o.src1.extractLsb' 0 4 = o.src1 := BitVec.extractLsb'_append_extractLsb'
  have hz : (BitVec.ofBool o.zeroing == 1#1) = o.zeroing := by cases o.zeroing <;> rfl
  simp [operandsOfBytes, vreg_append, hsrc1, hz]

/-! ## The instructions as forms -/

/-- `L'L` of an instruction: its length, or its rounding mode under embedded rounding (30_encoding.md R92, R96). -/
def lengthBits (i : Instr) : BitVec 2 :=
  match (formOf i).er with
  | some rc => rc.bits
  | none => (formOf i).vl.bits

/-- The bit `b` of `P2` of an instruction (R93, R96). -/
def contextBit (i : Instr) : BitVec 1 :=
  match (formOf i).er with
  | some _ => 1#1
  | none => (src2Of i).broadcastBit

/-- The bytes of an instruction after its legacy prefixes. -/
def instrBytes (i : Instr) : List Byte := evexBytes (formOf i).conj (lengthBits i) (contextBit i) (operandsOf i) (src2Of i)

theorem encode_eq_append (i : Instr) : encode i = (operandsOf i).legacy.map LegacyPrefix.byte ++ instrBytes i := by
  rw [instrBytes, ← encodeForm_eq_append]
  cases i <;> rfl

theorem encodable_iff {i : Instr} : i.encodable = true ↔ (src2Of i).wellFormed = true ∧ (encode i).length ≤ 15 := by
  rw [encode_length, formLength]
  cases i <;> simp [Instr.encodable, Instr.check, formEncodable, operandsOf, src2Of]

theorem wellFormed_iff {i : Instr} : i.wellFormed = true ↔ (operandsOf i).legacy = [] ∧ i.encodable = true := by
  cases i <;> simp [Instr.wellFormed, Instr.encodable, Instr.check, formWellFormed, operandsOf]

/-- The second source of an instruction is read back with the bit `b` it is encoded with. -/
theorem takeSrc2_instr {i : Instr} (h : (src2Of i).wellFormed = true) (rest : List Byte) :
    takeSrc2 (src2Of i).code.mod (src2Of i).code.rm (src2Of i).code.x (src2Of i).code.b (contextBit i) ((src2Of i).code.tail ++ rest) =
      .ok (src2Of i, rest) := by
  cases i with
  | vfcmulcphZmmEr o n rc | vfmulcphZmmEr o n rc => exact takeSrc2_reg n 1#1 rest
  | vfcmulcphXmm o src2 | vfcmulcphYmm o src2 | vfcmulcphZmm o src2 | vfmulcphXmm o src2 | vfmulcphYmm o src2 | vfmulcphZmm o src2 =>
    exact takeSrc2_code h rest

/-- `pp` tells the two products apart (30_encoding.md R85). -/
theorem pp_eq_iff (conj : Bool) : ((if conj then 0b11#2 else 0b10#2) == 0b11#2) = conj := by
  cases conj <;> rfl

theorem decodeForm_instr (i : Instr) :
    decodeForm (operandsOf i).legacy (payload0 (operandsOf i) (src2Of i).code) (payload1 (formOf i).conj (operandsOf i))
      (payload2 (lengthBits i) (contextBit i) (operandsOf i)) (modrmByte (operandsOf i) (src2Of i).code) (src2Of i) = .ok i := by
  obtain ⟨hpp, -⟩ := payload1_fields (formOf i).conj (operandsOf i)
  obtain ⟨-, -, hbit, hll, -⟩ := payload2_fields (lengthBits i) (contextBit i) (operandsOf i)
  unfold decodeForm
  rw [operandsOfBytes_encoded, hpp, hll, hbit, pp_eq_iff]
  cases i with
  | vfcmulcphZmmEr o n rc | vfmulcphZmmEr o n rc => cases rc <;> rfl
  | vfcmulcphXmm o src2 | vfcmulcphYmm o src2 | vfcmulcphZmm o src2 | vfmulcphXmm o src2 | vfmulcphYmm o src2 | vfmulcphZmm o src2 =>
    cases src2 <;> rfl

/-- The head of an encoding is one of the two instructions (30_encoding.md R99, R100). -/
theorem foreignError_encoded (conj : Bool) (o : Operands) (c : Src2Code) :
    foreignError (payload0 o c) (payload1 conj o) 0xD6#8 = none := by
  have hpp : (payload1 conj o).extractLsb' 1 1 = 1#1 := by
    simp (disch := decide) only [payload1, BitVec.extractLsb'_append_eq_of_add_le]
    cases conj <;> decide
  simp [foreignError, hpp]

/-- An encoding has no invalid field, so that only a byte before it can be at fault. -/
theorem fieldError_encoded (faulting conj : Bool) (o : Operands) (c : Src2Code) :
    fieldError faulting (payload0 o c) (payload1 conj o) = if faulting then some .faultingPrefix else none := by
  simp [fieldError]

theorem decodeEvex_instr {i : Instr} (h : (src2Of i).wellFormed = true) (rest : List Byte) :
    decodeEvex (operandsOf i).legacy false (instrBytes i ++ rest) = .ok (i, rest) := by
  simp [instrBytes, evexBytes, decodeEvex, foreignError_encoded, fieldError_encoded, takeSrc2_instr h, decodeForm_instr]

/-- A faulting byte before the instruction is reported once all of the instruction has been read, whatever other prefixes there are. -/
theorem decodeEvex_instr_faulting {i : Instr} (h : (src2Of i).wellFormed = true) (legacy : List LegacyPrefix) (rest : List Byte) :
    decodeEvex legacy true (instrBytes i ++ rest) = .error .faultingPrefix := by
  simp [instrBytes, evexBytes, decodeEvex, foreignError_encoded, fieldError_encoded, takeSrc2_instr h]

end Sys2Proof
end

section
/-! Decoding the encoding of an instruction, prefixes included (30_encoding.md R97, R100), and what a step does with the bytes it
fetches (10_state.md R31). -/

namespace Sys2Proof

open Machine

/-! ## The bytes before `0x62` -/

/-- A byte of 30_encoding.md R97, permitted or faulting. -/
def isPrefixByte (b : Byte) : Bool := (legacyPrefixOfByte b).isSome || isFaultingPrefix b

/-- The scan reads such bytes up to the first other one. -/
theorem scanPrefixes_append {ps tail : List Byte} (hps : ∀ b ∈ ps, isPrefixByte b = true)
    (htail : ∀ b ∈ tail.head?, isPrefixByte b = false) :
    scanPrefixes (ps ++ tail) = ⟨ps.filterMap legacyPrefixOfByte, ps.any fun b => (legacyPrefixOfByte b).isNone, tail⟩ := by
  induction ps with
  | nil =>
    cases tail with
    | nil => rfl
    | cons b bs =>
      obtain ⟨hlegacy, hfaulting⟩ := Bool.or_eq_false_iff.mp (htail b rfl)
      simp [scanPrefixes, Option.isSome_eq_false_iff.mp hlegacy |> Option.isNone_iff_eq_none.mp, hfaulting]
  | cons b bs ih =>
    obtain ⟨hb, hbs⟩ := List.forall_mem_cons.mp hps
    rw [List.cons_append, scanPrefixes, ih hbs]
    cases hlegacy : legacyPrefixOfByte b with
    | some p => simp [hlegacy]
    | none =>
      have hfaulting : isFaultingPrefix b = true := by simpa [isPrefixByte, hlegacy] using hb
      simp [hlegacy, hfaulting]

@[simp] theorem legacyPrefixOfByte_byte (p : LegacyPrefix) : legacyPrefixOfByte p.byte = some p := by
  cases p <;> rfl

theorem isPrefixByte_of_mem_map_byte {legacy : List LegacyPrefix} : ∀ b ∈ legacy.map LegacyPrefix.byte, isPrefixByte b = true := by
  simp [isPrefixByte]

/-- The scan stops at `0x62`. -/
theorem not_isPrefixByte_head_instrBytes (i : Instr) (rest : List Byte) :
    ∀ b ∈ (instrBytes i ++ rest).head?, isPrefixByte b = false := by
  have hevex : isPrefixByte 0x62#8 = false := by decide
  simp [instrBytes, evexBytes, hevex]

theorem scanPrefixes_encode (i : Instr) (rest : List Byte) :
    scanPrefixes (encode i ++ rest) = ⟨(operandsOf i).legacy, false, instrBytes i ++ rest⟩ := by
  rw [encode_eq_append, List.append_assoc,
    scanPrefixes_append isPrefixByte_of_mem_map_byte (not_isPrefixByte_head_instrBytes i rest)]
  simp [List.filterMap_map, Function.comp_def]

/-! ## Round trips -/

/-- Settles O47: the scan gives the prefixes, and the rest is read back field by field. -/
theorem extendedDecoderReadsThePrefixes : Obligations.ExtendedDecoderReadsThePrefixes := by
  intro i rest h
  obtain ⟨hsrc2, hlength⟩ := encodable_iff.mp h
  have hlen : (encode i ++ rest).length - rest.length ≤ 15 := by simpa using hlength
  simp only [decodeWithPrefixes, scanPrefixes_encode, decodeEvex_instr hsrc2, if_pos hlen]

/-- Settles O11: without prefixes the decoder is the one that reads them. -/
theorem decodeOfEncodeIsTheInstruction : Obligations.DecodeOfEncodeIsTheInstruction := by
  intro i rest h
  obtain ⟨hlegacy, hencodable⟩ := wellFormed_iff.mp h
  exact decode_ok_iff.mpr ⟨by rw [scanPrefixes_encode, hlegacy], extendedDecoderReadsThePrefixes i rest hencodable⟩

theorem decode_of_permittedPrefix {i : Instr} (h : i.encodable = true) (hlegacy : (operandsOf i).legacy ≠ []) (rest : List Byte) :
    decode (encode i ++ rest) = .error .permittedPrefix := by
  have hprefixed : ¬(operandsOf i).legacy.isEmpty = true := by simpa using hlegacy
  rw [decode, scanPrefixes_encode, if_neg hprefixed, extendedDecoderReadsThePrefixes i rest h]

/-- Settles O12: each word is decoded by evaluation. -/
theorem wordsOfTheSpecDecode : Obligations.WordsOfTheSpecDecode := by
  refine ⟨?_, ?_, ?_, ?_, ?_, ?_⟩ <;> decide

end Sys2Proof

namespace Sys2Proof.Machine

/-! ## Steps in a launch state -/

/-- Settles O5: in a launch state the decoder's answer on the fetched bytes decides. -/
theorem stepRunsTheDecodedInstruction : Obligations.StepRunsTheDecodedInstruction := by
  intro s i rest hs h
  rw [step, fetchInstruction_launchState hs, fetchedOfBytes, h]

theorem step_of_stop {s : State} {e : DecodeError} {f : Fault} (hs : isLaunchState s = true) (h : decode (fetchBytes s) = .error e)
    (he : fetchedOfError (fetchBytes s).length e = .stop f) : step s = .fault f := by
  rw [step, fetchInstruction_launchState hs, fetchedOfBytes, h]
  simp only [he, raise]

theorem step_of_refuse {s : State} {e : DecodeError} {r : Refusal} (hs : isLaunchState s = true)
    (h : decode (fetchBytes s) = .error e) (he : fetchedOfError (fetchBytes s).length e = .refuse r) : step s = .refused r := by
  rw [step, fetchInstruction_launchState hs, fetchedOfBytes, h]
  simp only [he]

/-- Settles O46: the decoder names what it does not admit, and the step refuses by that name. -/
theorem permittedPrefixesAreRefused : Obligations.PermittedPrefixesAreRefused := by
  intro i rest h hlegacy
  have hdecode := decode_of_permittedPrefix h hlegacy rest
  exact ⟨hdecode, fun s hs hfetch => step_of_refuse hs (by rw [hfetch, hdecode]) rfl⟩

/-- Settles O10: fetching refuses every other mode; of these the meanings refuse the 32-bit modes, and the others are `#UD`. -/
theorem otherModesStop : Obligations.OtherModesStop := by
  intro i s
  refine ⟨fun hmode => ?_, fun hmode => ?_, fun hmode => ?_⟩
  · cases h : s.mode with
    | bits64 => exact absurd h hmode
    | bits32 | realAddress | virtual8086 => simp [step, fetchInstruction, h]
  · rw [exec_eq_complexMultiply, complexMultiply, if_pos hmode]
  · have hud : undefinedOpcode s (formOf i).vl (operandsOf i) (src2Of i) = true := by
      rcases hmode with h | h <;> simp [undefinedOpcode, h]
    have h32 : s.mode ≠ .bits32 := by rcases hmode with h | h <;> simp [h]
    rw [exec_eq_complexMultiply]
    exact complexMultiply_undefinedOpcode h32 hud

/-! ## Text in memory -/

/-- Bytes that stand in fetchable memory are fetched first. -/
theorem textFrom_eq_append {s : State} : ∀ {bytes : List Byte} {a n : Nat}, bytes.length ≤ n →
    (∀ k < bytes.length, a + k < 2 ^ 64 ∧ canonical (BitVec.ofNat 64 (a + k)) = true ∧ readable s (a + k) = true ∧
      bytes[k]? = some (Memory.read s.mem (a + k))) →
    ∃ rest, textFrom s a n = bytes ++ rest
  | [], a, n, _, _ => ⟨_, rfl⟩
  | b :: bs, a, 0, hn, _ => absurd hn (by simp)
  | b :: bs, a, n + 1, hn, h => by
    obtain ⟨hwrap, hcanonical, hreadable, hb⟩ := h 0 (by simp)
    obtain ⟨rest, hrest⟩ := textFrom_eq_append (s := s) (bytes := bs) (a := a + 1) (n := n) (by simpa using hn) fun k hk => by
      simpa [Nat.add_assoc, Nat.add_comm 1 k] using h (k + 1) (by simpa using hk)
    simp only [Nat.add_zero, List.getElem?_cons_zero, Option.some.injEq] at hwrap hcanonical hreadable hb
    exact ⟨rest, by rw [textFrom, if_pos ⟨hwrap, hcanonical, hreadable⟩, hrest, hb, List.cons_append]⟩

theorem fetchAddress_of_bits64 {s : State} (h : s.mode = .bits64) : fetchAddress s = s.rip := by
  simp [fetchAddress, segmentBase, h]

theorem mode_of_isLaunchState {s : State} (h : isLaunchState s = true) : s.mode = .bits64 := by
  simp only [isLaunchState, Bool.and_eq_true, beq_iff_eq] at h
  exact h.1

/-- A step in a launch state runs the well-formed instruction whose bytes stand at `RIP` in fetchable memory. -/
theorem step_of_encode_at_rip {s : State} {i : Instr} (hs : isLaunchState s = true) (hi : i.wellFormed = true)
    (h : ∀ k < (encode i).length, s.rip.toNat + k < 2 ^ 64 ∧ canonical (BitVec.ofNat 64 (s.rip.toNat + k)) = true ∧
      readable s (s.rip.toNat + k) = true ∧ (encode i)[k]? = some (Memory.read s.mem (s.rip.toNat + k))) :
    step s = exec i s := by
  have hlength : (encode i).length ≤ maxInstrBytes := (encodable_iff.mp (wellFormed_iff.mp hi).2).2
  obtain ⟨rest, hrest⟩ := textFrom_eq_append hlength h
  refine stepRunsTheDecodedInstruction s i rest hs ?_
  rw [fetchBytes, fetchAddress_of_bits64 (mode_of_isLaunchState hs), hrest, decodeOfEncodeIsTheInstruction i rest hi]

/-- Settles O6: addresses that do not wrap are sums of natural numbers. -/
theorem stepRunsTheEncodedInstruction : Obligations.StepRunsTheEncodedInstruction := by
  intro s i hs hi hwrap h
  refine step_of_encode_at_rip hs hi fun k hk => ?_
  have hlt : s.rip.toNat + k < 2 ^ 64 := by omega
  have haddr : s.rip + BitVec.ofNat 64 k = BitVec.ofNat 64 (s.rip.toNat + k) := by
    rw [BitVec.ofNat_add, BitVec.ofNat_toNat, BitVec.setWidth_eq]
  have hnat : (s.rip + BitVec.ofNat 64 k).toNat = s.rip.toNat + k := by
    rw [haddr, BitVec.toNat_ofNat, Nat.mod_eq_of_lt hlt]
  obtain ⟨hcanonical, hreadable, hbyte⟩ := h k hk
  rw [readByte, hnat] at hbyte
  exact ⟨hlt, haddr ▸ hcanonical, hnat ▸ hreadable, hbyte⟩

/-! ## Placed text -/

theorem Memory.read_writeBytes_below {a x : Nat} (hx : x < a) :
    ∀ {bytes : List Byte} {mem : List Host.Cell}, Memory.read (Memory.writeBytes mem a bytes) x = Memory.read mem x := by
  intro bytes
  induction bytes generalizing a with
  | nil => exact rfl
  | cons b bs ih =>
    intro mem
    rw [Memory.writeBytes, ih (by omega), Memory.read_write_other (by omega)]

/-- Bytes written in a row read back. -/
theorem Memory.getElem?_writeBytes : ∀ {bytes : List Byte} {mem : List Host.Cell} {a k : Nat}, Memory.wf mem = true →
    a + bytes.length ≤ 2 ^ 64 → k < bytes.length → bytes[k]? = some (Memory.read (Memory.writeBytes mem a bytes) (a + k))
  | [], _, _, _, _, _, hk => absurd hk (by simp)
  | b :: bs, mem, a, 0, hwf, hlen, _ => by
    rw [Nat.add_zero, Memory.writeBytes, Memory.read_writeBytes_below (by omega : a < a + 1), Memory.read_write_same hwf]
    rfl
  | b :: bs, mem, a, k + 1, hwf, hlen, hk => by
    rw [List.length_cons] at hlen hk
    have hwrite : Memory.wf (Memory.write mem a b) = true := Memory.wf_write (by omega) hwf
    rw [List.getElem?_cons_succ, Memory.writeBytes, Memory.getElem?_writeBytes (a := a + 1) hwrite (by omega) (by omega),
      Nat.add_assoc, Nat.add_comm 1 k]

/-- Launching and placing text do not touch what admission reads. -/
theorem admission_placeText (s : State) (bytes : List Byte) : admission (placeText s bytes) = admission s := by
  have hcheck : alignmentCheck (placeText s bytes) = alignmentCheck s := by
    have ham : (s.cr0 &&& ~~~(1#64 <<< 3)).getLsbD 18 = s.cr0.getLsbD 18 := by
      rw [BitVec.getLsbD_and]
      simp
    simp only [alignmentCheck, placeText_cr0, ham, placeText_rflags, placeText_cpl]
  simp only [admission, hcheck, placeText_mxcsr]

theorem isLaunchState_placeText {s : State} (h : admission s = none) (bytes : List Byte) : isLaunchState (placeText s bytes) = true := by
  simp [isLaunchState, admission_placeText, h]

/-- The lower half of the canonical range (log 7). -/
theorem canonical_ofNat_of_lt {a : Nat} (h : a < 2 ^ 47) : canonical (BitVec.ofNat 64 a) = true := by
  have hhigh : (BitVec.ofNat 64 a).extractLsb' 47 17 = 0#17 := by
    refine BitVec.eq_of_toNat_eq ?_
    rw [BitVec.extractLsb'_toNat, BitVec.toNat_ofNat, Nat.shiftRight_eq_div_pow, Nat.mod_eq_of_lt (by omega : a < 2 ^ 64),
      Nat.div_eq_of_lt h]
    rfl
  simp [canonical, hhigh]

/-- Settles O9: the bytes placed where the launched machine fetches are read back, and everything there can be fetched. -/
theorem launchedMachineRunsThePlacedInstruction : Obligations.LaunchedMachineRunsThePlacedInstruction := by
  intro s i hi hadmit hwf hblocked hroom
  have hlength : (encode i).length ≤ 15 := (encodable_iff.mp (wellFormed_iff.mp hi).2).2
  refine step_of_encode_at_rip (isLaunchState_placeText hadmit _) hi fun k hk => ?_
  have hreadable : readable (placeText s (encode i)) (s.rip.toNat + k) = true := by
    simp [readable, blockingRegion, hblocked]
  have haddr : fetchAddress (launch s) = s.rip := fetchAddress_of_bits64 rfl
  rw [placeText_rip, placeText_mem, haddr]
  exact ⟨by omega, canonical_ofNat_of_lt (by omega), hreadable, Memory.getElem?_writeBytes hwf (by omega) hk⟩

end Sys2Proof.Machine
end

section
/-! How many bytes an instruction has (30_encoding.md R100 to R103), and what becomes of one that is cut short, has an invalid field
or a faulting byte before it, or is no encoding of the two instructions (10_state.md R31, 30_encoding.md R92 to R100). -/

namespace Sys2Proof

open Machine

/-! ## Reading a number of bytes -/

/-- A reader takes `n` bytes if they are there, and else says that the text is cut short. -/
def Takes {α : Type} (n : Nat) (bytes : List Byte) (r : Except DecodeError (α × List Byte)) : Prop :=
  (n ≤ bytes.length ∧ ∃ v, r = .ok (v, bytes.drop n)) ∨ (bytes.length < n ∧ r = .error .truncated)

theorem takes_takeDisp32 (bytes : List Byte) : Takes 4 bytes (takeDisp32 bytes) := by
  rcases bytes with _ | ⟨b0, _ | ⟨b1, _ | ⟨b2, _ | ⟨b3, rest⟩⟩⟩⟩ <;> simp [Takes, takeDisp32]

/-- The displacement bytes, by `mod` and the low bits of the base (30_encoding.md R101 to R103). -/
def displacementBytes (mod : BitVec 2) (base : BitVec 3) : Nat := if mod = 1 then 1 else if mod = 2 ∨ base = 5 then 4 else 0

theorem two_bits_cases (x : BitVec 2) : x = 0b00#2 ∨ x = 0b01#2 ∨ x = 0b10#2 ∨ x = 0b11#2 := by
  revert x; decide

theorem takes_takeDisplacement {mod : BitVec 2} {base : BitVec 3} (hmod : mod ≠ 0b11#2) (hbase : ¬(mod = 0b00#2 ∧ base = 0b101#3))
    (bytes : List Byte) : Takes (displacementBytes mod base) bytes (takeDisplacement mod bytes) := by
  obtain rfl | rfl | rfl | rfl := two_bits_cases mod
  · have h5 : base ≠ 5#3 := fun h => hbase ⟨rfl, h⟩
    simp [Takes, displacementBytes, takeDisplacement, h5]
  · cases bytes <;> simp [Takes, displacementBytes, takeDisplacement]
  · obtain ⟨hn, d, hd⟩ | ⟨hn, hd⟩ := takes_takeDisp32 bytes
    · exact .inl ⟨hn, _, by simp [takeDisplacement, hd, displacementBytes]; rfl⟩
    · exact .inr ⟨hn, by simp [takeDisplacement, hd]⟩
  · exact absurd rfl hmod

theorem takes_takeSib {mod : BitVec 2} (hmod : mod ≠ 0b11#2) (x b : BitVec 1) (bytes : List Byte) :
    Takes (1 + displacementBytes mod ((bytes.headD 0).extractLsb' 0 3)) bytes (takeSib mod x b bytes) := by
  cases bytes with
  | nil => exact .inr ⟨by simp, rfl⟩
  | cons sib bytes =>
    simp only [takeSib, List.headD_cons, Takes, List.length_cons, Nat.add_comm 1, Nat.add_le_add_iff_right, Nat.add_lt_add_iff_right,
      List.drop_succ_cons]
    by_cases hbase : mod = 0b00#2 ∧ sib.extractLsb' 0 3 = 0b101#3
    · have hsize : displacementBytes mod (sib.extractLsb' 0 3) = 4 := by simp [displacementBytes, hbase]
      rw [hsize, if_pos hbase]
      obtain ⟨hn, d, hd⟩ | ⟨hn, hd⟩ := takes_takeDisp32 bytes
      · exact .inl ⟨hn, _, by rw [hd]⟩
      · exact .inr ⟨hn, by rw [hd]⟩
    · rw [if_neg hbase]
      obtain ⟨hn, d, hd⟩ | ⟨hn, hd⟩ := takes_takeDisplacement hmod hbase bytes
      · exact .inl ⟨hn, _, by rw [hd]⟩
      · exact .inr ⟨hn, by rw [hd]⟩

theorem takes_takeMemOperand {mod : BitVec 2} (hmod : mod ≠ 0b11#2) (rm : BitVec 3) (x b : BitVec 1) (bytes : List Byte) :
    Takes ((if rm = 4 then 1 else 0) + displacementBytes mod (if rm = 4 then (bytes.headD 0).extractLsb' 0 3 else rm)) bytes
      (takeMemOperand mod rm x b bytes) := by
  unfold takeMemOperand
  by_cases hsib : rm = 0b100#3
  · have h4 : rm = 4 := hsib
    rw [if_pos hsib, if_pos h4, if_pos h4]
    exact takes_takeSib hmod x b bytes
  · have h4 : rm ≠ 4 := hsib
    rw [if_neg hsib, if_neg h4, if_neg h4, Nat.zero_add]
    by_cases hrip : mod = 0b00#2 ∧ rm = 0b101#3
    · have hsize : displacementBytes mod rm = 4 := by simp [displacementBytes, hrip]
      rw [hsize, if_pos hrip]
      obtain ⟨hn, d, hd⟩ | ⟨hn, hd⟩ := takes_takeDisp32 bytes
      · exact .inl ⟨hn, _, by rw [hd]⟩
      · exact .inr ⟨hn, by rw [hd]⟩
    · rw [if_neg hrip]
      obtain ⟨hn, d, hd⟩ | ⟨hn, hd⟩ := takes_takeDisplacement hmod hrip bytes
      · exact .inl ⟨hn, _, by rw [hd]⟩
      · exact .inr ⟨hn, by rw [hd]⟩

/-- The second source takes the bytes that ModRM and SIB announce. -/
theorem takes_takeSrc2 (modrm : Byte) (x b bcast : BitVec 1) (tail : List Byte) :
    Takes (bytesAfterModRM modrm tail) tail (takeSrc2 (modrm.extractLsb' 6 2) (modrm.extractLsb' 0 3) x b bcast tail) := by
  by_cases hmod : modrm.extractLsb' 6 2 = 0b11#2
  · have h3 : modrm.extractLsb' 6 2 = 3 := hmod
    exact .inl ⟨by simp [bytesAfterModRM, h3], _, by simp [takeSrc2, bytesAfterModRM, h3]; rfl⟩
  · have h3 : modrm.extractLsb' 6 2 ≠ 3 := hmod
    have hsize := takes_takeMemOperand hmod (modrm.extractLsb' 0 3) x b tail
    simp only [bytesAfterModRM, if_neg h3, takeSrc2, if_neg hmod]
    obtain ⟨hn, m, hm⟩ | ⟨hn, hm⟩ := hsize
    · exact .inl ⟨hn, _, by rw [hm]; rfl⟩
    · exact .inr ⟨hn, by rw [hm]⟩

/-- A reader that wants more than there is still does so with fewer bytes: the SIB byte, if it is there, is the first. -/
theorem lt_bytesAfterModRM_take {modrm : Byte} {tail : List Byte} {n : Nat} (h : n < bytesAfterModRM modrm tail) :
    n < bytesAfterModRM modrm (tail.take n) := by
  cases n with
  | succ n => cases tail <;> exact h
  | zero =>
    by_cases hsib : modrm.extractLsb' 0 3 = 4#3
    · by_cases hmod : modrm.extractLsb' 6 2 = 3#2 <;> simp_all [bytesAfterModRM]
    · simpa [bytesAfterModRM, hsib] using h

/-! ## The instruction at the head of the bytes -/

section Head

variable {legacy : List LegacyPrefix} {faulting : Bool} {p0 p1 p2 op modrm : Byte} {tail : List Byte}

theorem decodeEvex_foreign {e : DecodeError} (h : foreignError p0 p1 op = some e) :
    decodeEvex legacy faulting (0x62#8 :: p0 :: p1 :: p2 :: op :: modrm :: tail) = .error e := by
  simp [decodeEvex, h]

theorem decodeEvex_cut_short (hown : foreignError p0 p1 op = none) (h : tail.length < bytesAfterModRM modrm tail) :
    decodeEvex legacy faulting (0x62#8 :: p0 :: p1 :: p2 :: op :: modrm :: tail) = .error .truncated := by
  obtain ⟨hn, -⟩ | ⟨-, htrunc⟩ :=
    takes_takeSrc2 modrm (~~~(p0.extractLsb' 6 1)) (~~~(p0.extractLsb' 5 1)) (p2.extractLsb' 4 1) tail
  · omega
  · simp [decodeEvex, hown, htrunc]

/-- A head with all of its bytes: the fields of the EVEX payload and then the form decide. The second source is a register exactly if
`mod` is `11b` (30_encoding.md R91). -/
theorem decodeEvex_whole (hown : foreignError p0 p1 op = none) (h : bytesAfterModRM modrm tail ≤ tail.length) :
    ∃ src2, ((∃ n, src2 = .reg n) ↔ modrm.extractLsb' 6 2 = 0b11#2) ∧
      decodeEvex legacy faulting (0x62#8 :: p0 :: p1 :: p2 :: op :: modrm :: tail) =
        match fieldError faulting p0 p1 with
        | some e => .error e
        | none => (decodeForm legacy p0 p1 p2 modrm src2).map fun i => (i, tail.drop (bytesAfterModRM modrm tail)) := by
  obtain ⟨-, src2, hsrc2⟩ | ⟨hn, -⟩ :=
    takes_takeSrc2 modrm (~~~(p0.extractLsb' 6 1)) (~~~(p0.extractLsb' 5 1)) (p2.extractLsb' 4 1) tail
  · refine ⟨src2, ?_, ?_⟩
    · by_cases hmod : modrm.extractLsb' 6 2 = 0b11#2
      · simp only [takeSrc2, if_pos hmod, Except.ok.injEq, Prod.mk.injEq] at hsrc2
        exact iff_of_true ⟨_, hsrc2.1.symm⟩ hmod
      · simp only [takeSrc2, if_neg hmod] at hsrc2
        split at hsrc2 <;> cases hsrc2
        simp [hmod]
    · simp only [decodeEvex, hown, hsrc2, ne_eq, not_true_eq_false, if_false]
      cases fieldError faulting p0 p1 with
      | some e => rfl
      | none => cases decodeForm legacy p0 p1 p2 modrm src2 <;> rfl
  · omega

/-- A form that is not `{er}` is one of the plain rows (30_encoding.md R96). -/
theorem decodeForm_plain {src2 : Src2} (h : ∀ n, src2 = .reg n → p2.extractLsb' 4 1 ≠ 1#1) :
    decodeForm legacy p0 p1 p2 modrm src2 =
      plainInstr (p1.extractLsb' 0 2 == 0b11#2) (p2.extractLsb' 5 2) (operandsOfBytes legacy p0 p1 p2 modrm) src2 := by
  cases src2 with
  | reg n => simp [decodeForm, h n rfl]
  | mem broadcast m => rfl

end Head

/-- Without prefixes the head of the bytes decides, if it is an instruction of at most 15 bytes. -/
theorem decode_eq_ok_of_decodeEvex {bytes rest : List Byte} {i : Instr} (h : decodeEvex [] false (0x62#8 :: bytes) = .ok (i, rest))
    (hlen : (0x62#8 :: bytes).length - rest.length ≤ 15) : decode (0x62#8 :: bytes) = .ok (i, rest) := by
  have hscan : scanPrefixes (0x62#8 :: bytes) = ⟨[], false, 0x62#8 :: bytes⟩ := rfl
  exact decode_ok_iff.mpr ⟨rfl, by simp only [decodeWithPrefixes, hscan, h, if_pos hlen]⟩

/-- An error after the scan is the decoder's, unless it is an invalid field behind permitted prefixes. -/
theorem decode_eq_error_of_scan {bytes : List Byte} {r : Scanned} {e : DecodeError} (hscan : scanPrefixes bytes = r)
    (h : decodeEvex r.legacy r.faulting r.rest = .error e) (he : r.legacy = [] ∨ e.isInvalidField = false) :
    decode bytes = .error e := by
  have hwith : decodeWithPrefixes bytes = .error e := by simp only [decodeWithPrefixes, hscan, h]
  rw [decode, hwith, hscan]
  rcases he with hlegacy | hfield
  · simp [hlegacy]
  · split
    · rfl
    · simp [hfield]

theorem decode_eq_error_of_decodeEvex {bytes : List Byte} {e : DecodeError} (h : decodeEvex [] false (0x62#8 :: bytes) = .error e) :
    decode (0x62#8 :: bytes) = .error e :=
  decode_eq_error_of_scan (r := ⟨[], false, 0x62#8 :: bytes⟩) rfl h (.inl rfl)

/-! ## The opcode table (30_encoding.md R109) -/

section Table

variable {p0 p1 p2 op modrm : Byte}

theorem foreignError_eq_none_iff :
    foreignError p0 p1 op = none ↔ p0.extractLsb' 0 3 = 0b110#3 ∧ op = 0xD6#8 ∧ p1.extractLsb' 1 1 = 1#1 := by
  have hpp : p1.extractLsb' 1 1 = 1#1 ↔ p1.extractLsb' 1 1 ≠ 0#1 := by
    revert p1; decide
  rw [hpp, foreignError]
  by_cases hmap : p0.extractLsb' 0 3 = 0b110#3
  · by_cases hop : op = 0xD6#8 <;> simp [hmap, hop]
  · simp [hmap]

theorem fieldError_eq_none_iff :
    fieldError false p0 p1 = none ↔ p0.extractLsb' 3 1 ≠ 1#1 ∧ p1.extractLsb' 2 1 ≠ 0#1 ∧ p1.extractLsb' 7 1 ≠ 1#1 := by
  rw [fieldError, if_neg Bool.false_ne_true, ← and_assoc, ← not_or]
  by_cases hbit : p0.extractLsb' 3 1 = 1#1 ∨ p1.extractLsb' 2 1 = 0#1 <;> simp [hbit]

/-- What the decoder checks of `P0`, `P1` and the opcode before it names the form. -/
def ValidHead (p0 p1 op : Byte) : Prop := foreignError p0 p1 op = none ∧ fieldError false p0 p1 = none

/-- The value that the table's mask `0x87` finds in `P1`, by the product. -/
def tableP1 (conj : Bool) : Byte := if conj then 0x07#8 else 0x06#8

/-- The masks of the table on `P0`, `P1` and the opcode. -/
theorem validHead_iff {conj : Bool} :
    ValidHead p0 p1 op ∧ (p1.extractLsb' 0 2 == 0b11#2) = conj ↔ p0 &&& 0x0F#8 = 0x06#8 ∧ op = 0xD6#8 ∧ p1 &&& 0x87#8 = tableP1 conj := by
  have hp0 : p0 &&& 0x0F#8 = 0x06#8 ↔ p0.extractLsb' 0 3 = 0b110#3 ∧ p0.extractLsb' 3 1 ≠ 1#1 := by
    clear * -
    revert p0; decide
  have hp1 : p1 &&& 0x87#8 = tableP1 conj ↔ p1.extractLsb' 1 1 = 1#1 ∧ p1.extractLsb' 2 1 ≠ 0#1 ∧ p1.extractLsb' 7 1 ≠ 1#1 ∧
      (p1.extractLsb' 0 2 == 0b11#2) = conj := by
    clear * -
    revert p1 conj; decide
  rw [hp0, hp1, ValidHead, foreignError_eq_none_iff, fieldError_eq_none_iff]
  tauto

/-- The masks of the table on `P2` and ModRM for an `{er}` row. -/
theorem er_iff : p2 &&& 0x10#8 = 0x10#8 ∧ modrm &&& 0xC0#8 = 0xC0#8 ↔ p2.extractLsb' 4 1 = 1#1 ∧ modrm.extractLsb' 6 2 = 0b11#2 := by
  have hp2 : p2 &&& 0x10#8 = 0x10#8 ↔ p2.extractLsb' 4 1 = 1#1 := by
    revert p2; decide
  have hmodrm : modrm &&& 0xC0#8 = 0xC0#8 ↔ modrm.extractLsb' 6 2 = 0b11#2 := by
    clear * -
    revert modrm; decide
  rw [hp2, hmodrm]

theorem and_0x60 : p2 &&& 0x60#8 = (p2.extractLsb' 5 2).setWidth 8 <<< 5 := by
  revert p2; decide

/-- The row that the fields name, if any. -/
def rowOfFields (p1 p2 modrm : Byte) : Option Nat :=
  let conj := p1.extractLsb' 0 2 == 0b11#2
  if p2.extractLsb' 4 1 = 1#1 ∧ modrm.extractLsb' 6 2 = 0b11#2 then some (if conj then 0 else 1)
  else if p2.extractLsb' 5 2 = 0b00#2 then some (if conj then 2 else 5)
  else if p2.extractLsb' 5 2 = 0b01#2 then some (if conj then 3 else 6)
  else if p2.extractLsb' 5 2 = 0b10#2 then some (if conj then 4 else 7)
  else none

/-- Every row has the masks of `validHead_iff`, and its own on `P2` and ModRM. -/
theorem opcodeTable_row {r : TableRow} (hr : r ∈ opcodeTable) : ∃ conj m3 v3 m5 v5,
    r = ⟨[0xFF#8, 0x0F#8, 0x87#8, m3, 0xFF#8, m5], [0x62#8, 0x06#8, tableP1 conj, v3, 0xD6#8, v5]⟩ := by
  simp only [opcodeTable, List.mem_cons, List.not_mem_nil, or_false] at hr
  rcases hr with rfl | rfl | rfl | rfl | rfl | rfl | rfl | rfl
  · exact ⟨true, _, _, _, _, rfl⟩
  · exact ⟨false, _, _, _, _, rfl⟩
  · exact ⟨true, _, _, _, _, rfl⟩
  · exact ⟨true, _, _, _, _, rfl⟩
  · exact ⟨true, _, _, _, _, rfl⟩
  · exact ⟨false, _, _, _, _, rfl⟩
  · exact ⟨false, _, _, _, _, rfl⟩
  · exact ⟨false, _, _, _, _, rfl⟩

/-- The mask of the opcode byte covers all of it. -/
theorem and_0xFF (b : Byte) : b &&& 0xFF#8 = b := BitVec.and_allOnes

theorem rowOfBytes_of_not_validHead (h : ¬ValidHead p0 p1 op) : rowOfBytes [0x62#8, p0, p1, p2, op, modrm] = none := by
  rw [rowOfBytes, List.findIdx?_eq_none_iff]
  intro r hr
  obtain ⟨conj, m3, v3, m5, v5, rfl⟩ := opcodeTable_row hr
  refine Bool.eq_false_iff.mpr fun haccepts => ?_
  simp only [TableRow.accepts, List.zipWith_cons_cons, beq_iff_eq, List.cons.injEq, and_0xFF] at haccepts
  obtain ⟨-, hp0, hp1, -, hop, -⟩ := haccepts
  exact h (validHead_iff.mpr ⟨hp0, hop, hp1⟩).1

theorem rowOfBytes_of_validHead (h : ValidHead p0 p1 op) :
    rowOfBytes [0x62#8, p0, p1, p2, op, modrm] = rowOfFields p1 p2 modrm := by
  obtain ⟨hp0, hop, hp1⟩ := validHead_iff.mp ⟨h, rfl⟩
  have hll := and_0x60 (p2 := p2)
  simp only [rowOfBytes, opcodeTable, TableRow.accepts, List.zipWith_cons_cons, List.findIdx?_cons, List.zipWith_nil_left, hp0, hp1, hop]
  rw [rowOfFields]
  generalize (p1.extractLsb' 0 2 == 0b11#2) = conj at hp1 ⊢
  by_cases her : p2.extractLsb' 4 1 = 1#1 ∧ modrm.extractLsb' 6 2 = 0b11#2
  · cases conj <;> simp [her, er_iff.mpr her, tableP1]
  · have hmask := er_iff.not.mpr her
    obtain h | h | h | h := two_bits_cases (p2.extractLsb' 5 2) <;> rw [h] at hll <;> cases conj <;> simp [her, h, hll, hmask, tableP1]

/-- The form that the decoder gives is that of the row, and `L'L = 11b` names none but an `{er}` row. -/
theorem decodeForm_row {legacy : List LegacyPrefix} {p0 : Byte} {src2 : Src2}
    (hreg : (∃ n, src2 = .reg n) ↔ modrm.extractLsb' 6 2 = 0b11#2) :
    match rowOfFields p1 p2 modrm with
    | some n => ∃ i, decodeForm legacy p0 p1 p2 modrm src2 = .ok i ∧ rowOfInstr i = n
    | none => decodeForm legacy p0 p1 p2 modrm src2 = .error .reservedLength := by
  unfold rowOfFields
  generalize hconj : (p1.extractLsb' 0 2 == 0b11#2) = conj
  by_cases her : p2.extractLsb' 4 1 = 1#1 ∧ modrm.extractLsb' 6 2 = 0b11#2
  · obtain ⟨n, rfl⟩ := hreg.mpr her.2
    simp only [if_pos her, decodeForm, if_pos her.1, hconj]
    exact ⟨_, rfl, by cases conj <;> rfl⟩
  · have hplain : ∀ n, src2 = .reg n → p2.extractLsb' 4 1 ≠ 1#1 := fun n hn hbit => her ⟨hbit, hreg.mp ⟨n, hn⟩⟩
    rw [decodeForm_plain hplain, hconj]
    obtain h | h | h | h := two_bits_cases (p2.extractLsb' 5 2) <;> cases conj <;> simp [her, h, plainInstr, rowOfInstr]

end Table

theorem bytesAfterModRM_le (modrm : Byte) (tail : List Byte) : bytesAfterModRM modrm tail ≤ 5 := by
  unfold bytesAfterModRM
  dsimp only
  split_ifs <;> omega

/-- Settles O13: a head that the decoder's checks pass is decoded to the row that its fields name; no row accepts any other head. -/
theorem decoderFollowsTheOpcodeTable : Obligations.DecoderFollowsTheOpcodeTable := by
  intro p0 p1 p2 op modrm tail hlen
  by_cases hvalid : ValidHead p0 p1 op
  · obtain ⟨hown, hfields⟩ := hvalid
    obtain rfl : op = 0xD6#8 := (foreignError_eq_none_iff.mp hown).2.1
    have hsize := bytesAfterModRM_le modrm tail
    obtain ⟨src2, hreg, hevex⟩ := decodeEvex_whole (legacy := []) (faulting := false) (p2 := p2) hown (hsize.trans hlen)
    have hrow := decodeForm_row (legacy := []) (p0 := p0) (p1 := p1) (p2 := p2) hreg
    rw [rowOfBytes_of_validHead ⟨hown, hfields⟩]
    rw [hfields] at hevex
    cases hr : rowOfFields p1 p2 modrm with
    | some n =>
      rw [hr] at hrow
      obtain ⟨i, hform, hi⟩ := hrow
      rw [hform] at hevex
      exact ⟨i, _, decode_eq_ok_of_decodeEvex hevex (by simp only [List.length_cons, List.length_drop]; omega), hi⟩
    | none =>
      simp only [hr] at hrow
      rw [hrow] at hevex
      exact ⟨_, decode_eq_error_of_decodeEvex hevex⟩
  · rw [rowOfBytes_of_not_validHead hvalid]
    cases hforeign : foreignError p0 p1 op with
    | some e => exact ⟨e, decode_eq_error_of_decodeEvex (decodeEvex_foreign hforeign)⟩
    | none =>
      obtain ⟨src2, -, hevex⟩ := decodeEvex_whole (legacy := []) (faulting := false) (p2 := p2) hforeign
        ((bytesAfterModRM_le modrm tail).trans hlen)
      cases hfields : fieldError false p0 p1 with
      | some e => exact ⟨e, decode_eq_error_of_decodeEvex (by rw [hevex, hfields])⟩
      | none => exact absurd ⟨hforeign, hfields⟩ hvalid

/-! ## Encodings that are cut short -/

/-- The length of an instruction follows from its ModRM and SIB. -/
theorem bytesAfterModRM_instr {i : Instr} (h : (src2Of i).wellFormed = true) :
    bytesAfterModRM (modrmByte (operandsOf i) (src2Of i).code) (src2Of i).code.tail = (src2Of i).code.tail.length := by
  have htakes := takes_takeSrc2 (modrmByte (operandsOf i) (src2Of i).code) (src2Of i).code.x (src2Of i).code.b (contextBit i)
    (src2Of i).code.tail
  obtain ⟨hrm, -, hmod⟩ := modrmByte_fields (operandsOf i) (src2Of i).code
  have hall := takeSrc2_instr h []
  rw [List.append_nil] at hall
  rw [hrm, hmod, hall] at htakes
  obtain ⟨hle, src2, hsrc2⟩ | ⟨-, herror⟩ := htakes
  · have hdrop : [] = (src2Of i).code.tail.drop _ := (Prod.mk.inj (Except.ok.inj hsrc2)).2
    exact Nat.le_antisymm hle (List.drop_eq_nil_iff.mp hdrop.symm)
  · cases herror

theorem decodeEvex_take_instr {i : Instr} (h : (src2Of i).wellFormed = true) (legacy : List LegacyPrefix) (faulting : Bool) {n : Nat}
    (hn : n < (instrBytes i).length) : decodeEvex legacy faulting ((instrBytes i).take n) = .error .truncated := by
  match n with
  | 0 | 1 | 2 | 3 | 4 | 5 => rfl
  | n + 6 =>
    have htail : n < bytesAfterModRM (modrmByte (operandsOf i) (src2Of i).code) (src2Of i).code.tail := by
      rw [bytesAfterModRM_instr h]
      simpa [instrBytes, evexBytes] using hn
    have hshort := lt_bytesAfterModRM_take htail
    exact decodeEvex_cut_short (foreignError_encoded _ _ _) (by rw [List.length_take]; omega)

/-- Whatever prefixes stand before it, an instruction that is cut short is decoded to `truncated`. -/
theorem decode_take_encode {ps : List Byte} (hps : ∀ b ∈ ps, isPrefixByte b = true) {i : Instr} (h : (src2Of i).wellFormed = true)
    {n : Nat} (hn : n < (encode i).length) : decode (ps ++ (encode i).take n) = .error .truncated := by
  have hhead : ∀ b ∈ ((instrBytes i).take (n - (operandsOf i).legacy.length)).head?, isPrefixByte b = false := by
    have hevex := not_isPrefixByte_head_instrBytes i []
    rw [List.append_nil] at hevex
    intro b hb
    rw [List.head?_take] at hb
    split at hb
    · cases hb
    · exact hevex b hb
  have hall : ∀ b ∈ ps ++ ((operandsOf i).legacy.map LegacyPrefix.byte).take n, isPrefixByte b = true := by
    intro b hb
    rcases List.mem_append.mp hb with hb | hb
    · exact hps b hb
    · exact isPrefixByte_of_mem_map_byte b (List.mem_of_mem_take hb)
  have hrest : n - (operandsOf i).legacy.length < (instrBytes i).length := by
    rw [encode_eq_append, List.length_append, List.length_map] at hn
    have : 0 < (instrBytes i).length := by simp [instrBytes, evexBytes]
    omega
  rw [encode_eq_append, List.take_append, List.length_map, ← List.append_assoc]
  exact decode_eq_error_of_scan (scanPrefixes_append hall hhead) (decodeEvex_take_instr h _ _ hrest) (.inr rfl)

end Sys2Proof

namespace Sys2Proof.Machine

/-! ## Steps -/

theorem fetchBytes_length_le (s : State) : (fetchBytes s).length ≤ 15 := by
  have htext : ∀ n a, (textFrom s a n).length ≤ n := by
    intro n
    induction n with
    | zero => exact fun a => Nat.le_refl 0
    | succ n ih =>
      intro a
      rw [textFrom]
      split
      · exact Nat.succ_le_succ (ih (a + 1))
      · exact Nat.zero_le _
  exact htext 15 _

/-- A truncated instruction is too long if all 15 bytes were fetched, and else not available. -/
theorem step_of_truncated {s : State} (hs : isLaunchState s = true) (h : decode (fetchBytes s) = .error .truncated) :
    step s = if (fetchBytes s).length = 15 then .fault .gp else .refused .textUnavailable := by
  have hle := fetchBytes_length_le s
  split
  next hlen => exact step_of_stop hs h (by rw [fetchedOfError, if_pos (by rw [hlen]; exact Nat.le_refl 15)])
  next hlen => exact step_of_refuse hs h (by rw [fetchedOfError, if_neg (by rw [maxInstrBytes]; omega)])

/-- Settles O7: fewer than 15 bytes are there. -/
theorem instructionCutShortIsRefused : Obligations.InstructionCutShortIsRefused := by
  intro s i n hs hi hn hfetch
  obtain ⟨hsrc2, hlength⟩ := encodable_iff.mp (wellFormed_iff.mp hi).2
  have hdecode := decode_take_encode (List.forall_mem_nil _) hsrc2 hn
  rw [List.nil_append, ← hfetch] at hdecode
  rw [step_of_truncated hs hdecode, if_neg]
  rw [hfetch, List.length_take]
  omega

/-- Settles O8: the first 15 bytes are cut short, and all 15 were fetched. -/
theorem longInstructionIsGeneralProtection : Obligations.LongInstructionIsGeneralProtection := by
  intro s i hs hsrc2 hlong hfetch
  have hdecode := decode_take_encode (List.forall_mem_nil _) hsrc2 hlong
  rw [List.nil_append, ← hfetch] at hdecode
  rw [step_of_truncated hs hdecode, if_pos]
  rw [hfetch, List.length_take]
  omega

/-! ### Invalid fields and faulting prefixes -/

theorem fetchedOfError_of_fieldError {faulting : Bool} {p0 p1 : Byte} {e : DecodeError} (h : fieldError faulting p0 p1 = some e)
    (fetched : Nat) : fetchedOfError fetched e = .stop .ud := by
  unfold fieldError at h
  split_ifs at h <;> cases h <;> rfl

/-- Settles O14: with all of its bytes there the field is at fault, and without them the instruction is cut short. -/
theorem invalidFieldsAreUndefinedOpcodes : Obligations.InvalidFieldsAreUndefinedOpcodes := by
  intro s p0 p1 p2 modrm tail hs hfetch hmap hpp hinvalid
  have hown : foreignError p0 p1 0xD6#8 = none := foreignError_eq_none_iff.mpr ⟨hmap, rfl, hpp⟩
  have hsize := bytesAfterModRM_le modrm tail
  split
  next hwhole =>
    obtain ⟨src2, hreg, hevex⟩ := decodeEvex_whole (legacy := []) (faulting := false) (p2 := p2) hown hwhole
    cases hfields : fieldError false p0 p1 with
    | some e =>
      rw [hfields] at hevex
      exact step_of_stop hs (by rw [hfetch, decode_eq_error_of_decodeEvex hevex]) (fetchedOfError_of_fieldError hfields _)
    | none =>
      obtain ⟨hbit, hone, hwide⟩ := fieldError_eq_none_iff.mp hfields
      obtain ⟨hlength, her⟩ : p2.extractLsb' 5 2 = 0b11#2 ∧ ¬(modrm.extractLsb' 6 2 = 0b11#2 ∧ p2.extractLsb' 4 1 = 1#1) := by tauto
      have hplain : ∀ n, src2 = .reg n → p2.extractLsb' 4 1 ≠ 1#1 := fun n hn hb => her ⟨hreg.mp ⟨n, hn⟩, hb⟩
      have hform : ∀ conj o, plainInstr conj 0b11#2 o src2 = .error .reservedLength := fun _ _ => rfl
      rw [hfields, decodeForm_plain hplain, hlength, hform] at hevex
      exact step_of_stop hs (by rw [hfetch]; exact decode_eq_error_of_decodeEvex hevex) rfl
  next hshort =>
    have hdecode : decode (fetchBytes s) = .error .truncated := by
      rw [hfetch]
      exact decode_eq_error_of_decodeEvex (decodeEvex_cut_short hown (by omega))
    rw [step_of_truncated hs hdecode, if_neg]
    rw [hfetch]
    simp only [List.length_cons]
    omega

/-- The faulting bytes of 30_encoding.md R97 as a range and four values. -/
theorem isFaultingPrefix_iff {b : Byte} :
    isFaultingPrefix b = true ↔ b = 0xF0#8 ∨ b = 0x66#8 ∨ b = 0xF2#8 ∨ b = 0xF3#8 ∨ (0x40#8 ≤ b ∧ b ≤ 0x4F#8) := by
  revert b; decide

theorem legacyPrefixOfByte_isSome_iff {b : Byte} :
    (legacyPrefixOfByte b).isSome = true ↔ b ∈ [0x2E#8, 0x36#8, 0x3E#8, 0x26#8, 0x64#8, 0x65#8, 0x67#8] := by
  revert b; decide

theorem legacyPrefixOfByte_of_isFaultingPrefix {b : Byte} (h : isFaultingPrefix b = true) : legacyPrefixOfByte b = none := by
  revert b; decide

/-- Settles O15: the scan finds the faulting byte, which is reported once the instruction has been read; one that is cut short is
reported first. -/
theorem faultingPrefixesAreUndefinedOpcodes : Obligations.FaultingPrefixesAreUndefinedOpcodes := by
  intro s ps i hs hi faulting hps ⟨b, hb, hfaulting⟩
  obtain ⟨hsrc2, -⟩ := encodable_iff.mp hi
  have hprefix : ∀ b ∈ ps, isPrefixByte b = true := fun b hb => by
    rw [isPrefixByte, Bool.or_eq_true, legacyPrefixOfByte_isSome_iff, isFaultingPrefix_iff]
    exact (hps b hb).symm
  refine ⟨fun rest hfetch => ?_, fun n hn hfetch => ?_⟩
  · have hall : ∀ b ∈ ps ++ (operandsOf i).legacy.map LegacyPrefix.byte, isPrefixByte b = true := fun b hb =>
      (List.mem_append.mp hb).elim (hprefix b) (isPrefixByte_of_mem_map_byte b)
    have hany : ((ps ++ (operandsOf i).legacy.map LegacyPrefix.byte).any fun b => (legacyPrefixOfByte b).isNone) = true :=
      List.any_eq_true.mpr ⟨b, List.mem_append_left _ hb,
        by rw [legacyPrefixOfByte_of_isFaultingPrefix (isFaultingPrefix_iff.mpr hfaulting)]; rfl⟩
    have hscan := scanPrefixes_append hall (not_isPrefixByte_head_instrBytes i rest)
    rw [hany, List.append_assoc, ← List.append_assoc _ (instrBytes i), ← encode_eq_append, ← hfetch] at hscan
    exact step_of_stop hs (decode_eq_error_of_scan hscan (decodeEvex_instr_faulting hsrc2 _ rest) (.inr rfl)) rfl
  · refine step_of_truncated hs ?_
    rw [hfetch, decode_take_encode hprefix hsrc2 hn]

/-! ### Encodings of other instructions -/

theorem decodeEvex_notEvex {legacy : List LegacyPrefix} {faulting : Bool} {b : Byte} (h : b ≠ 0x62#8) (rest : List Byte) :
    decodeEvex legacy faulting (b :: rest) = .error .notEvex := by
  unfold decodeEvex
  split
  next heq => cases heq; rw [if_pos h]
  next heq => cases heq; rw [if_pos h]
  next heq => cases heq

/-- Settles O48: the first check that fails names the encoding. -/
theorem otherEncodingsAreRefused : Obligations.OtherEncodingsAreRefused := by
  intro s hs
  refine ⟨fun b rest hfetch hb hrex => ?_, fun p0 p1 p2 op modrm tail hfetch => ?_⟩
  · simp only [List.mem_cons, List.not_mem_nil, or_false, not_or] at hb
    have hlegacy : legacyPrefixOfByte b = none := by
      rw [← Option.not_isSome_iff_eq_none, legacyPrefixOfByte_isSome_iff]
      simp only [List.mem_cons, List.not_mem_nil, or_false]
      tauto
    have hfaulting : ¬isFaultingPrefix b = true := by
      rw [isFaultingPrefix_iff]
      tauto
    have hscan : scanPrefixes (b :: rest) = ⟨[], false, b :: rest⟩ := by simp [scanPrefixes, hlegacy, hfaulting]
    exact step_of_refuse hs (by rw [hfetch]; exact decode_eq_error_of_scan hscan (decodeEvex_notEvex hb.1 rest) (.inl rfl)) rfl
  · have hrefuse {e : DecodeError} {r : Refusal} (hforeign : foreignError p0 p1 op = some e) (he : ∀ n, fetchedOfError n e = .refuse r) :
        step s = .refused r :=
      step_of_refuse hs (by rw [hfetch]; exact decode_eq_error_of_decodeEvex (decodeEvex_foreign hforeign)) (he _)
    refine ⟨fun hmap => ?_, fun hmap hop => ?_, fun hmap hop hpp => ?_⟩
    · exact hrefuse (by rw [foreignError, if_pos hmap]) fun _ => rfl
    · exact hrefuse (by rw [foreignError, if_neg (not_not.mpr hmap), if_pos hop]) fun _ => rfl
    · have hzero : p1.extractLsb' 1 1 = 0#1 := by
        clear hfetch hrefuse
        revert p1; decide
      exact hrefuse (by rw [foreignError, if_neg (not_not.mpr hmap), if_neg (not_not.mpr hop), if_pos hzero]) fun _ => rfl

end Sys2Proof.Machine
end

section
/-! What a ready form leaves behind (40_complex_multiply.md R137, R138), the order of the exceptions of a decoded form
(60_exceptions.md R176, R177), the values after reset (10_state.md R40), and the mask bits of `MXCSR`, which nothing reads (60_exceptions.md R172). -/

namespace Sys2Proof.Machine

/-! ## Completion -/

theorem destElement_of_selected {f : Form} {o : Operands} {src2 : Src2} {s : State} {e : Nat} (h : selected s o.mask e = true) :
    (destElement f o src2 s e).1 = pairOf (elementOf f o src2 s e).re (elementOf f o src2 s e).im := by
  rw [destElement, if_pos h]
  rfl

theorem destinationHolds_complete (f : Form) (o : Operands) (src2 : Src2) (s : State) :
    destinationHolds f o src2 s (complete f o src2 s) := by
  rw [destinationHolds, getZmm_complete_same]
  refine ⟨fun e he => ?_, fun e he16 he => dwordAt_destValue_upper f o src2 s e he16 he⟩
  cases hsel : selected s o.mask e with
  | true => rw [dwordAt_destValue f o src2 s e he, destElement_of_selected hsel, if_pos rfl]
  | false => rw [dwordAt_destValue_unselected he hsel, if_neg Bool.false_ne_true]

theorem carriesOut_of_ready {i : Instr} {s : State} (h : ready s (formOf i).vl (operandsOf i) (src2Of i) = true) :
    carriesOut i (formOf i) (operandsOf i) (src2Of i) s := by
  refine ⟨_, exec_of_ready h, destinationHolds_complete _ _ _ s, ?_, rip_complete i s, unchangedBut_complete _ _ _ s⟩
  rw [mxcsr_complete_eq_raiseFlags, addedFlags]
  split
  · simp [raiseFlags]
  · rfl

/-- Settles O16: a ready form completes. -/
theorem vfcmulcphFormsComplete : Obligations.VfcmulcphFormsComplete := fun o src2 _ =>
  ⟨carriesOut_of_ready (i := .vfcmulcphXmm o src2), carriesOut_of_ready (i := .vfcmulcphYmm o src2),
    carriesOut_of_ready (i := .vfcmulcphZmm o src2)⟩

/-- Settles O17: a ready form completes. -/
theorem vfmulcphFormsComplete : Obligations.VfmulcphFormsComplete := fun o src2 _ =>
  ⟨carriesOut_of_ready (i := .vfmulcphXmm o src2), carriesOut_of_ready (i := .vfmulcphYmm o src2),
    carriesOut_of_ready (i := .vfmulcphZmm o src2)⟩

/-- Settles O18: a ready form completes, with embedded rounding too. -/
theorem embeddedRoundingFormsComplete : Obligations.EmbeddedRoundingFormsComplete := fun o n rc _ h =>
  ⟨carriesOut_of_ready (i := .vfcmulcphZmmEr o n rc) h, carriesOut_of_ready (i := .vfmulcphZmmEr o n rc) h⟩

/-! ## The order of the exceptions -/

theorem memoryFault_ne_ud (s : State) (seg : Segment) (addrs : List Qword) : memoryFault s seg addrs ≠ some .ud := by
  unfold memoryFault
  split
  · split <;> simp
  · simp [Option.map_eq_some_iff, pageFault]

theorem memoryFault_ne_ac (s : State) (seg : Segment) (addrs : List Qword) : memoryFault s seg addrs ≠ some .ac := by
  unfold memoryFault
  split
  · split <;> simp
  · simp [Option.map_eq_some_iff, pageFault]

theorem mem_operandAddresses_of_mem_selectedAddresses {s : State} {mask : Opmask} {vl : VecLen} {broadcast : Bool} {lin a : Qword}
    (h : a ∈ selectedAddresses s mask vl broadcast lin) : a ∈ operandAddresses vl broadcast lin := by
  cases broadcast with
  | true =>
    simp only [selectedAddresses, if_true] at h
    split at h
    · exact h
    · cases h
  | false =>
    simp only [selectedAddresses, Bool.false_eq_true, if_false] at h
    obtain ⟨k, hk, rfl⟩ := List.mem_map.mp h
    exact List.mem_map_of_mem (List.mem_of_mem_filter hk)

/-- The open parameter chooses which bytes are checked, and nothing else (20_memory.md R55, log 14). -/
theorem operandFault_eq_memoryFault (s : State) (seg : Segment) (mask : Opmask) (vl : VecLen) (broadcast : Bool) (lin : Qword) :
    operandFault s seg mask vl broadcast lin = memoryFault s seg (checkedAddresses s mask vl broadcast lin) := by
  have hpart : memoryFault s seg (operandAddresses vl broadcast lin) = none →
      memoryFault s seg (selectedAddresses s mask vl broadcast lin) = none := fun hwhole =>
    memoryFault_eq_none_iff.mpr fun a ha =>
      memoryFault_eq_none_iff.mp hwhole a (mem_operandAddresses_of_mem_selectedAddresses ha)
  unfold operandFault checkedAddresses
  cases hwhole : memoryFault s seg (operandAddresses vl broadcast lin) with
  | none => cases Config.faultSuppression <;> simp [hwhole, hpart hwhole]
  | some whole =>
    cases hsel : memoryFault s seg (selectedAddresses s mask vl broadcast lin) <;>
      cases Config.faultSuppression <;> simp [hwhole, hsel]

theorem alignmentFault_ne_ud (s : State) (mask : Opmask) (vl : VecLen) (broadcast : Bool) (lin : Qword) :
    alignmentFault s mask vl broadcast lin ≠ some .ud := by
  unfold alignmentFault
  dsimp only
  split <;> simp

theorem src2Fault_ne_ud (s : State) (vl : VecLen) (o : Operands) (src2 : Src2) (next : Qword) : src2Fault s vl o src2 next ≠ some .ud := by
  cases src2 with
  | reg n => simp [src2Fault]
  | mem broadcast m =>
    simp only [src2Fault, operandFault_eq_memoryFault]
    split
    next f hf => exact fun h => memoryFault_ne_ud s _ _ (hf.trans h)
    next => exact alignmentFault_ne_ud s _ _ _ _

/-- Outside 32-bit mode `#UD` comes from its conditions alone. -/
theorem complexMultiply_fault_ud_iff {f : Form} {o : Operands} {src2 : Src2} {s : State} (hmode : s.mode ≠ .bits32) :
    complexMultiply f o src2 s = .fault .ud ↔ undefinedOpcode s f.vl o src2 = true := by
  refine ⟨fun h => ?_, complexMultiply_undefinedOpcode hmode⟩
  by_contra hud
  rw [complexMultiply, if_neg hmode, if_neg hud] at h
  split at h
  · cases h
  · split at h
    next e he => exact src2Fault_ne_ud _ _ _ _ _ (by rw [he]; cases h; rfl)
    next => cases h

/-- The model's conditions of `#UD` are those of 60_exceptions.md R176, outside the 32-bit modes. -/
theorem undefinedOpcode_iff {i : Instr} {s : State} (hmode : s.mode ≠ .bits32) :
    undefinedOpcode s (formOf i).vl (operandsOf i) (src2Of i) = true ↔ undefinedConditions i s := by
  have h64 : s.mode = .realAddress ∨ s.mode = .virtual8086 ↔ s.mode ≠ .bits64 := by
    cases h : s.mode <;> simp_all
  have hfeatures : hasFeatures s (formOf i).vl = false ↔
      s.features.avx512fp16 = false ∨ ((formOf i).vl ≠ .v512 ∧ s.features.avx512vl = false) := by
    simp [hasFeatures, imp_iff_not_or]
  have hos : osAvx512Enabled s = false ↔
      s.cr4.getLsbD 18 = false ∨ s.xcr0.extractLsb' 5 3 ≠ 0b111#3 ∨ s.xcr0.extractLsb' 1 2 ≠ 0b11#2 := by
    simp [osAvx512Enabled, osxsave, imp_iff_not_or, or_assoc]
  simp only [undefinedOpcode, undefinedConditions, Bool.or_eq_true, beq_iff_eq, Bool.and_eq_true, Bool.not_eq_true', h64, hfeatures, hos,
    overlaps_iff, or_assoc]

/-- Settles O26: `#UD` comes from the conditions of the model, which are those of the spec. -/
theorem undefinedOpcodeExactly : Obligations.UndefinedOpcodeExactly := by
  intro i s hmode
  rw [exec_eq_complexMultiply, complexMultiply_fault_ud_iff hmode, undefinedOpcode_iff hmode]

/-- Settles O27: the check of `CR0.TS` comes after the conditions of `#UD` and before the second source is read. -/
theorem taskSwitchedRaisesDeviceNotAvailable : Obligations.TaskSwitchedRaisesDeviceNotAvailable := by
  intro i s hmode hts
  refine ⟨(undefinedOpcodeExactly i s hmode).mpr, fun hnone => ?_⟩
  rw [← undefinedOpcode_iff hmode] at hnone
  have htaskSwitched : taskSwitched s = true := hts
  rw [exec_eq_complexMultiply, complexMultiply, if_neg hmode, if_neg hnone, if_pos htaskSwitched, raise]

/-! ## Reset and INIT# -/

theorem getZmm_reset (n : VReg) : getZmm State.reset n = 0#512 := by
  simp [getZmm, State.reset]

theorem getK_reset (n : Opmask) : getK State.reset n = 0#64 := by
  simp [getK, State.reset]

theorem getGpr_reset {n : GReg} (h : n ≠ 2#4) : getGpr State.reset n = 0#64 := by
  have hne : 2 ≠ n.toNat := fun e => h (BitVec.eq_of_toNat_eq e.symm)
  simp [getGpr, State.reset, hne]

theorem taskSwitched_reset : taskSwitched State.reset = false := by decide

theorem osxsave_reset : osxsave State.reset = false := by decide

/-- Settles O2: the table's values are the fields of the reset state, and `INIT#` keeps three of them. -/
theorem resetAndInitHoldTheTablesValues : Obligations.ResetAndInitHoldTheTablesValues :=
  ⟨⟨rfl, getZmm_reset, getK_reset, fun _ => getGpr_reset, rfl, by decide, rfl, taskSwitched_reset, osxsave_reset, rfl⟩,
    fun _ => ⟨rfl, fun _ => rfl, fun _ => rfl, fun _ => rfl, rfl, rfl, rfl, taskSwitched_reset, osxsave_reset, rfl⟩⟩

/-! ## The mask bits of `MXCSR` -/

/-- Two values of `MXCSR` that agree outside the mask bits agree on every other bit. -/
theorem getLsbD_eq_of_and_not_masks {m m' : Dword} (h : m &&& ~~~0x1F80#32 = m' &&& ~~~0x1F80#32) {b : Nat}
    (hb : (0x1F80#32).getLsbD b = false) : m.getLsbD b = m'.getLsbD b := by
  by_cases h32 : b < 32
  · have hbit := congrArg (BitVec.getLsbD · b) h
    simpa only [BitVec.getLsbD_and, BitVec.getLsbD_not, hb, h32, decide_true, Bool.not_false, Bool.and_true, Bool.true_and] using hbit
  · rw [BitVec.getLsbD_of_ge m b (by omega), BitVec.getLsbD_of_ge m' b (by omega)]

/-- The flag update does not look at the mask bits. -/
theorem updateFlags_replaceMasks {m m' : Dword} (h : m &&& ~~~0x1F80#32 = m' &&& ~~~0x1F80#32) (er : Bool) (f : FpFlags) :
    updateFlags er m f = (updateFlags er m' f &&& ~~~0x1F80#32) ||| (m &&& 0x1F80#32) := by
  have hkeep : m = (m' &&& ~~~0x1F80#32) ||| (m &&& 0x1F80#32) := by
    have hall : ~~~0x1F80#32 ||| 0x1F80#32 = BitVec.allOnes 32 := by decide
    rw [← h, ← BitVec.and_or_distrib_left, hall, BitVec.and_allOnes]
  have hflags : f.setWidth 32 &&& ~~~0x1F80#32 = f.setWidth 32 := by
    revert f; decide
  rw [updateFlags, updateFlags]
  split
  · exact hkeep
  · rw [raiseFlags, raiseFlags, BitVec.and_or_distrib_right, hflags]
    nth_rewrite 1 [hkeep]
    rw [BitVec.or_assoc, BitVec.or_comm (m &&& 0x1F80#32), BitVec.or_assoc]

/-- The state with another value of `MXCSR`. -/
theorem complete_replaceMasks {s : State} {m : Dword} (h : m &&& ~~~0x1F80#32 = s.mxcsr &&& ~~~0x1F80#32) (f : Form) (o : Operands)
    (src2 : Src2) :
    complete f o src2 { s with mxcsr := m } =
      { complete f o src2 s with mxcsr := ((complete f o src2 s).mxcsr &&& ~~~0x1F80#32) ||| (m &&& 0x1F80#32) } := by
  have hrc : mxcsrRc m = mxcsrRc s.mxcsr := by
    refine BitVec.eq_of_getLsbD_eq fun j hj => ?_
    have hbit : (0x1F80#32).getLsbD (13 + j) = false := by revert j; decide
    simp only [mxcsrRc, BitVec.getLsbD_extractLsb', getLsbD_eq_of_and_not_masks h hbit]
  have hdaz : mxcsrDaz m = mxcsrDaz s.mxcsr := getLsbD_eq_of_and_not_masks h (by decide)
  have hftz : mxcsrFtz m = mxcsrFtz s.mxcsr := getLsbD_eq_of_and_not_masks h (by decide)
  have henv (er : Option Rounding) : fpEnv { s with mxcsr := m } er = fpEnv s er := by
    simp only [fpEnv, hrc, hdaz, hftz]
  have helements : destElements f o src2 { s with mxcsr := m } = destElements f o src2 s := by
    refine List.map_congr_left fun e _ => ?_
    rw [destElement, henv]
    rfl
  rw [complete, destValue, raisedFlags, helements, updateFlags_replaceMasks h]
  rfl

/-- Settles O33: the checks do not read `MXCSR`, and the completion reads its other bits only. -/
theorem exceptionMasksHaveNoInfluence : Obligations.ExceptionMasksHaveNoInfluence := by
  intro i s m h
  rw [exec_eq_complexMultiply, exec_eq_complexMultiply]
  exact complexMultiply_eq_mapNext (s' := { s with mxcsr := m })
    (g := fun t => { t with mxcsr := (t.mxcsr &&& ~~~0x1F80#32) ||| (m &&& 0x1F80#32) })
    rfl rfl rfl (by cases src2Of i <;> rfl) (complete_replaceMasks h _ _ _)

end Sys2Proof.Machine
end

section
/-! The memory second source: the bytes it checks and the faults they give (20_memory.md R55 to R60, 60_exceptions.md R178 to R180), its
address under all prefixes (30_encoding.md R101 to R106), and the elements read there (20_memory.md R50, R53, R54). -/

namespace Sys2Proof.Machine

/-! ## The segment of a memory operand -/

theorem true_mem_fsGsOverrides_iff {legacy : List LegacyPrefix} : true ∈ fsGsOverrides legacy ↔ LegacyPrefix.fs ∈ legacy := by
  induction legacy with
  | nil => simp [fsGsOverrides]
  | cons p ps ih => cases p <;> simp [fsGsOverrides, ih]

theorem false_mem_fsGsOverrides_iff {legacy : List LegacyPrefix} : false ∈ fsGsOverrides legacy ↔ LegacyPrefix.gs ∈ legacy := by
  induction legacy with
  | nil => simp [fsGsOverrides]
  | cons p ps ih => cases p <;> simp [fsGsOverrides, ih]

/-- The segment by the FS and GS prefixes there are. -/
theorem segmentUsed_eq (legacy : List LegacyPrefix) (m : MemOperand) :
    segmentUsed legacy m =
      if LegacyPrefix.fs ∈ legacy ∧ LegacyPrefix.gs ∈ legacy then if Config.fsWinsOverGs (fsGsOverrides legacy) then .fs else .gs
      else if LegacyPrefix.fs ∈ legacy then .fs else if LegacyPrefix.gs ∈ legacy then .gs else defaultSegment m := by
  simp only [segmentUsed, Bool.and_eq_true, List.contains_iff_mem, true_mem_fsGsOverrides_iff, false_mem_fsGsOverrides_iff]

/-- The default segment is SS or DS. -/
theorem defaultSegment_eq_ss_iff {m : MemOperand} :
    defaultSegment m = .ss ↔ (∃ r d, m = .base r d ∧ (r = 4#4 ∨ r = 5#4)) ∨ ∃ sc x r d, m = .sib sc x r d ∧ (r = 4#4 ∨ r = 5#4) := by
  cases m <;> simp [defaultSegment, ← or_iff_not_imp_left]

theorem defaultSegment_eq_ss_or_ds (m : MemOperand) : defaultSegment m = .ss ∨ defaultSegment m = .ds := by
  cases m with
  | ripRelative d | sibNoBase sc x d => exact .inr rfl
  | base r d | sib sc x r d => rw [defaultSegment]; split <;> simp

theorem segmentUsed_eq_ss_iff {legacy : List LegacyPrefix} {m : MemOperand} :
    segmentUsed legacy m = .ss ↔ usesStackSegment legacy m := by
  rw [segmentUsed_eq, usesStackSegment, ← defaultSegment_eq_ss_iff]
  split_ifs <;> simp_all

/-! ## The answer of an enabled form -/

theorem exec_of_src2Fault_some {i : Instr} {s : State} {e : Fault} (hen : enabled s (formOf i).vl = true)
    (hlegal : legalOperands (operandsOf i) (src2Of i) = true)
    (h : src2Fault s (formOf i).vl (operandsOf i) (src2Of i) (ripNext s (operandsOf i) (src2Of i)) = some e) : exec i s = .fault e := by
  have hmode : s.mode ≠ .bits32 := by simp [mode_of_enabled hen]
  rw [exec_eq_complexMultiply, complexMultiply, if_neg hmode, undefinedOpcode_of_enabled hen hlegal, if_neg Bool.false_ne_true,
    taskSwitched_of_enabled hen, if_neg Bool.false_ne_true, h]
  rfl

theorem exec_of_src2Fault_none {i : Instr} {s : State} (hen : enabled s (formOf i).vl = true)
    (hlegal : legalOperands (operandsOf i) (src2Of i) = true)
    (h : src2Fault s (formOf i).vl (operandsOf i) (src2Of i) (ripNext s (operandsOf i) (src2Of i)) = none) : ∃ t, exec i s = .next t :=
  ⟨_, exec_next_iff.mpr
    ⟨by simp [mode_of_enabled hen], undefinedOpcode_of_enabled hen hlegal, taskSwitched_of_enabled hen, h, rfl⟩⟩

/-! ## Faults of the checked bytes -/

theorem memoryFault_of_not_canonical {s : State} {seg : Segment} {addrs : List Qword} (h : ∃ a ∈ addrs, canonical a = false) :
    memoryFault s seg addrs = some (if seg = .ss then .ss else .gp) := by
  rw [memoryFault, if_pos]
  simpa using h

/-- An unreadable address is reported with the region that blocks it (60_exceptions.md R180). -/
theorem pageFault_code {s : State} {a : Qword} (h : readable s a.toNat = false) :
    ∃ code : PageFaultCode, pageFault s a.toNat = .pf code a ∧ code.write = false ∧ code.fetch = false ∧ code.user = (s.cpl == 3#2) ∧
      ((∀ r ∈ s.blocked, r.first ≤ a.toNat → a.toNat ≤ r.last → r.protection = .notPresent) → code.present = false) ∧
      ((∀ r ∈ s.blocked, r.first ≤ a.toNat → a.toNat ≤ r.last → r.protection ≠ .notPresent) → code.present = true) := by
  obtain ⟨r, hr⟩ : ∃ r, blockingRegion s a.toNat = some r := Option.isSome_iff_exists.mp (by simpa [readable] using h)
  have hblocks := List.find?_some hr
  simp only [Region.blocks, Bool.and_eq_true, decide_eq_true_eq] at hblocks
  obtain ⟨⟨hfirst, hlast⟩, -⟩ := hblocks
  have hmem : r ∈ s.blocked := List.mem_of_find?_eq_some hr
  refine ⟨_, by rw [pageFault, BitVec.ofNat_toNat, BitVec.setWidth_eq], rfl, rfl, rfl, fun hall => ?_, fun hall => ?_⟩
  · simp [hr, hall r hmem hfirst hlast]
  · simp [hr, hall r hmem hfirst hlast]

/-- Of canonical bytes the lowest unreadable one is reported (60_exceptions.md R178, D18). -/
theorem memoryFault_of_unreadable {s : State} {addrs : List Qword} (seg : Segment) (hcanonical : ∀ a ∈ addrs, canonical a = true)
    (h : ∃ a ∈ addrs, readable s a.toNat = false) :
    ∃ a, lowestUnreadable s addrs a ∧ memoryFault s seg addrs = some (pageFault s a.toNat) := by
  obtain ⟨b, hb, hbread⟩ := h
  have hbmem : b.toNat ∈ (addrs.map BitVec.toNat).filter fun a => !readable s a :=
    List.mem_filter.mpr ⟨List.mem_map_of_mem hb, by simp [hbread]⟩
  cases hmin : ((addrs.map BitVec.toNat).filter fun a => !readable s a).min? with
  | none => simp [List.min?_eq_none_iff.mp hmin] at hbmem
  | some x =>
    obtain ⟨hx, hle⟩ := List.min?_eq_some_iff.mp hmin
    obtain ⟨hxmem, hxread⟩ := List.mem_filter.mp hx
    obtain ⟨a, ha, rfl⟩ := List.mem_map.mp hxmem
    refine ⟨a, ⟨ha, by simpa using hxread, fun c hc hcread => hle _ ?_⟩, ?_⟩
    · exact List.mem_filter.mpr ⟨List.mem_map_of_mem hc, by simp [hcread]⟩
    · have hany : (addrs.any fun a => !canonical a) = false := by simpa using hcanonical
      simp [memoryFault, hany, hmin]

/-- Without alignment checking the checked bytes alone decide. -/
theorem src2Fault_of_not_alignmentCheck {s : State} {vl : VecLen} {o : Operands} {broadcast : Bool} {m : MemOperand} {next : Qword}
    (h : alignmentCheck s = false) :
    src2Fault s vl o (.mem broadcast m) next =
      memoryFault s (segmentUsed o.legacy m)
        (checkedAddresses s o.mask vl broadcast (src2Address s vl o (.mem broadcast m) next)) := by
  simp only [src2Fault, operandFault_eq_memoryFault, alignmentFault_eq_none (.inl h)]
  split
  next f hf => exact hf.symm
  next hnone => exact hnone.symm

/-- Settles O28: the checked bytes decide, by the fault that their memory check gives. -/
theorem memoryFaultsComeFromTheCheckedBytes : Obligations.MemoryFaultsComeFromTheCheckedBytes := by
  intro i s broadcast m hsrc2 hen hlegal hcheck lin addrs
  have hfault : src2Fault s (formOf i).vl (operandsOf i) (src2Of i) (ripNext s (operandsOf i) (src2Of i)) =
      memoryFault s (segmentUsed (operandsOf i).legacy m) addrs := by
    simp only [addrs, lin, hsrc2, src2Fault_of_not_alignmentCheck hcheck]
  refine ⟨fun hnon => ⟨fun hss => ?_, fun hss => ?_⟩, fun hcanonical hunreadable => ?_, fun hall => ?_⟩
  · refine exec_of_src2Fault_some hen hlegal ?_
    rw [hfault, memoryFault_of_not_canonical hnon, if_pos (segmentUsed_eq_ss_iff.mpr hss)]
  · refine exec_of_src2Fault_some hen hlegal ?_
    rw [hfault, memoryFault_of_not_canonical hnon, if_neg (segmentUsed_eq_ss_iff.not.mpr hss)]
  · obtain ⟨a, hlow, hpf⟩ := memoryFault_of_unreadable (segmentUsed (operandsOf i).legacy m) hcanonical hunreadable
    obtain ⟨code, hcode, hfields⟩ := pageFault_code hlow.2.1
    exact ⟨a, code, hlow, exec_of_src2Fault_some hen hlegal (by rw [hfault, hpf, hcode]), hfields⟩
  · exact exec_of_src2Fault_none hen hlegal (by rw [hfault, memoryFault_eq_none_iff.mpr hall])

/-! ## Alignment -/

theorem aligned_iff {n : Nat} {a : Qword} : aligned n a = true ↔ n ∣ a.toNat := by
  rw [aligned, beq_iff_eq, Nat.dvd_iff_mod_eq_zero]

theorem src2Fault_ne_ac {s : State} {vl : VecLen} {o : Operands} {src2 : Src2} {next : Qword}
    (h : alignmentCheck s = false ∨ (∃ n, src2 = .reg n) ∨
      ∃ bc m, src2 = .mem bc m ∧ operandBytes vl bc ∣ (src2Address s vl o src2 next).toNat) :
    src2Fault s vl o src2 next ≠ some .ac := by
  cases src2 with
  | reg n => simp [src2Fault]
  | mem broadcast m =>
    have hnone : alignmentFault s o.mask vl broadcast (src2Address s vl o (.mem broadcast m) next) = none := by
      refine alignmentFault_eq_none ?_
      rcases h with hcheck | ⟨n, hreg⟩ | ⟨_, _, hmem, hdvd⟩
      · exact .inl hcheck
      · cases hreg
      · cases hmem
        exact .inr (aligned_iff.mpr hdvd)
    simp only [src2Fault, operandFault_eq_memoryFault, hnone]
    split
    next f hf => exact fun hac => memoryFault_ne_ac s _ _ (hf.trans hac)
    next => simp

theorem complexMultiply_ne_ac {f : Form} {o : Operands} {src2 : Src2} {s : State}
    (h : src2Fault s f.vl o src2 (ripNext s o src2) ≠ some .ac) : complexMultiply f o src2 s ≠ .fault .ac := by
  unfold complexMultiply raise
  split_ifs
  · simp
  · simp
  · simp
  · split
    next e he => exact fun hac => h (by rw [he]; cases hac; rfl)
    next => simp

/-- Without a mask every element is selected. -/
theorem anySelected_of_no_mask (s : State) (vl : VecLen) : anySelected s 0#3 vl = true := by
  have hzero : 0 < elementCount vl := by cases vl <;> decide
  exact List.any_eq_true.mpr ⟨0, List.mem_range.mpr hzero, rfl⟩

/-- An access that may be made, selects an element and is misaligned faults as the open parameter says (log 17). -/
theorem src2Fault_of_misaligned {s : State} {vl : VecLen} {o : Operands} {broadcast : Bool} {m : MemOperand} {next lin : Qword}
    (hlin : src2Address s vl o (.mem broadcast m) next = lin) (hcheck : alignmentCheck s = true) (hmask : o.mask = 0#3)
    (hmisaligned : ¬operandBytes vl broadcast ∣ lin.toNat)
    (hbytes : ∀ a ∈ operandAddresses vl broadcast lin, canonical a = true ∧ readable s a.toNat = true) :
    src2Fault s vl o (.mem broadcast m) next = if Config.misalignedFaults (operandBytes vl broadcast) lin then some .ac else none := by
  have haligned : aligned (operandBytes vl broadcast) lin = false := Bool.eq_false_iff.mpr (aligned_iff.not.mpr hmisaligned)
  simp only [src2Fault, hlin, operandFault_eq_none (memoryFault_eq_none_iff.mpr hbytes)]
  simp [alignmentFault, hcheck, hmask, anySelected_of_no_mask, haligned]

/-- Settles O29: an aligned or unchecked access gives no alignment fault, and the opaque parameter decides the rest. -/
theorem alignmentFaultsOnlyUnderAlignmentCheck : Obligations.AlignmentFaultsOnlyUnderAlignmentCheck := by
  intro i s
  constructor
  · intro h
    rw [exec_eq_complexMultiply]
    exact complexMultiply_ne_ac (src2Fault_ne_ac h)
  · intro broadcast m hsrc2 hen hlegal hmask hcheck n lin hmisaligned hbytes
    have hlin : src2Address s (formOf i).vl (operandsOf i) (.mem broadcast m) (ripNext s (operandsOf i) (.mem broadcast m)) = lin := by
      simp only [lin, hsrc2]
    have hfault := src2Fault_of_misaligned hlin hcheck hmask hmisaligned hbytes
    rw [← hsrc2] at hfault
    split
    next hfaults => exact exec_of_src2Fault_some hen hlegal (by rw [hfault, if_pos hfaults])
    next hfaults => exact exec_of_src2Fault_none hen hlegal (by rw [hfault, if_neg hfaults])

/-! ## The address of a memory operand -/

section Width

variable {w : Nat} (hw : w ≤ 64)

include hw

theorem setWidth_signExtend {v : Nat} (d : BitVec v) : (d.signExtend 64).setWidth w = d.signExtend w := by
  refine BitVec.eq_of_getLsbD_eq fun j hj => ?_
  have h64 : j < 64 := by omega
  simp only [BitVec.getLsbD_setWidth, BitVec.getLsbD_signExtend, hj, h64, decide_true, Bool.true_and]

theorem setWidth_indexTerm (s : State) (scale : BitVec 2) (x : GReg) :
    (indexTerm s scale x).setWidth w = if x = 4 then 0 else (getGpr s x).setWidth w * BitVec.ofNat w (2 ^ scale.toNat) := by
  by_cases h4 : x = 4#4
  · simp [indexTerm, h4]
  · have h4' : ¬x = 4 := h4
    have htwo : BitVec.twoPow w scale.toNat = BitVec.ofNat w (2 ^ scale.toNat) :=
      BitVec.eq_of_toNat_eq (by rw [BitVec.toNat_twoPow, BitVec.toNat_ofNat])
    rw [indexTerm, if_neg h4, if_neg h4', BitVec.setWidth_shiftLeft_of_le hw, BitVec.shiftLeft_eq_mul_twoPow, htwo]

/-- The sum in 64 bits, cut to `w` bits, is the sum in `w` bits (30_encoding.md R105). -/
theorem setWidth_effectiveAddress64 (s : State) (next : Qword) (n : Nat) (m : MemOperand) :
    (effectiveAddress64 s next n m).setWidth w = addressSum w s next n m := by
  cases m with
  | ripRelative d => simp [effectiveAddress64, addressSum, BitVec.setWidth_add _ _ hw, setWidth_signExtend hw]
  | sibNoBase sc x d =>
    simp [effectiveAddress64, addressSum, BitVec.setWidth_add _ _ hw, setWidth_signExtend hw, setWidth_indexTerm hw]
  | base r d | sib sc x r d =>
    cases d <;>
      simp [effectiveAddress64, addressSum, displacementTerm, BitVec.setWidth_add _ _ hw, BitVec.setWidth_mul _ _ hw,
        setWidth_signExtend hw, setWidth_indexTerm hw, BitVec.setWidth_ofNat_of_le hw]

end Width

theorem effectiveAddress_eq (s : State) (legacy : List LegacyPrefix) (next : Qword) (n : Nat) (m : MemOperand) :
    effectiveAddress s legacy next n m =
      if LegacyPrefix.addressSize ∈ legacy then (addressSum 32 s next n m).setWidth 64 else addressSum 64 s next n m := by
  rw [effectiveAddress, setWidth_effectiveAddress64 (by decide), ← setWidth_effectiveAddress64 (Nat.le_refl 64), BitVec.setWidth_eq]

/-- In 64-bit mode a segment other than FS and GS adds nothing (10_state.md R33). -/
theorem segmentBase_segmentUsed {s : State} (hmode : s.mode = .bits64) (legacy : List LegacyPrefix) (m : MemOperand) :
    segmentBase s (segmentUsed legacy m) = overrideBase s legacy := by
  have hdefault : segmentBase s (defaultSegment m) = 0#64 := by
    rcases defaultSegment_eq_ss_or_ds m with h | h <;> simp [h, segmentBase, hmode]
  rw [segmentUsed_eq, overrideBase]
  split_ifs
  · rfl
  · rfl
  · rfl
  · rfl
  · exact hdefault

/-- Settles O31: the effective address is the sum, and the segment used adds the base of the override. -/
theorem addressPrefixesChangeTheAddress : Obligations.AddressPrefixesChangeTheAddress := by
  intro s legacy next n m hmode
  rw [linearAddress, effectiveAddress_eq, segmentBase_segmentUsed hmode, linearSum]

/-! ## The elements of a memory second source -/

theorem mode_of_exec_next {i : Instr} {s t : State} (h : exec i s = .next t) : s.mode = .bits64 := by
  obtain ⟨h32, hud, -, -, -⟩ := exec_next_iff.mp h
  rw [← Bool.not_eq_true, undefinedOpcode_iff h32, undefinedConditions] at hud
  push Not at hud
  exact hud.1

/-- The four bytes of a dword, lowest first, put it together (20_memory.md R50). -/
theorem readDword_eq {s : State} {a : Qword} {d : Dword}
    (h : ∀ k < 4, d.extractLsb' (8 * k) 8 = readByte s (a + BitVec.ofNat 64 k)) : readDword s a = d := by
  have h0 := h 0 (by decide)
  have h1 := h 1 (by decide)
  have h2 := h 2 (by decide)
  have h3 := h 3 (by decide)
  rw [BitVec.add_zero] at h0
  rw [readDword, ← h0, ← h1, ← h2, ← h3]
  exact append_bytes d

/-- Settles O30: a selected element is the product with the dword read at its address, which `linearSum` gives. -/
theorem memoryElementsComeFromTheEffectiveAddress : Obligations.MemoryElementsComeFromTheEffectiveAddress := by
  intro i s t broadcast m h hsrc2 n lin e he hsel d hbytes
  have hn : operandBytes (formOf i).vl broadcast = n := by
    simp only [n]
    cases broadcast <;> cases (formOf i).vl <;> rfl
  have hlin : src2Address s (formOf i).vl (operandsOf i) (src2Of i) (ripNext s (operandsOf i) (src2Of i)) = lin := by
    rw [ripNext, ← encode_length, hsrc2, src2Address, hn, addressPrefixesChangeTheAddress s _ _ _ _ (mode_of_exec_next h)]
  have helement : src2Element s (src2Of i) lin e = d := by
    rw [hsrc2]
    cases broadcast with
    | true => exact readDword_eq (by simpa using hbytes)
    | false => exact readDword_eq (by simpa using hbytes)
  rw [getZmm_dest_of_exec_next h, dwordAt_destValue _ _ _ s e he, destElement_of_selected hsel, elementOf, hlin, helement]

end Sys2Proof.Machine
end

section
/-! What an execution depends on (10_state.md R39): two states that agree on the read set of an instruction get the same answer. -/

namespace Sys2Proof.Machine

/-! ## Memory checks and reads -/

section SameMemory

variable {s s' : State}

theorem memoryFault_congr (hcpl : s.cpl = s'.cpl) (hblocked : s.blocked = s'.blocked) (seg : Segment) (addrs : List Qword) :
    memoryFault s seg addrs = memoryFault s' seg addrs := by
  have hregion : blockingRegion s = blockingRegion s' := by
    funext a
    rw [blockingRegion, blockingRegion, hcpl, hblocked]
  have hfault : pageFault s = pageFault s' := by
    funext a
    rw [pageFault, pageFault, hregion, hcpl]
  simp only [memoryFault, readable, hregion, hfault]

theorem readDword_congr {a : Qword} (h : ∀ k < 4, readByte s (a + BitVec.ofNat 64 k) = readByte s' (a + BitVec.ofNat 64 k)) :
    readDword s a = readDword s' a := by
  have h0 := h 0 (by decide)
  have h1 : readByte s (a + 1#64) = readByte s' (a + 1#64) := h 1 (by decide)
  have h2 : readByte s (a + 2#64) = readByte s' (a + 2#64) := h 2 (by decide)
  have h3 : readByte s (a + 3#64) = readByte s' (a + 3#64) := h 3 (by decide)
  rw [BitVec.add_zero] at h0
  rw [readDword, readDword, h0, h1, h2, h3]

end SameMemory

/-- The bytes of a selected element are among the selected addresses (20_memory.md R55). -/
theorem mem_selectedAddresses {s : State} {mask : Opmask} {vl : VecLen} {e : Nat} (he : e < elementCount vl)
    (hsel : selected s mask e = true) (lin : Qword) {k : Nat} (hk : k < 4) :
    lin + BitVec.ofNat 64 k ∈ selectedAddresses s mask vl true lin ∧
      lin + BitVec.ofNat 64 (4 * e) + BitVec.ofNat 64 k ∈ selectedAddresses s mask vl false lin := by
  constructor
  · have hany : anySelected s mask vl = true := List.any_eq_true.mpr ⟨e, List.mem_range.mpr he, hsel⟩
    rw [selectedAddresses, if_pos rfl, hany, if_pos rfl]
    exact List.mem_map_of_mem (List.mem_range.mpr hk)
  · have hdiv : (4 * e + k) / 4 = e := by omega
    rw [selectedAddresses, if_neg Bool.false_ne_true, BitVec.add_assoc, ← BitVec.ofNat_add]
    refine List.mem_map_of_mem (List.mem_filter.mpr ⟨List.mem_range.mpr (by rw [vectorBytes]; omega), ?_⟩)
    rw [hdiv, hsel]

/-! ## The parts of an answer -/

section SameReads

variable {i : Instr} {s s' : State} (h : sameReads i s s')

include h

theorem undefinedOpcode_of_sameReads :
    undefinedOpcode s (formOf i).vl (operandsOf i) (src2Of i) = undefinedOpcode s' (formOf i).vl (operandsOf i) (src2Of i) := by
  obtain ⟨hmode, hfeatures, hos, -⟩ := h
  simp only [undefinedOpcode, hasFeatures, hmode, hfeatures, hos]

theorem src2Fault_of_sameReads :
    src2Fault s (formOf i).vl (operandsOf i) (src2Of i) (ripNext s (operandsOf i) (src2Of i)) =
      src2Fault s' (formOf i).vl (operandsOf i) (src2Of i) (ripNext s' (operandsOf i) (src2Of i)) := by
  obtain ⟨-, -, -, -, hsel, -, -, -, -, -, hsrc2⟩ := h
  cases hform : src2Of i with
  | reg n => rfl
  | mem broadcast m =>
    simp only [hform] at hsrc2
    obtain ⟨hlin, hcheck, hcpl, hblocked, -⟩ := hsrc2
    simp only [src2Fault, hlin, operandFault, memoryFault_congr hcpl hblocked, selectedAddresses_congr hsel, alignmentFault, hcheck,
      anySelected_congr hsel]

theorem fpEnv_of_sameReads : fpEnv s (formOf i).er = fpEnv s' (formOf i).er := by
  obtain ⟨-, -, -, -, -, -, -, hrc, hdaz, hftz, -⟩ := h
  rw [fpEnv, fpEnv, hdaz, hftz]
  cases her : (formOf i).er with
  | none => rw [hrc her]
  | some rc => rfl

theorem src2Element_of_sameReads {e : Nat} (he : e < elementCount (formOf i).vl) (hesel : selected s (operandsOf i).mask e = true) :
    src2Element s (src2Of i) (src2Address s (formOf i).vl (operandsOf i) (src2Of i) (ripNext s (operandsOf i) (src2Of i))) e =
      src2Element s' (src2Of i) (src2Address s' (formOf i).vl (operandsOf i) (src2Of i) (ripNext s' (operandsOf i) (src2Of i))) e := by
  obtain ⟨-, -, -, -, -, -, -, -, -, -, hsrc2⟩ := h
  cases hform : src2Of i with
  | reg n =>
    simp only [hform] at hsrc2
    exact hsrc2 e he
  | mem broadcast m =>
    simp only [hform] at hsrc2
    obtain ⟨hlin, -, -, -, hbytes⟩ := hsrc2
    rw [hlin]
    cases broadcast with
    | true => exact readDword_congr fun k hk => hbytes _ (mem_selectedAddresses he hesel _ hk).1
    | false => exact readDword_congr fun k hk => hbytes _ (mem_selectedAddresses he hesel _ hk).2

/-- Each element of the new destination and its flags. -/
theorem destElement_of_sameReads {e : Nat} (he : e < elementCount (formOf i).vl) :
    destElement (formOf i) (operandsOf i) (src2Of i) s e = destElement (formOf i) (operandsOf i) (src2Of i) s' e := by
  obtain ⟨-, -, -, -, hsel, hsrc1, hdest, -⟩ := id h
  cases hesel : selected s (operandsOf i).mask e with
  | true =>
    have hesel' : selected s' (operandsOf i).mask e = true := (hsel e he).symm.trans hesel
    rw [destElement, destElement, if_pos hesel, if_pos hesel', fpEnv_of_sameReads h, hsrc1 e he, src2Element_of_sameReads h he hesel]
  | false =>
    have hesel' : selected s' (operandsOf i).mask e = false := (hsel e he).symm.trans hesel
    rw [destElement_unselected hesel, destElement_unselected hesel']
    cases hz : (operandsOf i).zeroing with
    | true => rfl
    | false =>
      have hmask : (operandsOf i).mask ≠ 0#3 := fun h0 => by simp [selected, h0] at hesel
      rw [hdest hmask hz e he]

theorem destElements_of_sameReads :
    destElements (formOf i) (operandsOf i) (src2Of i) s = destElements (formOf i) (operandsOf i) (src2Of i) s' :=
  List.map_congr_left fun _ he => destElement_of_sameReads h (List.mem_range.mp he)

theorem addedFlags_of_sameReads :
    addedFlags (formOf i) (operandsOf i) (src2Of i) s = addedFlags (formOf i) (operandsOf i) (src2Of i) s' := by
  simp only [addedFlags, ← raisedFlags_eq_selectedFlags, raisedFlags, destElements_of_sameReads h]

end SameReads

/-- Settles O34: the checks give the same answer in both states, and the completions differ in what was not read. -/
theorem answersDependOnTheReadSetOnly : Obligations.AnswersDependOnTheReadSetOnly := by
  intro i s s' h
  obtain ⟨hmode, -, -, hts, -⟩ := id h
  rw [sameAnswer, exec_eq_complexMultiply, exec_eq_complexMultiply, complexMultiply, complexMultiply, ← hmode,
    ← undefinedOpcode_of_sameReads h, ← hts, ← src2Fault_of_sameReads h]
  by_cases h32 : s.mode = .bits32
  · simp [h32]
  cases undefinedOpcode s (formOf i).vl (operandsOf i) (src2Of i)
  case true => simp [h32, raise]
  cases taskSwitched s
  case true => simp [h32, raise]
  cases src2Fault s (formOf i).vl (operandsOf i) (src2Of i) (ripNext s (operandsOf i) (src2Of i)) with
  | some e => simp [h32, raise]
  | none =>
    simp only [h32, if_false, Bool.false_eq_true]
    refine ⟨?_, ⟨addedFlags (formOf i) (operandsOf i) (src2Of i) s, mxcsr_complete_eq_raiseFlags _ _ _ s, ?_⟩, ?_⟩
    · rw [getZmm_complete_same, getZmm_complete_same, destValue, destValue, destElements_of_sameReads h]
    · rw [mxcsr_complete_eq_raiseFlags, addedFlags_of_sameReads h]
    · rw [complete_rip, complete_rip, ripNext, ripNext, BitVec.add_comm, BitVec.add_sub_cancel, BitVec.add_comm, BitVec.add_sub_cancel]

end Sys2Proof.Machine
end

section
/-! The source's three loops (40_complex_multiply.md R133) as writes of elements in place: each leaves at a position what it put there,
and the third reads a first source that it never writes. -/

namespace Sys2Proof.Machine

/-! ## Elements in place -/

theorem zmm_eq_of_dwordAt {v w : Zmm} (h : ∀ e < 16, dwordAt v e = dwordAt w e) : v = w := by
  refine BitVec.eq_of_getLsbD_eq fun b hb => ?_
  rw [getLsbD_eq_getLsbD_dwordAt, getLsbD_eq_getLsbD_dwordAt w, h (b / 32) (by omega)]

theorem getLsbD_dwordAt (v : Zmm) (e : Nat) {b : Nat} (hb : b < 32) : (dwordAt v e).getLsbD b = v.getLsbD (32 * e + b) := by
  rw [dwordAt, BitVec.getLsbD_extractLsb', decide_eq_true hb, Bool.true_and]

theorem fp16At_even (v : Zmm) (e : Nat) : fp16At v (2 * e) = realPart (dwordAt v e) := by
  refine BitVec.eq_of_getLsbD_eq fun b hb => ?_
  have hpos : 16 * (2 * e) + b = 32 * e + (0 + b) := by omega
  simp only [fp16At, realPart, BitVec.getLsbD_extractLsb', getLsbD_dwordAt v e (by omega : 0 + b < 32), hpos]

theorem fp16At_odd (v : Zmm) (e : Nat) : fp16At v (2 * e + 1) = imagPart (dwordAt v e) := by
  refine BitVec.eq_of_getLsbD_eq fun b hb => ?_
  have hpos : 16 * (2 * e + 1) + b = 32 * e + (16 + b) := by omega
  simp only [fp16At, imagPart, BitVec.getLsbD_extractLsb', getLsbD_dwordAt v e (by omega : 16 + b < 32), hpos]

/-- A written half holds the new value, and every other bit keeps its own. -/
theorem getLsbD_putFp16 (x : Zmm) (j : Nat) (v : Fp16) {b : Nat} (hb : b < 512) :
    (putFp16 x j v).getLsbD b = if 16 * j ≤ b ∧ b < 16 * j + 16 then v.getLsbD (b - 16 * j) else x.getLsbD b := by
  simp only [putFp16, BitVec.getLsbD_or, BitVec.getLsbD_and, BitVec.getLsbD_not, BitVec.getLsbD_shiftLeft, BitVec.getLsbD_setWidth,
    BitVec.getLsbD_allOnes, hb, decide_true, Bool.true_and]
  by_cases hin : 16 * j ≤ b ∧ b < 16 * j + 16
  · have hlow : ¬b < 16 * j := by omega
    have hhigh : b - 16 * j < 16 := by omega
    have hwide : b - 16 * j < 512 := by omega
    simp [hin, hlow, hhigh, hwide]
  · by_cases hlow : b < 16 * j
    · simp [hin, hlow]
    · have hhigh : ¬b - 16 * j < 16 := by omega
      have hzero : v.getLsbD (b - 16 * j) = false := BitVec.getLsbD_of_ge v _ (by omega)
      simp [hin, hhigh, hzero]

/-- A written element holds the pair, and every other element keeps its own. -/
theorem dwordAt_putPair (x : Zmm) (i : Nat) (re im : Fp16) {e : Nat} (he : e < 16) :
    dwordAt (putPair x i re im) e = if e = i then pairOf re im else dwordAt x e := by
  refine BitVec.eq_of_getLsbD_eq fun b hb => ?_
  have h512 : 32 * e + b < 512 := by omega
  rw [getLsbD_dwordAt _ _ hb, putPair, getLsbD_putFp16 _ _ _ h512, getLsbD_putFp16 _ _ _ h512]
  by_cases hei : e = i
  · subst hei
    rw [if_pos rfl, pairOf, BitVec.getLsbD_append]
    by_cases hhalf : b < 16
    · have hodd : ¬(16 * (2 * e + 1) ≤ 32 * e + b ∧ 32 * e + b < 16 * (2 * e + 1) + 16) := by omega
      have heven : 16 * (2 * e) ≤ 32 * e + b ∧ 32 * e + b < 16 * (2 * e) + 16 := by omega
      have hsub : 32 * e + b - 16 * (2 * e) = b := by omega
      rw [if_neg hodd, if_pos heven, hsub, if_pos hhalf]
    · have hodd : 16 * (2 * e + 1) ≤ 32 * e + b ∧ 32 * e + b < 16 * (2 * e + 1) + 16 := by omega
      have hsub : 32 * e + b - 16 * (2 * e + 1) = b - 16 := by omega
      rw [if_pos hodd, hsub, if_neg hhalf]
  · have hodd : ¬(16 * (2 * i + 1) ≤ 32 * e + b ∧ 32 * e + b < 16 * (2 * i + 1) + 16) := by omega
    have heven : ¬(16 * (2 * i) ≤ 32 * e + b ∧ 32 * e + b < 16 * (2 * i) + 16) := by omega
    rw [if_neg hodd, if_neg heven, if_neg hei, getLsbD_dwordAt _ _ hb]

/-! ## A loop that writes elements in place -/

/-- Writes the elements that there are, each at its place. -/
def putElements (g : Nat → Option Dword) (n : Nat) (x : Zmm) : Zmm :=
  (List.range n).foldl (init := x) fun acc i =>
    match g i with
    | some d => putPair acc i (realPart d) (imagPart d)
    | none => acc

theorem pairOf_realPart_imagPart (d : Dword) : pairOf (realPart d) (imagPart d) = d :=
  BitVec.extractLsb'_append_extractLsb'

theorem dwordAt_putElements (g : Nat → Option Dword) (n : Nat) (x : Zmm) {e : Nat} (he : e < 16) :
    dwordAt (putElements g n x) e = if e < n then (g e).getD (dwordAt x e) else dwordAt x e := by
  induction n with
  | zero => rfl
  | succ n ih =>
    have hstep : putElements g (n + 1) x = match g n with
        | some d => putPair (putElements g n x) n (realPart d) (imagPart d)
        | none => putElements g n x := by
      rw [putElements, List.range_succ, List.foldl_append]
      rfl
    rw [hstep]
    by_cases hen : e = n
    · subst hen
      have hlt : ¬e < e := by omega
      rw [if_neg hlt] at ih
      cases hg : g e with
      | some d => simp [dwordAt_putPair _ _ _ _ he, pairOf_realPart_imagPart]
      | none => simp [ih]
    · have hlt : e < n + 1 ↔ e < n := by omega
      cases hg : g n with
      | some d => simp [dwordAt_putPair _ _ _ _ he, hen, ih, hlt]
      | none => simp [ih, hlt]

/-! ## The three loops -/

section Loops

variable (f : Form) (o : Operands) (src2 : Src2) (s : State)

/-- An element of the second source, where it is selected. -/
def tsrc2Element (i : Nat) : Option Dword :=
  if selected s o.mask i then some (src2Element s src2 (src2Address s f.vl o src2 (ripNext s o src2)) i) else none

/-- The two products of the second loop, where the element is selected. -/
def tmpElement (tsrc2 : Zmm) (i : Nat) : Option Dword :=
  if selected s o.mask i then
    let a := dwordAt (getZmm s o.src1) i
    let b := dwordAt tsrc2 i
    some (pairOf (fp16Mul (fpEnv s f.er) (realPart a) (realPart b)).1 (fp16Mul (fpEnv s f.er) (imagPart a) (realPart b)).1)
  else none

/-- What the third loop writes: the fused operations on a selected element, zeros under zeroing. -/
def destUpdate (tsrc2 tmp : Zmm) (i : Nat) : Option Dword :=
  if selected s o.mask i then
    let a := dwordAt (getZmm s o.src1) i
    let b := dwordAt tsrc2 i
    let t := dwordAt tmp i
    some (pairOf (fp16Fma (fpEnv s f.er) (!f.conj) (imagPart a) (imagPart b) (realPart t)).1
      (fp16Fma (fpEnv s f.er) f.conj (realPart a) (imagPart b) (imagPart t)).1)
  else if o.zeroing then some 0#32
  else none

theorem tsrc2Loop_eq (tsrc2 : Zmm) : tsrc2Loop f o src2 s tsrc2 = putElements (tsrc2Element f o src2 s) (elementCount f.vl) tsrc2 := by
  rw [tsrc2Loop, putElements]
  congr 1
  funext acc i
  cases hsel : selected s o.mask i <;> simp [tsrc2Element, hsel]

theorem tmpLoop_eq (tsrc2 tmp : Zmm) :
    tmpLoop f o s tsrc2 tmp = putElements (tmpElement f o s tsrc2) (elementCount f.vl) tmp := by
  rw [tmpLoop, putElements]
  congr 1
  funext acc i
  cases hsel : selected s o.mask i <;> simp [tmpElement, hsel, fp16At_even, fp16At_odd]

theorem setZmm_setZmm (n : VReg) (v w : Zmm) : setZmm (setZmm s n v) n w = setZmm s n w := by
  simp [setZmm]

theorem setZmm_getZmm (n : VReg) : setZmm s n (getZmm s n) = s := by
  simp [setZmm, getZmm]

/-- Writing the destination in place leaves the first source as it was, if they are two registers (30_encoding.md R98). -/
theorem destLoop_eq (hdest : o.dest ≠ o.src1) (tsrc2 tmp : Zmm) :
    destLoop f o s tsrc2 tmp =
      setZmm s o.dest (putElements (destUpdate f o s tsrc2 tmp) (elementCount f.vl) (getZmm s o.dest)) := by
  rw [destLoop, putElements]
  generalize List.range (elementCount f.vl) = l
  suffices h : ∀ v, l.foldl _ (setZmm s o.dest v) = setZmm s o.dest (l.foldl _ v) by
    simpa only [setZmm_getZmm] using h (getZmm s o.dest)
  induction l with
  | nil => exact fun v => rfl
  | cons i l ih =>
    intro v
    rw [List.foldl_cons, List.foldl_cons, ← ih]
    congr 1
    cases hsel : selected s o.mask i with
    | true =>
      cases hconj : f.conj <;>
        simp [destUpdate, hsel, hconj, setZmm_setZmm, getZmm_setZmm_other s o.dest o.src1 _ hdest.symm, fp16At_even, fp16At_odd,
          fp16Fmadd, fp16Fnmadd]
    | false =>
      cases hz : o.zeroing with
      | true => simp [destUpdate, hsel, hz, setZmm_setZmm]; rfl
      | false => simp [destUpdate, hsel, hz]

/-! ### The whole block -/

/-- A selected element: the loops compute its product (R136). -/
theorem destUpdate_of_selected {e : Nat} (hsel : selected s o.mask e = true) {tsrc2 tmp : Zmm}
    (htsrc2 : dwordAt tsrc2 e = src2Element s src2 (src2Address s f.vl o src2 (ripNext s o src2)) e)
    (htmp : tmpElement f o s tsrc2 e = some (dwordAt tmp e)) :
    destUpdate f o s tsrc2 tmp e = some (destElement f o src2 s e).1 := by
  rw [tmpElement, if_pos hsel, Option.some.injEq] at htmp
  rw [destElement_of_selected hsel, elementOf, destUpdate, if_pos hsel, ← htmp, htsrc2]
  cases hconj : f.conj <;> simp [cmulElement, fp16Fmadd, fp16Fnmadd]

/-- What the third loop leaves at an element of the form is the new element. -/
theorem getD_destUpdate {e : Nat} (he : e < elementCount f.vl) (tsrc2 tmp : Zmm) :
    (destUpdate f o s (tsrc2Loop f o src2 s tsrc2) (tmpLoop f o s (tsrc2Loop f o src2 s tsrc2) tmp) e).getD
        (dwordAt (getZmm s o.dest) e) = (destElement f o src2 s e).1 := by
  have h16 : e < 16 := Nat.lt_of_lt_of_le he (elementCount_le f.vl)
  cases hsel : selected s o.mask e with
  | true =>
    have htsrc2 : dwordAt (tsrc2Loop f o src2 s tsrc2) e = src2Element s src2 (src2Address s f.vl o src2 (ripNext s o src2)) e := by
      rw [tsrc2Loop_eq, dwordAt_putElements _ _ _ h16, if_pos he, tsrc2Element, if_pos hsel, Option.getD_some]
    rw [destUpdate_of_selected f o src2 s hsel htsrc2, Option.getD_some]
    rw [tmpLoop_eq, dwordAt_putElements _ _ _ h16, if_pos he, tmpElement, if_pos hsel, Option.getD_some]
  | false =>
    rw [destElement_unselected hsel, destUpdate, hsel, if_neg Bool.false_ne_true]
    cases o.zeroing <;> rfl

/-- The mask of the last assignment, `DEST[MAXVL-1:VL] := 0` (R146). -/
theorem dwordAt_and_low (v : Zmm) (vl : VecLen) (e : Nat) :
    dwordAt (v &&& (BitVec.allOnes 512 >>> (512 - 32 * elementCount vl))) e = if e < elementCount vl then dwordAt v e else 0#32 := by
  have hcount := elementCount_le vl
  refine BitVec.eq_of_getLsbD_eq fun b hb => ?_
  rw [getLsbD_dwordAt _ _ hb, BitVec.getLsbD_and, BitVec.getLsbD_ushiftRight, BitVec.getLsbD_allOnes]
  split
  next hlt =>
    have hin : 512 - 32 * elementCount vl + (32 * e + b) < 512 := by omega
    rw [decide_eq_true hin, Bool.and_true, getLsbD_dwordAt _ _ hb]
  next hge =>
    have hout : ¬512 - 32 * elementCount vl + (32 * e + b) < 512 := by omega
    rw [decide_eq_false hout, Bool.and_false, BitVec.getLsbD_zero]

theorem pseudocode_eq (hdest : o.dest ≠ o.src1) (tsrc2 tmp : Zmm) :
    pseudocode f o src2 s tsrc2 tmp = setZmm s o.dest (destValue f o src2 s) := by
  rw [pseudocode, destLoop_eq f o s hdest, getZmm_setZmm_same, setZmm_setZmm]
  congr 1
  refine zmm_eq_of_dwordAt fun e he => ?_
  rw [dwordAt_and_low]
  split
  next hlt => rw [dwordAt_putElements _ _ _ he, if_pos hlt, getD_destUpdate f o src2 s hlt, dwordAt_destValue f o src2 s e hlt]
  next hge => rw [dwordAt_destValue_upper f o src2 s e he (by omega)]

end Loops

/-- Settles O35: an execution that completes has a destination that is not its first source. -/
theorem threeLoopsOfThePseudocodeAgree : Obligations.ThreeLoopsOfThePseudocodeAgree := by
  intro i s t tsrc2 tmp h
  obtain ⟨-, hud, -, -, rfl⟩ := exec_next_iff.mp h
  have hdest : (operandsOf i).dest ≠ (operandsOf i).src1 := fun heq => by
    rw [undefinedOpcode_of_overlaps s _ (overlaps_iff.mpr (.inl heq))] at hud
    cases hud
  rw [pseudocode_eq _ _ _ s hdest]
  rfl

end Sys2Proof.Machine
end

section
/-! The classes of FP16 values, and what the operations do with NaNs, infinities, zeros and denormals: `IE`, `DE` and the results that
need no rounding (40_complex_multiply.md R121, R126 steps 1 to 5, R127 steps 1 to 7). -/

namespace Sys2Proof.Machine

/-! ## The classes exclude each other (R121) -/

theorem isZero_of_isNan {a : Fp16} (h : isNan a = true) : isZero a = false := by
  simp [isZero, (isNan_iff.mp h).1]

theorem fpExponent_of_isInf {a : Fp16} (h : isInf a = true) : fpExponent a = 31 := by
  simp only [isInf, Bool.and_eq_true, beq_iff_eq] at h
  exact h.1

theorem isDenormal_of_isInf {a : Fp16} (h : isInf a = true) : isDenormal a = false := by
  simp [isDenormal, fpExponent_of_isInf h]

theorem isDenormal_of_isZero {a : Fp16} (h : isZero a = true) : isDenormal a = false := by
  simp only [isZero, Bool.and_eq_true, beq_iff_eq] at h
  simp [isDenormal, h.2]

theorem isInf_of_isZero {a : Fp16} (h : isZero a = true) : isInf a = false := by
  simp only [isZero, Bool.and_eq_true, beq_iff_eq] at h
  simp [isInf, h.1]

theorem isSnan_of_not_isNan {a : Fp16} (h : isNan a = false) : isSnan a = false := by
  simp [isSnan, h]

theorem isQnan_of_not_isNan {a : Fp16} (h : isNan a = false) : isQnan a = false := by
  simp [isQnan, h]

theorem operandOf_of_not_daz {env : FpEnv} (h : env.daz = false) (a : Fp16) : operandOf env a = a := by
  simp [operandOf, h]

/-! ## Zero times infinity -/

/-- Neither factor of zero times infinity is a NaN or a denormal. -/
theorem not_isNan_of_zeroTimesInfinity {a b : Fp16} (h : zeroTimesInfinity a b) : isNan a = false ∧ isNan b = false := by
  rcases h with ⟨ha, hb⟩ | ⟨ha, hb⟩
  · exact ⟨isNan_of_isInf ha, by rw [← Bool.not_eq_true]; exact fun hn => by simp [isZero_of_isNan hn] at hb⟩
  · exact ⟨by rw [← Bool.not_eq_true]; exact fun hn => by simp [isZero_of_isNan hn] at ha, isNan_of_isInf hb⟩

theorem not_isDenormal_of_zeroTimesInfinity {a b : Fp16} (h : zeroTimesInfinity a b) : isDenormal a = false ∧ isDenormal b = false := by
  rcases h with ⟨ha, hb⟩ | ⟨ha, hb⟩
  · exact ⟨isDenormal_of_isInf ha, isDenormal_of_isZero hb⟩
  · exact ⟨isDenormal_of_isZero ha, isDenormal_of_isInf hb⟩

theorem zeroTimesInfinity_iff {a b : Fp16} :
    zeroTimesInfinity a b ↔ ((isInf a && isZero b) || (isZero a && isInf b)) = true := by
  simp [zeroTimesInfinity]

theorem fusedInvalid_iff {neg : Bool} {a b c : Fp16} : fusedInvalid neg a b c ↔ fmaInvalid (productSign neg a b) a b c = true := by
  simp [fusedInvalid, fmaInvalid, zeroTimesInfinity_iff, and_assoc, or_assoc]

/-! ## Single flags -/

theorem and_flagIE_ne_zero_iff {f : FpFlags} : f &&& flagIE ≠ 0#6 ↔ f.getLsbD 0 = true := by
  revert f; decide

theorem and_flagDE_ne_zero_iff {f : FpFlags} : f &&& flagDE ≠ 0#6 ↔ f.getLsbD 1 = true := by
  revert f; decide

theorem getLsbD_flagIf (c : Bool) (f : FpFlags) (b : Nat) : (flagIf c f).getLsbD b = (c && f.getLsbD b) := by
  cases c <;> simp [flagIf]

/-- Rounding raises neither `IE` nor `DE`. -/
theorem getLsbD_roundExact_of_lt (s : Bool) (mag : Nat) (rm : Rounding) {b : Nat} (hb : b < 2) :
    (roundExact s mag rm).2.getLsbD b = false := by
  have hoe : flagOE.getLsbD b = false := by revert b; decide
  have hue : flagUE.getLsbD b = false := by revert b; decide
  have hpe : flagPE.getLsbD b = false := by revert b; decide
  unfold roundExact
  dsimp only
  split_ifs <;> simp only [overflowResult, BitVec.getLsbD_or, getLsbD_flagIf, hoe, hue, hpe, Bool.and_false, Bool.or_false]

theorem getLsbD_roundFp16_of_lt (env : FpEnv) (s : Bool) (mag : Nat) {b : Nat} (hb : b < 2) :
    (roundFp16 env s mag).2.getLsbD b = false := by
  rw [roundFp16]
  split
  · exact (by revert b; decide : (flagUE ||| flagPE).getLsbD b = false)
  · exact getLsbD_roundExact_of_lt s mag env.rm hb

/-! ## Multiplication -/

section Mul

variable {env : FpEnv} {a b : Fp16}

theorem mulCore_of_nan (h : (isNan a || isNan b) = true) :
    mulCore env a b = (nanResult .mul [a, b], flagIf (isSnan a || isSnan b) flagIE) := by
  rw [mulCore, if_pos h]

theorem mulCore_of_invalid (h : zeroTimesInfinity a b) : mulCore env a b = (defaultNan, flagIE) := by
  obtain ⟨ha, hb⟩ := not_isNan_of_zeroTimesInfinity h
  simp [mulCore, ha, hb, zeroTimesInfinity_iff.mp h]

/-- Without NaN and invalid operation: infinity, zero, or a rounded product. -/
theorem mulCore_of_valid (ha : isNan a = false) (hb : isNan b = false) (h : ¬zeroTimesInfinity a b) :
    mulCore env a b =
      if isInf a || isInf b then (fpInf (fpSign a ^^ fpSign b), flagIf (isDenormal a || isDenormal b) flagDE)
      else if isZero a || isZero b then (fpZero (fpSign a ^^ fpSign b), flagIf (isDenormal a || isDenormal b) flagDE)
      else
        ((roundFp16 env (fpSign a ^^ fpSign b) (magnitude24 a * magnitude24 b)).1,
          flagIf (isDenormal a || isDenormal b) flagDE ||| (roundFp16 env (fpSign a ^^ fpSign b) (magnitude24 a * magnitude24 b)).2) := by
  rw [zeroTimesInfinity_iff] at h
  simp only [mulCore, ha, hb, Bool.or_self, Bool.false_eq_true, if_false, if_neg h]

/-- Its flags at `IE` and `DE`. -/
theorem getLsbD_mulCore_of_valid (ha : isNan a = false) (hb : isNan b = false) (h : ¬zeroTimesInfinity a b) {n : Nat} (hn : n < 2) :
    (mulCore env a b).2.getLsbD n = (flagIf (isDenormal a || isDenormal b) flagDE).getLsbD n := by
  rw [mulCore_of_valid ha hb h]
  split_ifs
  · rfl
  · rfl
  · rw [BitVec.getLsbD_or, getLsbD_roundFp16_of_lt _ _ _ hn, Bool.or_false]

end Mul

/-- Settles O43: NaN operands, the invalid operation, and everything else. -/
theorem invalidAndDenormalFlagsOfMultiplication : Obligations.InvalidAndDenormalFlagsOfMultiplication := by
  intro env a b hdaz
  rw [and_flagIE_ne_zero_iff, and_flagDE_ne_zero_iff, fp16Mul, operandOf_of_not_daz hdaz, operandOf_of_not_daz hdaz]
  by_cases hnan : (isNan a || isNan b) = true
  · have hzero : ¬zeroTimesInfinity a b := fun h => by simp [not_isNan_of_zeroTimesInfinity h] at hnan
    have hnone : ¬(isNan a = false ∧ isNan b = false) := fun h => by simp [h] at hnan
    rw [mulCore_of_nan hnan, getLsbD_flagIf, getLsbD_flagIf]
    refine ⟨by simp [hzero, flagIE], iff_of_false (by simp [flagIE]) fun h => hnone ⟨h.1, h.2.1⟩⟩
  · obtain ⟨ha, hb⟩ : isNan a = false ∧ isNan b = false := by simpa using hnan
    by_cases hzero : zeroTimesInfinity a b
    · rw [mulCore_of_invalid hzero]
      obtain ⟨hda, hdb⟩ := not_isDenormal_of_zeroTimesInfinity hzero
      exact ⟨iff_of_true (by decide) (.inr (.inr hzero)), iff_of_false (by decide) (by simp [hda, hdb])⟩
    · rw [getLsbD_mulCore_of_valid ha hb hzero (by decide), getLsbD_mulCore_of_valid ha hb hzero (by decide), getLsbD_flagIf,
        getLsbD_flagIf]
      simp [hzero, ha, hb, isSnan_of_not_isNan, flagDE]

/-! ## Fused multiply-add -/

section Fma

variable {env : FpEnv} {neg : Bool} {a b c : Fp16}

theorem fmaCore_of_nan (h : (isNan a || isNan b || isNan c) = true) :
    fmaCore env neg a b c = (nanResult (if neg then .fnmadd else .fmadd) [a, b, c], flagIf (fmaNanInvalid a b c) flagIE) := by
  rw [fmaCore, if_pos h]

/-- The flag `DE` of a fused operation (R127 step 4, R132). -/
def fusedDe (a b c : Fp16) : FpFlags := flagIf (isDenormal a || isDenormal b || (isDenormal c && Config.tmpDenormalSetsDe)) flagDE

theorem fmaCore_of_invalid (ha : isNan a = false) (hb : isNan b = false) (hc : isNan c = false) (h : fusedInvalid neg a b c) :
    fmaCore env neg a b c = (defaultNan, flagIE) := by
  rw [fusedInvalid_iff, productSign] at h
  simp only [fmaCore, ha, hb, hc, Bool.or_self, Bool.false_eq_true, if_false, if_pos h]

/-- Without NaN and invalid operation: an infinite product, an infinite addend, an exact zero, or a rounded sum. -/
theorem fmaCore_of_valid (ha : isNan a = false) (hb : isNan b = false) (hc : isNan c = false) (h : ¬fusedInvalid neg a b c) :
    fmaCore env neg a b c =
      if isInf a || isInf b then (fpInf (productSign neg a b), fusedDe a b c)
      else if isInf c then (c, fusedDe a b c)
      else if exactSum (productSign neg a b) a b c = 0 then (zeroSum env.rm (productSign neg a b) a b c, fusedDe a b c)
      else
        ((roundFp16 env (decide (exactSum (productSign neg a b) a b c < 0)) (exactSum (productSign neg a b) a b c).natAbs).1,
          fusedDe a b c |||
            (roundFp16 env (decide (exactSum (productSign neg a b) a b c < 0)) (exactSum (productSign neg a b) a b c).natAbs).2) := by
  rw [fusedInvalid_iff, productSign] at h
  simp only [fmaCore, ha, hb, hc, Bool.or_self, Bool.false_eq_true, if_false, if_neg h, fusedDe, productSign]
  rfl

theorem getLsbD_fmaCore_of_valid (ha : isNan a = false) (hb : isNan b = false) (hc : isNan c = false) (h : ¬fusedInvalid neg a b c)
    {n : Nat} (hn : n < 2) : (fmaCore env neg a b c).2.getLsbD n = (fusedDe a b c).getLsbD n := by
  rw [fmaCore_of_valid ha hb hc h]
  split_ifs
  · rfl
  · rfl
  · rfl
  · rw [BitVec.getLsbD_or, getLsbD_roundFp16_of_lt _ _ _ hn, Bool.or_false]

end Fma

/-- Settles O51: NaN operands, the invalid operations, and everything else. -/
theorem invalidAndDenormalFlagsOfFusedOperations : Obligations.InvalidAndDenormalFlagsOfFusedOperations := by
  intro env neg a b c hdaz noNan
  rw [and_flagIE_ne_zero_iff, and_flagDE_ne_zero_iff, fp16Fma, operandOf_of_not_daz hdaz, operandOf_of_not_daz hdaz,
    operandOf_of_not_daz hdaz]
  by_cases hnan : (isNan a || isNan b || isNan c) = true
  · have hnone : ¬noNan := fun ⟨ha, hb, hc⟩ => by simp [ha, hb, hc] at hnan
    rw [fmaCore_of_nan hnan, getLsbD_flagIf, getLsbD_flagIf]
    refine ⟨?_, iff_of_false (by simp [flagIE]) fun h => hnone h.1⟩
    simp [fmaNanInvalid, hnone, zeroTimesInfinity_iff, flagIE, or_assoc, and_assoc]
  · obtain ⟨⟨ha, hb⟩, hc⟩ : (isNan a = false ∧ isNan b = false) ∧ isNan c = false := by simpa using hnan
    have hsome : noNan := ⟨ha, hb, hc⟩
    by_cases hinvalid : fusedInvalid neg a b c
    · rw [fmaCore_of_invalid ha hb hc hinvalid]
      exact ⟨iff_of_true (by decide) (.inr (.inr (.inr (.inl ⟨hsome, hinvalid⟩)))),
        iff_of_false (by decide) fun h => h.2.1 hinvalid⟩
    · rw [getLsbD_fmaCore_of_valid ha hb hc hinvalid (by decide), getLsbD_fmaCore_of_valid ha hb hc hinvalid (by decide), fusedDe,
        getLsbD_flagIf, getLsbD_flagIf]
      simp [hinvalid, hsome, ha, hb, hc, isSnan_of_not_isNan, isQnan_of_not_isNan, flagDE, or_assoc]

/-! ## Exact values (R122) -/

theorem isFinite_iff {a : Fp16} : isFinite a = true ↔ isNan a = false ∧ isInf a = false := by
  simp [isFinite]

/-- Only the zeros have magnitude 0. -/
theorem magnitude24_eq_zero_iff {a : Fp16} : magnitude24 a = 0 ↔ isZero a = true := by
  rw [magnitude24, isZero, Bool.and_eq_true, beq_iff_eq, beq_iff_eq]
  split
  next h => simp [h]
  next h => simp [h]

theorem value24_eq_zero_iff {a : Fp16} : value24 a = 0 ↔ isZero a = true := by
  rw [← magnitude24_eq_zero_iff, value24]
  split <;> omega

/-- The exact product by sign and magnitude (R126 step 6). -/
theorem value24_mul_value24 (a b : Fp16) :
    value24 a * value24 b =
      if fpSign a ^^ fpSign b then -((magnitude24 a * magnitude24 b : Nat) : Int) else ((magnitude24 a * magnitude24 b : Nat) : Int) := by
  cases ha : fpSign a <;> cases hb : fpSign b <;> simp [value24, ha, hb]

/-- The exact sum of the model is that of the spec (R127 step 6). -/
theorem exactSum_eq_fusedExact (neg : Bool) (a b c : Fp16) : exactSum (productSign neg a b) a b c = fusedExact neg a b c := by
  have hsign : productSign neg a b = ((fpSign a ^^ fpSign b) ^^ neg) := by simp [productSign]
  rw [exactSum, fusedExact, value24_mul_value24, hsign]
  cases fpSign a ^^ fpSign b <;> cases neg <;> simp

theorem fpZero_eq (s : Bool) : fpZero s = if s then 0x8000#16 else 0x0000#16 := rfl

theorem fpInf_eq (s : Bool) : fpInf s = if s then 0xFC00#16 else 0x7C00#16 := rfl

theorem zeroSum_eq (rm : Rounding) (sp : Bool) (a b c : Fp16) :
    zeroSum rm sp a b c =
      if (isZero a = true ∨ isZero b = true) ∧ isZero c = true ∧ sp = fpSign c then fpZero sp
      else if rm = .rd then 0x8000#16 else 0x0000#16 := by
  have hcond : ((isZero a || isZero b) && isZero c && sp == fpSign c) = true ↔
      (isZero a = true ∨ isZero b = true) ∧ isZero c = true ∧ sp = fpSign c := by simp [and_assoc]
  cases rm <;> simp only [zeroSum, hcond] <;> rfl

/-- No flag but `DE` is among the flags of a denormal operand. -/
theorem flagIf_flagDE_and (c : Bool) : flagIf c flagDE &&& ~~~flagDE = 0#6 := by
  cases c <;> decide

/-- A finite operand pair without NaN and infinity is no invalid operation. -/
theorem not_fusedInvalid_of_isFinite {neg : Bool} {a b c : Fp16} (ha : isFinite a = true) (hb : isFinite b = true) :
    ¬fusedInvalid neg a b c := by
  simp [fusedInvalid, zeroTimesInfinity, (isFinite_iff.mp ha).2, (isFinite_iff.mp hb).2]

theorem not_zeroTimesInfinity_of_isFinite {a b : Fp16} (ha : isFinite a = true) (hb : isFinite b = true) : ¬zeroTimesInfinity a b := by
  simp [zeroTimesInfinity, (isFinite_iff.mp ha).2, (isFinite_iff.mp hb).2]

/-- Settles O52: the branches of the two operations that give infinities and zeros. -/
theorem infiniteAndZeroResults : Obligations.InfiniteAndZeroResults := by
  intro env neg a b c hdaz ha hb s sp onlyDe
  have hmul : fp16Mul env a b = mulCore env a b := by rw [fp16Mul, operandOf_of_not_daz hdaz, operandOf_of_not_daz hdaz]
  have hfma : fp16Fma env neg a b c = fmaCore env neg a b c := by
    rw [fp16Fma, operandOf_of_not_daz hdaz, operandOf_of_not_daz hdaz, operandOf_of_not_daz hdaz]
  refine ⟨fun hvalid => ⟨fun hinf => ?_, fun hzero => ?_⟩, fun hc hvalid => ⟨fun hinf => ?_, fun hainf hbinf hcinf => ?_,
    fun hafin hbfin hcfin hexact => ?_⟩⟩
  · rw [hmul, mulCore_of_valid ha hb hvalid, if_pos (by simpa using hinf)]
    exact ⟨fpInf_eq s, flagIf_flagDE_and _⟩
  · have hnoinf : ¬(isInf a || isInf b) = true := by
      rw [zeroTimesInfinity] at hvalid
      rcases hzero with h | h <;> simp_all [isInf_of_isZero h]
    rw [hmul, mulCore_of_valid ha hb hvalid, if_neg hnoinf, if_pos (by simpa using hzero)]
    exact ⟨fpZero_eq s, flagIf_flagDE_and _⟩
  · rw [hfma, fmaCore_of_valid ha hb hc hvalid, if_pos (by simpa using hinf)]
    exact ⟨fpInf_eq sp, flagIf_flagDE_and _⟩
  · rw [hfma, fmaCore_of_valid ha hb hc hvalid, if_neg (by simp [hainf, hbinf]), if_pos hcinf]
    exact ⟨rfl, flagIf_flagDE_and _⟩
  · have hnoinf : ¬(isInf a || isInf b) = true := by simp [(isFinite_iff.mp hafin).2, (isFinite_iff.mp hbfin).2]
    have hcinf : ¬isInf c = true := by simp [(isFinite_iff.mp hcfin).2]
    rw [hfma, fmaCore_of_valid ha hb hc hvalid, if_neg hnoinf, if_neg hcinf, if_pos (by rw [exactSum_eq_fusedExact, hexact]), zeroSum_eq]
    exact ⟨rfl, flagIf_flagDE_and _⟩

end Sys2Proof.Machine
end

section
/-! Rounding to FP16 (40_complex_multiply.md R124, R125). In units of `2^-48` a magnitude lies between two neighbouring multiples of a
unit, a power of two, and no FP16 value lies between them; `rint` takes one of the two. -/

namespace Sys2Proof.Machine

/-! ## Results by their fields -/

theorem fpSign_packFinite (s : Bool) (e f : Nat) : fpSign (packFinite s e f) = s := by
  rw [fpSign, packFinite, BitVec.getLsbD_append, if_neg (by decide), BitVec.getLsbD_append, if_neg (by decide)]
  cases s <;> decide

theorem fpFraction_packFinite (s : Bool) (e : Nat) {f : Nat} (hf : f < 1024) : fpFraction (packFinite s e f) = f := by
  rw [fpFraction, packFinite, BitVec.extractLsb'_append_eq_right, BitVec.toNat_ofNat, Nat.mod_eq_of_lt hf]

theorem getLsbD_zero_packFinite (s : Bool) (e f : Nat) : (packFinite s e f).getLsbD 0 = decide (f % 2 = 1) := by
  rw [packFinite, BitVec.getLsbD_append, if_pos (by decide), BitVec.getLsbD_ofNat, Nat.testBit_zero]
  simp

theorem magnitude24_packFinite (s : Bool) {e f : Nat} (he : e < 32) (hf : f < 1024) :
    magnitude24 (packFinite s e f) = if e = 0 then f else (1024 + f) * 2 ^ (e - 1) := by
  rw [magnitude24, fpExponent_packFinite s he, fpFraction_packFinite s e hf]

theorem isFinite_iff_fpExponent {a : Fp16} : isFinite a = true ↔ fpExponent a ≠ 31 := by
  simp only [isFinite, isNan, isInf]
  by_cases h : fpExponent a = 31
  · by_cases hf : fpFraction a = 0 <;> simp [h, hf]
  · simp [h]

theorem isFinite_packFinite (s : Bool) {e : Nat} (f : Nat) (he : e < 31) : isFinite (packFinite s e f) = true := by
  rw [isFinite_iff_fpExponent, fpExponent_packFinite s (by omega)]
  omega

/-- A denormal result and the smallest normal one (R125 step 3) have the fields of a packed value. -/
theorem fpZero_or_eq_packFinite (s : Bool) {q : Nat} (hq : q ≤ 1024) :
    fpZero s ||| BitVec.ofNat 16 q = packFinite s (q / 1024) (q % 1024) := by
  have hsign (b : Nat) (hb : b < 16) : (fpZero s).getLsbD b = (decide (b = 15) && s) := by
    revert b s; decide
  refine BitVec.eq_of_getLsbD_eq fun b hb => ?_
  rw [BitVec.getLsbD_or, hsign b hb, BitVec.getLsbD_ofNat, packFinite, BitVec.getLsbD_append, BitVec.getLsbD_append,
    BitVec.getLsbD_ofNat, BitVec.getLsbD_ofNat, (by decide : 1024 = 2 ^ 10), Nat.testBit_mod_two_pow, Nat.testBit_div_two_pow]
  by_cases h10 : b < 10
  · have h15 : b ≠ 15 := by omega
    simp [h10, h15, hb]
  · by_cases h15 : b < 15
    · have hfield : b - 10 < 5 := by omega
      have hpos : b - 10 + 10 = b := by omega
      have hne : b ≠ 15 := by omega
      simp [h10, hfield, hpos, hb, hne]
    · obtain rfl : b = 15 := by omega
      have hhigh : q.testBit 15 = false := Nat.testBit_lt_two_pow (by omega)
      cases s <;> simp [hhigh]

/-! ## Rounding to an integer (R124) -/

/-- A common factor does not matter. -/
theorem rint_mul_right {c : Nat} (hc : 0 < c) (num den : Nat) (s : Bool) (rm : Rounding) :
    rint (num * c) (den * c) s rm = rint num den s rm := by
  have hzero : num % den * c = 0 ↔ num % den = 0 := by simp [hc.ne']
  have habove : den * c < 2 * (num % den * c) ↔ den < 2 * (num % den) := by
    rw [← Nat.mul_assoc]; exact Nat.mul_lt_mul_right hc
  have htie : 2 * (num % den * c) = den * c ↔ 2 * (num % den) = den := by
    rw [← Nat.mul_assoc]; exact Nat.mul_left_inj hc.ne'
  simp only [rint, Nat.mul_div_mul_right _ _ hc, Nat.mul_mod_mul_right, hzero, habove, htie]

/-- The mode leads toward zero. -/
def towardZero (s : Bool) (rm : Rounding) : Prop := rm = .rz ∨ (rm = .rd ∧ s = false) ∨ (rm = .ru ∧ s = true)

/-- The mode leads away from zero. -/
def awayFromZero (s : Bool) (rm : Rounding) : Prop := (rm = .rd ∧ s = true) ∨ (rm = .ru ∧ s = false)

theorem mode_cases (s : Bool) (rm : Rounding) : rm = .rn ∨ towardZero s rm ∨ awayFromZero s rm := by
  cases rm <;> cases s <;> simp [towardZero, awayFromZero]

theorem le_rint (num den : Nat) (s : Bool) (rm : Rounding) : num / den ≤ rint num den s rm := by
  unfold rint
  dsimp only
  split
  · exact Nat.le_refl _
  · cases rm with
    | rn | rd | ru => dsimp only; split <;> omega
    | rz => exact Nat.le_refl _

theorem rint_of_dvd {num den : Nat} (h : num % den = 0) (s : Bool) (rm : Rounding) : rint num den s rm = num / den := by
  simp [rint, h]

theorem rint_of_towardZero {s : Bool} {rm : Rounding} (h : towardZero s rm) (num den : Nat) : rint num den s rm = num / den := by
  rcases h with rfl | ⟨rfl, rfl⟩ | ⟨rfl, rfl⟩ <;> simp [rint]

theorem rint_of_awayFromZero {s : Bool} {rm : Rounding} (h : awayFromZero s rm) {num den : Nat} (hr : num % den ≠ 0) :
    rint num den s rm = num / den + 1 := by
  rcases h with ⟨rfl, rfl⟩ | ⟨rfl, rfl⟩ <;> simp [rint, hr]

/-- To nearest: the quotient is the neighbour at the smaller distance, or the even one of two at the same distance. -/
theorem rint_rn (num : Nat) {den : Nat} (hden : 0 < den) (s : Bool) :
    (rint num den s .rn = num / den ∧ (2 * (num % den) < den ∨ 2 * (num % den) = den ∧ num / den % 2 = 0)) ∨
      (rint num den s .rn = num / den + 1 ∧ (den < 2 * (num % den) ∨ 2 * (num % den) = den ∧ num / den % 2 = 1)) := by
  unfold rint
  dsimp only
  split_ifs <;> omega

/-! ## The unit of a magnitude -/

/-- The exponent of the unit that a magnitude is rounded to, in units of `2^-48`: 11 significant bits, but not below the denormals. -/
def unitExp (mag : Nat) : Nat := if 34 ≤ Nat.log2 mag then Nat.log2 mag - 10 else 24

/-- The magnitude in units, rounded. -/
def quotient (s : Bool) (mag : Nat) (rm : Rounding) : Nat := rint mag (2 ^ unitExp mag) s rm

/-- Where a magnitude lies: normal, with 11 bits before the point, or among the denormals. -/
theorem unitExp_cases {mag : Nat} (h : 0 < mag) :
    (34 ≤ Nat.log2 mag ∧ Nat.log2 mag = unitExp mag + 10 ∧ 1024 * 2 ^ unitExp mag ≤ mag ∧ mag < 2048 * 2 ^ unitExp mag) ∨
      (Nat.log2 mag < 34 ∧ unitExp mag = 24 ∧ mag < 2 ^ 34) := by
  have hlow : 2 ^ Nat.log2 mag ≤ mag := Nat.log2_self_le h.ne'
  have hhigh : mag < 2 ^ (Nat.log2 mag + 1) := Nat.lt_log2_self
  by_cases hl : 34 ≤ Nat.log2 mag
  · have hu : Nat.log2 mag = unitExp mag + 10 := by rw [unitExp, if_pos hl]; omega
    rw [hu, Nat.pow_add] at hlow
    rw [hu, Nat.pow_succ, Nat.pow_add] at hhigh
    exact .inl ⟨hl, hu, by omega, by omega⟩
  · have hmono : 2 ^ (Nat.log2 mag + 1) ≤ 2 ^ 34 := Nat.pow_le_pow_right (by decide) (by omega)
    exact .inr ⟨by omega, by rw [unitExp, if_neg hl], by omega⟩

/-! ## The result of rounding (R125) -/

theorem quotient_bounds {mag : Nat} (h : 0 < mag) (s : Bool) (rm : Rounding) :
    quotient s mag rm ≤ 2048 ∧ (34 ≤ Nat.log2 mag → 1024 ≤ quotient s mag rm) ∧ (Nat.log2 mag < 34 → quotient s mag rm ≤ 1024) := by
  have hpos : 0 < 2 ^ unitExp mag := Nat.two_pow_pos _
  have hle := rint_le mag (2 ^ unitExp mag) s rm
  have hge := le_rint mag (2 ^ unitExp mag) s rm
  rw [← quotient] at hle hge
  rcases unitExp_cases h with ⟨hl, -, hlow, hhigh⟩ | ⟨hl, hu, hhigh⟩
  · have hfloor : 1024 ≤ mag / 2 ^ unitExp mag := (Nat.le_div_iff_mul_le hpos).mpr hlow
    have hceil : mag / 2 ^ unitExp mag < 2048 := (Nat.div_lt_iff_lt_mul hpos).mpr hhigh
    omega
  · have hceil : mag / 2 ^ unitExp mag < 1024 := by rw [hu]; omega
    omega

/-- The rounding of the model with 11 significant bits is the quotient, for a normal magnitude. -/
theorem rint_eq_quotient {mag : Nat} (hl : Nat.log2 mag = unitExp mag + 10) (s : Bool) (rm : Rounding) :
    rint (mag * 2 ^ 10) (2 ^ Nat.log2 mag) s rm = quotient s mag rm := by
  rw [quotient, hl, Nat.pow_add, rint_mul_right (by decide)]

/-- A quotient of a normal magnitude fits exactly if its exponent is in range (R125 step 4). -/
theorem overflow_iff {q u : Nat} (hlow : 1024 ≤ q) (hhigh : q ≤ 2048) :
    63 < (if q = 2048 then u + 10 + 1 else u + 10) ↔ 65504 * 2 ^ 48 < q * 2 ^ u := by
  rcases Nat.lt_trichotomy u 53 with hu | rfl | hu
  · have hpow : 2 ^ u ≤ 2 ^ 52 := Nat.pow_le_pow_right (by decide) (by omega)
    have hval : q * 2 ^ u ≤ 2048 * 2 ^ 52 := Nat.mul_le_mul hhigh hpow
    split <;> omega
  · split <;> omega
  · have hpow : 2 ^ 54 ≤ 2 ^ u := Nat.pow_le_pow_right (by decide) (by omega)
    have hval : 1024 * 2 ^ 54 ≤ q * 2 ^ u := Nat.mul_le_mul hlow hpow
    split <;> omega

/-- A rounded magnitude beyond the range overflows. -/
theorem roundExact_of_overflow {s : Bool} {mag : Nat} {rm : Rounding} (h : 0 < mag)
    (hover : 65504 * 2 ^ 48 < quotient s mag rm * 2 ^ unitExp mag) : roundExact s mag rm = overflowResult s rm := by
  obtain ⟨hq, hnormal, hsmall⟩ := quotient_bounds h s rm
  rcases unitExp_cases h with ⟨hl, hu, -, -⟩ | ⟨hl, hu, -⟩
  · have hexp := (overflow_iff (u := unitExp mag) (hnormal hl) hq).mpr hover
    rw [← hu] at hexp
    simp only [roundExact, if_pos hl, rint_eq_quotient hu, if_pos hexp]
  · have := hsmall hl
    rw [hu] at hover
    omega

/-- The flags of a rounded magnitude within the range (R125 steps 2 and 3). -/
def roundedFlags (s : Bool) (mag : Nat) (rm : Rounding) : FpFlags :=
  let inexact := decide (quotient s mag rm * 2 ^ unitExp mag ≠ mag)
  flagIf inexact flagPE ||| flagIf (inexact && isTiny s mag rm) flagUE

/-- A normal magnitude is not tiny. -/
theorem isTiny_of_normal {mag : Nat} (h : 0 < mag) (hl : 34 ≤ Nat.log2 mag) (hu : Nat.log2 mag = unitExp mag + 10) (s : Bool)
    (rm : Rounding) : isTiny s mag rm = false := by
  have hpow : 2 ^ 34 ≤ 2 ^ Nat.log2 mag := Nat.pow_le_pow_right (by decide) hl
  have hval : 1024 * 2 ^ 34 ≤ quotient s mag rm * 2 ^ Nat.log2 mag := Nat.mul_le_mul ((quotient_bounds h s rm).2.1 hl) hpow
  rw [isTiny, rint_eq_quotient hu, decide_eq_false_iff_not]
  omega

theorem roundedFlags_of_normal {mag : Nat} (h : 0 < mag) (hl : 34 ≤ Nat.log2 mag) (hu : Nat.log2 mag = unitExp mag + 10) (s : Bool)
    (rm : Rounding) :
    roundedFlags s mag rm = flagIf (quotient s mag rm * 2 ^ Nat.log2 mag != mag * 2 ^ 10) flagPE := by
  have hexact : quotient s mag rm * 2 ^ unitExp mag = mag ↔ quotient s mag rm * 2 ^ Nat.log2 mag = mag * 2 ^ 10 := by
    rw [hu, Nat.pow_add, ← Nat.mul_assoc]
    omega
  simp [roundedFlags, isTiny_of_normal h hl hu, hexact, flagIf, bne]

/-- A rounded magnitude within the range is packed. -/
theorem roundExact_of_fits {s : Bool} {mag : Nat} {rm : Rounding} (h : 0 < mag)
    (hfits : quotient s mag rm * 2 ^ unitExp mag ≤ 65504 * 2 ^ 48) :
    ∃ e f, e < 31 ∧ f < 1024 ∧ (if e = 0 then f else (1024 + f) * 2 ^ (e - 1)) * 2 ^ 24 = quotient s mag rm * 2 ^ unitExp mag ∧
      f % 2 = quotient s mag rm % 2 ∧ roundExact s mag rm = (packFinite s e f, roundedFlags s mag rm) := by
  obtain ⟨hq, hnormal, hsmall⟩ := quotient_bounds h s rm
  rcases unitExp_cases h with ⟨hl, hu, -, -⟩ | ⟨hl, hu, -⟩
  · have hq' := hnormal hl
    have hrange := (overflow_iff (u := unitExp mag) hq' hq).not.mpr (by omega)
    have hexp : 2 ^ unitExp mag = 2 ^ (unitExp mag - 24) * 2 ^ 24 := by rw [← Nat.pow_add]; congr 1; omega
    have hflags := roundedFlags_of_normal h hl hu s rm
    have hround : roundExact s mag rm =
        (packFinite s ((if quotient s mag rm = 2048 then unitExp mag + 10 + 1 else unitExp mag + 10) - 33)
          ((if quotient s mag rm = 2048 then 1024 else quotient s mag rm) - 1024), roundedFlags s mag rm) := by
      rw [roundExact, if_pos hl, rint_eq_quotient hu, hflags]
      simp only [hu, if_neg hrange]
    by_cases h2048 : quotient s mag rm = 2048
    · rw [if_pos h2048] at hrange
      rw [if_pos h2048, if_pos h2048] at hround
      have hne : unitExp mag + 10 + 1 - 33 ≠ 0 := by omega
      have hsub : unitExp mag + 10 + 1 - 33 - 1 = unitExp mag - 24 + 1 := by omega
      refine ⟨_, _, by omega, by decide, ?_, by omega, hround⟩
      rw [if_neg hne, hsub, Nat.pow_succ, hexp, h2048]
      omega
    · rw [if_neg h2048] at hrange
      rw [if_neg h2048, if_neg h2048] at hround
      have hne : unitExp mag + 10 - 33 ≠ 0 := by omega
      have hsub : unitExp mag + 10 - 33 - 1 = unitExp mag - 24 := by omega
      refine ⟨_, _, by omega, by omega, ?_, by omega, hround⟩
      rw [if_neg hne, hsub, hexp, Nat.add_sub_cancel' hq', Nat.mul_assoc]
  · have hq' := hsmall hl
    refine ⟨quotient s mag rm / 1024, quotient s mag rm % 1024, by omega, Nat.mod_lt _ (by decide), ?_, by omega, ?_⟩
    · rw [hu]
      obtain heq | hlt := Nat.eq_or_lt_of_le hq'
      · rw [heq]
        decide
      · have hdiv : quotient s mag rm / 1024 = 0 := by omega
        rw [if_pos hdiv, Nat.mod_eq_of_lt hlt]
    · have hnot : ¬34 ≤ Nat.log2 mag := by omega
      have hquot : rint mag (2 ^ 24) s rm = quotient s mag rm := by rw [quotient, hu]
      simp only [roundExact, if_neg hnot, hquot, fpZero_or_eq_packFinite s hq', roundedFlags, isTiny, hu, bne, Bool.beq_eq_decide_eq, decide_not]

end Sys2Proof.Machine
end

section
/-! Rounding is correct in every mode (40_complex_multiply.md R125): no FP16 value lies strictly between the two neighbouring multiples of
the unit, so the one that `rint` takes is the value the mode asks for. -/

namespace Sys2Proof.Machine

/-! ## FP16 values and the multiples of a unit -/

/-- A finite magnitude is at most 11 significant bits in a unit between `2^-24` and `2^5`. -/
theorem magnitude24_eq_mul {h : Fp16} (hfin : isFinite h = true) : ∃ m k, magnitude24 h = m * 2 ^ k ∧ m < 2048 ∧ k ≤ 29 := by
  have hexp : fpExponent h < 32 := BitVec.isLt _
  have hne := isFinite_iff_fpExponent.mp hfin
  have hfrac : fpFraction h < 1024 := BitVec.isLt _
  rw [magnitude24]
  split
  · exact ⟨fpFraction h, 0, (Nat.mul_one _).symm, by omega, by decide⟩
  · exact ⟨1024 + fpFraction h, fpExponent h - 1, rfl, by omega, by omega⟩

theorem magnitude24_le_max {h : Fp16} (hfin : isFinite h = true) : magnitude24 h ≤ 65504 * 2 ^ 24 := by
  obtain ⟨m, k, hmag, hm, hk⟩ := magnitude24_eq_mul hfin
  have hpow : 2 ^ k ≤ 2 ^ 29 := Nat.pow_le_pow_right (by decide) hk
  have hle : m * 2 ^ k ≤ 2047 * 2 ^ 29 := Nat.mul_le_mul (by omega) hpow
  omega

/-- The multiple of the unit below a magnitude. -/
def floor48 (mag : Nat) : Nat := mag / 2 ^ unitExp mag * 2 ^ unitExp mag

/-- The rounded magnitude. -/
def rounded48 (s : Bool) (mag : Nat) (rm : Rounding) : Nat := quotient s mag rm * 2 ^ unitExp mag

theorem floor48_add_mod (mag : Nat) : floor48 mag + mag % 2 ^ unitExp mag = mag :=
  Nat.div_add_mod' mag _

theorem mod_unit_lt (mag : Nat) : mag % 2 ^ unitExp mag < 2 ^ unitExp mag := Nat.mod_lt _ (Nat.two_pow_pos _)

/-- No FP16 value lies strictly between the neighbouring multiples of the unit of a magnitude. -/
theorem le_floor48_or_le {mag : Nat} (h : 0 < mag) {x : Fp16} (hfin : isFinite x = true) :
    magnitude24 x * 2 ^ 24 ≤ floor48 mag ∨ floor48 mag + 2 ^ unitExp mag ≤ magnitude24 x * 2 ^ 24 := by
  obtain ⟨m, k, hmag, hm, -⟩ := magnitude24_eq_mul hfin
  rw [hmag, Nat.mul_assoc, ← Nat.pow_add, floor48]
  by_cases hk : unitExp mag ≤ k + 24
  · obtain ⟨c, hc⟩ : 2 ^ unitExp mag ∣ m * 2 ^ (k + 24) := Dvd.dvd.mul_left (pow_dvd_pow 2 hk) m
    rw [hc, Nat.mul_comm _ c, ← Nat.succ_mul]
    exact (Nat.lt_or_ge (mag / 2 ^ unitExp mag) c).symm.imp (Nat.mul_le_mul_right _) (Nat.mul_le_mul_right _)
  · rcases unitExp_cases h with ⟨-, -, hlow, -⟩ | ⟨-, hu, -⟩
    · have hfloor : 1024 ≤ mag / 2 ^ unitExp mag := (Nat.le_div_iff_mul_le (Nat.two_pow_pos _)).mpr hlow
      have hpow : 2 * 2 ^ (k + 24) ≤ 2 ^ unitExp mag := by
        rw [← Nat.pow_succ']
        exact Nat.pow_le_pow_right (by decide) (by omega)
      have hle : m * 2 ^ (k + 24) ≤ 2048 * 2 ^ (k + 24) := Nat.mul_le_mul_right _ (by omega)
      have hge : 1024 * 2 ^ unitExp mag ≤ mag / 2 ^ unitExp mag * 2 ^ unitExp mag := Nat.mul_le_mul_right _ hfloor
      omega
    · omega

/-! ## The rounded magnitude, by mode -/

section Modes

variable {s : Bool} {mag : Nat} {rm : Rounding}

theorem rounded48_of_exact (hr : mag % 2 ^ unitExp mag = 0) : rounded48 s mag rm = floor48 mag := by
  rw [rounded48, quotient, rint_of_dvd hr, floor48]

theorem rounded48_of_towardZero (h : towardZero s rm) : rounded48 s mag rm = floor48 mag := by
  rw [rounded48, quotient, rint_of_towardZero h, floor48]

theorem rounded48_of_awayFromZero (h : awayFromZero s rm) (hr : mag % 2 ^ unitExp mag ≠ 0) :
    rounded48 s mag rm = floor48 mag + 2 ^ unitExp mag := by
  rw [rounded48, quotient, rint_of_awayFromZero h hr, Nat.succ_mul, floor48]

theorem rounded48_rn :
    (rounded48 s mag .rn = floor48 mag ∧ (2 * (mag % 2 ^ unitExp mag) < 2 ^ unitExp mag ∨
        2 * (mag % 2 ^ unitExp mag) = 2 ^ unitExp mag ∧ quotient s mag .rn % 2 = 0)) ∨
      (rounded48 s mag .rn = floor48 mag + 2 ^ unitExp mag ∧ (2 ^ unitExp mag < 2 * (mag % 2 ^ unitExp mag) ∨
        2 * (mag % 2 ^ unitExp mag) = 2 ^ unitExp mag ∧ quotient s mag .rn % 2 = 0)) := by
  rcases rint_rn mag (Nat.two_pow_pos (unitExp mag)) s with ⟨hq, hdist⟩ | ⟨hq, hdist⟩ <;> rw [← quotient] at hq
  · exact .inl ⟨by rw [rounded48, hq, floor48], by rwa [hq]⟩
  · exact .inr ⟨by rw [rounded48, hq, Nat.succ_mul, floor48], hdist.imp_right fun ⟨htie, hodd⟩ => ⟨htie, by omega⟩⟩

/-- In every mode the rounded magnitude is a neighbour. -/
theorem rounded48_eq_or : rounded48 s mag rm = floor48 mag ∨ rounded48 s mag rm = floor48 mag + 2 ^ unitExp mag := by
  rcases mode_cases s rm with rfl | h | h
  · exact rounded48_rn.imp And.left And.left
  · exact .inl (rounded48_of_towardZero h)
  · by_cases hr : mag % 2 ^ unitExp mag = 0
    · exact .inl (rounded48_of_exact hr)
    · exact .inr (rounded48_of_awayFromZero h hr)

end Modes

/-! ## The result, in range and beyond -/

section Result

variable {s : Bool} {mag : Nat} {rm : Rounding} (h : 0 < mag)

include h

/-- In range the result has the sign, the rounded magnitude and the parity of the quotient. -/
theorem roundExact_in_range (hfits : rounded48 s mag rm ≤ 65504 * 2 ^ 48) :
    isFinite (roundExact s mag rm).1 = true ∧ fpSign (roundExact s mag rm).1 = s ∧
      magnitude24 (roundExact s mag rm).1 * 2 ^ 24 = rounded48 s mag rm ∧
      (roundExact s mag rm).1.getLsbD 0 = decide (quotient s mag rm % 2 = 1) ∧ (roundExact s mag rm).2 = roundedFlags s mag rm := by
  obtain ⟨e, f, he, hf, hval, hparity, hround⟩ := roundExact_of_fits h hfits
  rw [hround]
  refine ⟨isFinite_packFinite s f he, fpSign_packFinite s e f, ?_, ?_, rfl⟩
  · rw [magnitude24_packFinite s (by omega) hf, hval, rounded48]
  · rw [getLsbD_zero_packFinite, hparity]

/-- Beyond the range no FP16 value reaches the rounded magnitude. -/
theorem magnitude24_lt_of_overflow (hover : 65504 * 2 ^ 48 < rounded48 s mag rm) {x : Fp16} (hfin : isFinite x = true) :
    magnitude24 x * 2 ^ 24 < mag := by
  have hmax := magnitude24_le_max hfin
  have hsplit := floor48_add_mod mag
  by_contra hnot
  rcases le_floor48_or_le h hfin with hle | hge
  · have hexact := rounded48_of_exact (s := s) (rm := rm) (mag := mag) (by omega)
    omega
  · rcases rounded48_eq_or (s := s) (mag := mag) (rm := rm) with hv | hv <;> omega

/-- To nearest the range ends half a unit above the largest finite value. -/
theorem rounded48_rn_overflow_iff : 65504 * 2 ^ 48 < rounded48 s mag .rn ↔ 65520 * 2 ^ 48 ≤ mag := by
  have hsplit := floor48_add_mod mag
  have hmod := mod_unit_lt mag
  have hneighbour := rounded48_eq_or (s := s) (mag := mag) (rm := .rn)
  rcases unitExp_cases h with ⟨-, -, hlow, hhigh⟩ | ⟨-, hu, hhigh⟩
  · rcases Nat.lt_trichotomy (unitExp mag) 53 with hu | hu | hu
    · have hpow : 2 ^ unitExp mag ≤ 2 ^ 52 := Nat.pow_le_pow_right (by decide) (by omega)
      have hval : rounded48 s mag .rn ≤ 2048 * 2 ^ unitExp mag := Nat.mul_le_mul_right _ (quotient_bounds h s .rn).1
      omega
    · have hnearest := rounded48_rn (s := s) (mag := mag)
      have hval : rounded48 s mag .rn = quotient s mag .rn * 2 ^ 53 := by rw [rounded48, hu]
      rw [floor48, hu] at hsplit
      rw [hu] at hmod hlow hhigh
      rw [floor48, hu] at hnearest
      omega
    · have hpow : 2 ^ 54 ≤ 2 ^ unitExp mag := Nat.pow_le_pow_right (by decide) (by omega)
      have hfloor : 1024 * 2 ^ unitExp mag ≤ floor48 mag :=
        Nat.mul_le_mul_right _ ((Nat.le_div_iff_mul_le (Nat.two_pow_pos _)).mpr hlow)
      omega
  · rw [hu] at hsplit hmod hneighbour
    omega

end Result

/-! ## The flags of rounding -/

theorem roundedFlags_and_flagPE_eq_zero_iff {s : Bool} {mag : Nat} {rm : Rounding} :
    roundedFlags s mag rm &&& flagPE = 0#6 ↔ rounded48 s mag rm = mag := by
  have hflag (inexact tiny : Bool) : (flagIf inexact flagPE ||| flagIf (inexact && tiny) flagUE) &&& flagPE = 0#6 ↔ inexact = false := by
    revert inexact tiny; decide
  rw [roundedFlags, hflag, decide_eq_false_iff_not, not_not, rounded48]

theorem roundedFlags_and_flagOE (s : Bool) (mag : Nat) (rm : Rounding) : roundedFlags s mag rm &&& flagOE = 0#6 := by
  have hflag (inexact tiny : Bool) : (flagIf inexact flagPE ||| flagIf (inexact && tiny) flagUE) &&& flagOE = 0#6 := by
    revert inexact tiny; decide
  exact hflag _ _

/-- `UE` is for results that are inexact and tiny (R125 step 3). -/
theorem roundedFlags_and_flagUE_ne_zero_iff {s : Bool} {mag : Nat} {rm : Rounding} :
    roundedFlags s mag rm &&& flagUE ≠ 0#6 ↔ roundedFlags s mag rm &&& flagPE ≠ 0#6 ∧ isTiny s mag rm = true := by
  have hflag (inexact tiny : Bool) : (flagIf inexact flagPE ||| flagIf (inexact && tiny) flagUE) &&& flagUE ≠ 0#6 ↔
      (flagIf inexact flagPE ||| flagIf (inexact && tiny) flagUE) &&& flagPE ≠ 0#6 ∧ tiny = true := by
    revert inexact tiny; decide
  exact hflag _ _

/-- The magnitude rounded without a bound on the exponent, in units of `2^-58`, is beyond the range exactly if the rounded magnitude is. -/
theorem unbounded_overflow_iff {s : Bool} {mag : Nat} {rm : Rounding} (h : 0 < mag) :
    65504 * 2 ^ 58 < rint (mag * 2 ^ 10) (2 ^ Nat.log2 mag) s rm * 2 ^ Nat.log2 mag ↔ 65504 * 2 ^ 48 < rounded48 s mag rm := by
  rcases unitExp_cases h with ⟨-, hl, -, -⟩ | ⟨hl, hu, -⟩
  · rw [rint_eq_quotient hl, hl, Nat.pow_add, ← Nat.mul_assoc, ← rounded48]
    omega
  · have hdiv : mag * 2 ^ 10 / 2 ^ Nat.log2 mag < 2 ^ 11 := by
      have hlt : mag < 2 ^ Nat.log2 mag * 2 := by rw [← Nat.pow_succ]; exact Nat.lt_log2_self
      rw [Nat.div_lt_iff_lt_mul (Nat.two_pow_pos _)]
      omega
    have hle := rint_le (mag * 2 ^ 10) (2 ^ Nat.log2 mag) s rm
    have hpow : 2 ^ Nat.log2 mag ≤ 2 ^ 33 := Nat.pow_le_pow_right (by decide) (by omega)
    have hunbounded : rint (mag * 2 ^ 10) (2 ^ Nat.log2 mag) s rm * 2 ^ Nat.log2 mag ≤ 2048 * 2 ^ 33 :=
      Nat.mul_le_mul (by omega) hpow
    have hquotient := (quotient_bounds h s rm).2.2 hl
    rw [rounded48, hu]
    omega

/-- Settles O39: beyond the range the overflow flags, and in range those of inexact and tiny results. -/
theorem overflowAndUnderflowFlagsOfRounding : Obligations.OverflowAndUnderflowFlagsOfRounding := by
  intro s mag rm h l unbounded r
  have hunbounded : 65504 * 2 ^ 58 < unbounded ↔ 65504 * 2 ^ 48 < rounded48 s mag rm := unbounded_overflow_iff h
  rw [hunbounded]
  by_cases hover : 65504 * 2 ^ 48 < rounded48 s mag rm
  · have hflags : r.2 = flagOE ||| flagPE := by
      simp only [r, roundExact_of_overflow h hover, overflowResult]
    have hlarge := hunbounded.mpr hover
    rw [hflags]
    exact ⟨iff_of_true (by decide) hover, iff_of_false (by decide) fun hsmall => by omega⟩
  · have hflags : r.2 = roundedFlags s mag rm := (roundExact_in_range h (by omega)).2.2.2.2
    rw [hflags, roundedFlags_and_flagOE, roundedFlags_and_flagUE_ne_zero_iff, isTiny, decide_eq_true_eq]
    exact ⟨iff_of_false (fun hne => hne rfl) hover, Iff.rfl⟩

/-! ## Correct rounding -/

/-- The result beyond the range by mode (R125 step 4). -/
theorem overflowResult_fst (s : Bool) (rm : Rounding) :
    (towardZero s rm ∧ (overflowResult s rm).1 = fpMaxFinite s) ∨ (¬towardZero s rm ∧ (overflowResult s rm).1 = fpInf s) := by
  cases rm <;> cases s <;> simp [towardZero, overflowResult]

theorem isFinite_fpMaxFinite (s : Bool) : isFinite (fpMaxFinite s) = true := by
  cases s <;> decide

theorem magnitude24_fpMaxFinite (s : Bool) : magnitude24 (fpMaxFinite s) = 65504 * 2 ^ 24 := by
  cases s <;> decide

theorem isFinite_fpInf (s : Bool) : isFinite (fpInf s) = false := by
  cases s <;> decide

theorem fpSign_overflowResult (s : Bool) (rm : Rounding) : fpSign (overflowResult s rm).1 = s := by
  cases rm <;> cases s <;> decide

theorem towardZero_ne_awayFromZero {s : Bool} {rm : Rounding} (h : towardZero s rm) : ¬awayFromZero s rm := by
  rcases h with rfl | ⟨rfl, rfl⟩ | ⟨rfl, rfl⟩ <;> simp [awayFromZero]

theorem not_towardZero_rn (s : Bool) : ¬towardZero s .rn := by
  simp [towardZero]

/-- Beyond the range: the largest finite value, which lies below, or infinity. -/
theorem correctlyRounded_of_overflow {s : Bool} {mag : Nat} {rm : Rounding} (h : 0 < mag)
    (hover : 65504 * 2 ^ 48 < rounded48 s mag rm) : correctlyRounded s mag rm (overflowResult s rm) := by
  have hbelow {x : Fp16} (hfin : isFinite x = true) := magnitude24_lt_of_overflow h hover hfin
  have hpe : (overflowResult s rm).2 &&& flagPE ≠ 0#6 := by
    exact (by decide : (flagOE ||| flagPE) &&& flagPE ≠ 0#6)
  have hmax := hbelow (isFinite_fpMaxFinite s)
  rw [magnitude24_fpMaxFinite] at hmax
  rw [correctlyRounded]
  refine ⟨isNan_overflowResult s rm, fpSign_overflowResult s rm, fun hdown => ?_, fun hup => ?_, fun hrn => ?_, iff_of_false hpe ?_⟩
  · obtain ⟨-, hfst⟩ | ⟨hnot, -⟩ := overflowResult_fst s rm
    · rw [hfst, magnitude24_fpMaxFinite]
      exact ⟨isFinite_fpMaxFinite s, hmax.le, fun x hfin _ => magnitude24_le_max hfin⟩
    · exact absurd hdown hnot
  · obtain ⟨hdown, -⟩ | ⟨-, hfst⟩ := overflowResult_fst s rm
    · exact absurd hup (towardZero_ne_awayFromZero hdown)
    · rw [hfst, isFinite_fpInf]
      exact ⟨fun hfin => absurd hfin (by decide), fun _ => by omega⟩
  · subst hrn
    obtain ⟨hdown, -⟩ | ⟨-, hfst⟩ := overflowResult_fst s .rn
    · exact absurd hdown (not_towardZero_rn s)
    · rw [hfst, isFinite_fpInf]
      exact ⟨fun hfin => absurd hfin (by decide), iff_of_true rfl ((rounded48_rn_overflow_iff h).mp hover)⟩
  · rintro ⟨hfin, hexact⟩
    exact (hbelow hfin).ne hexact

/-- In range: the neighbour that the mode asks for. -/
theorem correctlyRounded_of_fits {s : Bool} {mag : Nat} {rm : Rounding} (h : 0 < mag)
    (hfits : rounded48 s mag rm ≤ 65504 * 2 ^ 48) : correctlyRounded s mag rm (roundExact s mag rm) := by
  obtain ⟨hfin, hsign, hval, hparity, hflags⟩ := roundExact_in_range h hfits
  have hsplit := floor48_add_mod mag
  have hmod := mod_unit_lt mag
  have hgrid {x : Fp16} (hx : isFinite x = true) := le_floor48_or_le h hx
  have hpe : (roundExact s mag rm).2 &&& flagPE = 0#6 ↔ rounded48 s mag rm = mag := by
    rw [hflags, roundedFlags_and_flagPE_eq_zero_iff]
  rw [correctlyRounded]
  refine ⟨isNan_roundExact s mag rm, hsign, fun hdown => ?_, fun hup => ?_, fun hrn => ?_, ?_⟩
  · have hv := rounded48_of_towardZero (s := s) (mag := mag) hdown
    refine ⟨hfin, by omega, fun x hx hle => ?_⟩
    rcases hgrid hx with hlow | hhigh <;> omega
  · refine ⟨fun _ => ?_, fun hinf => absurd hfin (by simp [hinf])⟩
    by_cases hr : mag % 2 ^ unitExp mag = 0
    · have hv := rounded48_of_exact (s := s) (rm := rm) hr
      exact ⟨by omega, fun x hx hle => by omega⟩
    · have hv := rounded48_of_awayFromZero (s := s) (mag := mag) hup hr
      refine ⟨by omega, fun x hx hle => ?_⟩
      rcases hgrid hx with hlow | hhigh <;> omega
  · subst hrn
    refine ⟨fun _ x hx => ?_, iff_of_false (by simp [hfin]) ?_⟩
    · rw [hparity, hval, distance, distance]
      rcases rounded48_rn (s := s) (mag := mag) with ⟨hv, hdist⟩ | ⟨hv, hdist⟩ <;> rcases hgrid hx with hlow | hhigh <;>
        refine ⟨by omega, fun hsame hne => decide_eq_false ?_⟩ <;> omega
    · rw [← rounded48_rn_overflow_iff (s := s) h]
      omega
  · rw [hpe, hval]
    simp [hfin]

/-- Settles O38: in range a neighbour that the mode asks for, beyond it the largest finite value or infinity. -/
theorem roundingIsCorrectInEveryMode : Obligations.RoundingIsCorrectInEveryMode := by
  intro s mag rm h
  by_cases hover : 65504 * 2 ^ 48 < rounded48 s mag rm
  · rw [roundExact_of_overflow h hover]
    exact correctlyRounded_of_overflow h hover
  · exact correctlyRounded_of_fits h (by omega)

end Sys2Proof.Machine
end

section
/-! The operations on finite operands (40_complex_multiply.md R126 step 6, R127 steps 6 to 8): they round the exact result once, so that
without `PE` every operation, and the complex product made of them, is exact. -/

namespace Sys2Proof.Machine

/-! ## Rounding an integer -/

/-- The rounding of a non-zero exact result in units of `2^-48`. -/
def roundInt (x : Int) (rm : Rounding) : FpResult := roundExact (decide (x < 0)) x.natAbs rm

/-- An FP16 value is rounded without any flag. -/
theorem roundExact_snd_of_representable {s : Bool} {mag : Nat} {rm : Rounding} (h : 0 < mag) {x : Fp16} (hfin : isFinite x = true)
    (hx : magnitude24 x * 2 ^ 24 = mag) : (roundExact s mag rm).2 = 0#6 := by
  have hsplit := floor48_add_mod mag
  have hmod := mod_unit_lt mag
  have hmax := magnitude24_le_max hfin
  have hzero : mag % 2 ^ unitExp mag = 0 := by
    rcases le_floor48_or_le h hfin with hle | hge <;> omega
  have hexact := rounded48_of_exact (s := s) (rm := rm) hzero
  obtain ⟨-, -, -, -, hflags⟩ := roundExact_in_range (s := s) (rm := rm) h (by omega)
  have hinexact : quotient s mag rm * 2 ^ unitExp mag = mag := by rw [← rounded48]; omega
  rw [hflags, roundedFlags]
  simp [hinexact, flagIf]

/-- Without `PE` the rounded value is the exact one. -/
theorem roundInt_exact {x : Int} (hx : x ≠ 0) {rm : Rounding} (hpe : (roundInt x rm).2 &&& flagPE = 0#6) :
    isFinite (roundInt x rm).1 = true ∧ value24 (roundInt x rm).1 * 2 ^ 24 = x := by
  obtain ⟨-, hsign, -, -, -, hexact⟩ := roundingIsCorrectInEveryMode (decide (x < 0)) x.natAbs rm (Int.natAbs_pos.mpr hx)
  obtain ⟨hfin, hmag⟩ := hexact.mp hpe
  refine ⟨hfin, ?_⟩
  rw [roundInt, value24, hsign]
  by_cases hneg : x < 0
  · rw [if_pos (decide_eq_true hneg)]
    omega
  · rw [if_neg (by simpa using hneg)]
    omega

theorem natAbs_value24 (a : Fp16) : (value24 a).natAbs = magnitude24 a := by
  rw [value24]
  split <;> simp

/-- An exact result that is an FP16 value raises no flag. -/
theorem roundInt_snd_of_representable {x : Int} (hx : x ≠ 0) (rm : Rounding) {r : Fp16} (hfin : isFinite r = true)
    (hr : x = value24 r * 2 ^ 24) : (roundInt x rm).2 = 0#6 := by
  refine roundExact_snd_of_representable (Int.natAbs_pos.mpr hx) hfin ?_
  rw [hr, Int.natAbs_mul, natAbs_value24]
  rfl

/-- `DE`, which stands beside the flags of rounding, does not hide `PE`. -/
theorem flagIf_flagDE_or_and_flagPE (c : Bool) (f : FpFlags) : (flagIf c flagDE ||| f) &&& flagPE = f &&& flagPE := by
  have hde : flagIf c flagDE &&& flagPE = 0#6 := by cases c <;> decide
  rw [BitVec.and_or_distrib_right, hde, BitVec.zero_or]

/-- Whether a result is correctly rounded does not depend on flags other than `PE`. -/
theorem correctlyRounded_or_flagDE {s : Bool} {mag : Nat} {rm : Rounding} {r : FpResult} (c : Bool)
    (h : correctlyRounded s mag rm r) : correctlyRounded s mag rm (r.1, flagIf c flagDE ||| r.2) := by
  obtain ⟨hnan, hsign, hdown, hup, hrn, hexact⟩ := h
  exact ⟨hnan, hsign, hdown, hup, hrn, by rw [flagIf_flagDE_or_and_flagPE]; exact hexact⟩

/-! ## The operations on finite operands -/

section Operations

variable {env : FpEnv} (hdaz : env.daz = false) (hftz : env.ftz = false)

include hftz in
theorem roundFp16_of_not_ftz (s : Bool) (mag : Nat) : roundFp16 env s mag = roundExact s mag env.rm := by
  simp [roundFp16, hftz]

include hdaz hftz in
theorem fp16Mul_of_ne_zero {a b : Fp16} (ha : isFinite a = true) (hb : isFinite b = true) (hx : value24 a * value24 b ≠ 0) :
    fp16Mul env a b = ((roundInt (value24 a * value24 b) env.rm).1,
      flagIf (isDenormal a || isDenormal b) flagDE ||| (roundInt (value24 a * value24 b) env.rm).2) := by
  obtain ⟨hanan, hainf⟩ := isFinite_iff.mp ha
  obtain ⟨hbnan, hbinf⟩ := isFinite_iff.mp hb
  obtain ⟨hazero, hbzero⟩ : isZero a = false ∧ isZero b = false := by
    rw [← Bool.not_eq_true, ← Bool.not_eq_true, ← value24_eq_zero_iff, ← value24_eq_zero_iff]
    exact mul_ne_zero_iff.mp hx
  have hmag : (value24 a * value24 b).natAbs = magnitude24 a * magnitude24 b := by
    rw [Int.natAbs_mul, natAbs_value24, natAbs_value24]
  have hsign : decide (value24 a * value24 b < 0) = (fpSign a ^^ fpSign b) := by
    rw [value24_mul_value24] at hx ⊢
    generalize magnitude24 a * magnitude24 b = n at hx ⊢
    generalize (fpSign a ^^ fpSign b) = s at hx ⊢
    cases s with
    | false => exact decide_eq_false (by simp)
    | true =>
      rw [if_pos rfl] at hx ⊢
      exact decide_eq_true (by omega)
  rw [fp16Mul, operandOf_of_not_daz hdaz, operandOf_of_not_daz hdaz,
    mulCore_of_valid hanan hbnan (not_zeroTimesInfinity_of_isFinite ha hb), roundFp16_of_not_ftz hftz, roundInt, hmag, hsign]
  simp [hainf, hbinf, hazero, hbzero]

include hdaz in
theorem fp16Mul_of_eq_zero {a b : Fp16} (ha : isFinite a = true) (hb : isFinite b = true) (hx : value24 a * value24 b = 0) :
    fp16Mul env a b = (fpZero (fpSign a ^^ fpSign b), flagIf (isDenormal a || isDenormal b) flagDE) := by
  obtain ⟨hanan, hainf⟩ := isFinite_iff.mp ha
  obtain ⟨hbnan, hbinf⟩ := isFinite_iff.mp hb
  have hzero : (isZero a || isZero b) = true := by
    rw [Bool.or_eq_true, ← value24_eq_zero_iff, ← value24_eq_zero_iff]
    exact mul_eq_zero.mp hx
  rw [fp16Mul, operandOf_of_not_daz hdaz, operandOf_of_not_daz hdaz,
    mulCore_of_valid hanan hbnan (not_zeroTimesInfinity_of_isFinite ha hb), if_neg (by simp [hainf, hbinf]), if_pos hzero]

include hdaz hftz in
theorem fp16Fma_of_ne_zero {neg : Bool} {a b c : Fp16} (ha : isFinite a = true) (hb : isFinite b = true) (hc : isFinite c = true)
    (hx : fusedExact neg a b c ≠ 0) :
    fp16Fma env neg a b c = ((roundInt (fusedExact neg a b c) env.rm).1,
      fusedDe a b c ||| (roundInt (fusedExact neg a b c) env.rm).2) := by
  obtain ⟨hanan, hainf⟩ := isFinite_iff.mp ha
  obtain ⟨hbnan, hbinf⟩ := isFinite_iff.mp hb
  obtain ⟨hcnan, hcinf⟩ := isFinite_iff.mp hc
  rw [fp16Fma, operandOf_of_not_daz hdaz, operandOf_of_not_daz hdaz, operandOf_of_not_daz hdaz,
    fmaCore_of_valid hanan hbnan hcnan (not_fusedInvalid_of_isFinite ha hb), if_neg (by simp [hainf, hbinf]), if_neg (by simp [hcinf]),
    exactSum_eq_fusedExact, if_neg hx, roundFp16_of_not_ftz hftz, roundInt]

include hdaz in
theorem fp16Fma_of_eq_zero {neg : Bool} {a b c : Fp16} (ha : isFinite a = true) (hb : isFinite b = true) (hc : isFinite c = true)
    (hx : fusedExact neg a b c = 0) :
    fp16Fma env neg a b c = (zeroSum env.rm (productSign neg a b) a b c, fusedDe a b c) := by
  obtain ⟨hanan, hainf⟩ := isFinite_iff.mp ha
  obtain ⟨hbnan, hbinf⟩ := isFinite_iff.mp hb
  obtain ⟨hcnan, hcinf⟩ := isFinite_iff.mp hc
  rw [fp16Fma, operandOf_of_not_daz hdaz, operandOf_of_not_daz hdaz, operandOf_of_not_daz hdaz,
    fmaCore_of_valid hanan hbnan hcnan (not_fusedInvalid_of_isFinite ha hb), if_neg (by simp [hainf, hbinf]), if_neg (by simp [hcinf]),
    exactSum_eq_fusedExact, if_pos hx]

/-! ### Exact without `PE` -/

theorem value24_fpZero (s : Bool) : isFinite (fpZero s) = true ∧ value24 (fpZero s) = 0 := by
  cases s <;> decide

theorem value24_zeroSum (rm : Rounding) (sp : Bool) (a b c : Fp16) :
    isFinite (zeroSum rm sp a b c) = true ∧ value24 (zeroSum rm sp a b c) = 0 := by
  unfold zeroSum
  split
  · exact value24_fpZero sp
  · cases rm <;> exact value24_fpZero _

include hdaz hftz in
theorem fp16Mul_exact {a b : Fp16} (ha : isFinite a = true) (hb : isFinite b = true) (hpe : (fp16Mul env a b).2 &&& flagPE = 0#6) :
    isFinite (fp16Mul env a b).1 = true ∧ value24 (fp16Mul env a b).1 * 2 ^ 24 = value24 a * value24 b := by
  by_cases hx : value24 a * value24 b = 0
  · rw [fp16Mul_of_eq_zero hdaz ha hb hx, hx]
    obtain ⟨hfin, hval⟩ := value24_fpZero (fpSign a ^^ fpSign b)
    exact ⟨hfin, by rw [hval]; rfl⟩
  · rw [fp16Mul_of_ne_zero hdaz hftz ha hb hx] at hpe ⊢
    rw [flagIf_flagDE_or_and_flagPE] at hpe
    exact roundInt_exact hx hpe

include hdaz hftz in
theorem fp16Fma_exact {neg : Bool} {a b c : Fp16} (ha : isFinite a = true) (hb : isFinite b = true) (hc : isFinite c = true)
    (hpe : (fp16Fma env neg a b c).2 &&& flagPE = 0#6) :
    isFinite (fp16Fma env neg a b c).1 = true ∧ value24 (fp16Fma env neg a b c).1 * 2 ^ 24 = fusedExact neg a b c := by
  by_cases hx : fusedExact neg a b c = 0
  · rw [fp16Fma_of_eq_zero hdaz ha hb hc hx, hx]
    obtain ⟨hfin, hval⟩ := value24_zeroSum env.rm (productSign neg a b) a b c
    exact ⟨hfin, by rw [hval]; rfl⟩
  · rw [fp16Fma_of_ne_zero hdaz hftz ha hb hc hx] at hpe ⊢
    rw [fusedDe, flagIf_flagDE_or_and_flagPE] at hpe
    exact roundInt_exact hx hpe

end Operations

/-- Settles O50: the operations round the exact result, and add `DE`. -/
theorem finiteOperationsAreCorrectlyRounded : Obligations.FiniteOperationsAreCorrectlyRounded := by
  intro env neg a b c hdaz hftz ha hb
  have hround {x : Int} (hx : x ≠ 0) : correctlyRounded (decide (x < 0)) x.natAbs env.rm (roundInt x env.rm) :=
    roundingIsCorrectInEveryMode _ _ _ (Int.natAbs_pos.mpr hx)
  constructor
  · intro x hx
    rw [fp16Mul_of_ne_zero hdaz hftz ha hb hx]
    exact ⟨correctlyRounded_or_flagDE _ (hround hx), BitVec.or_comm _ _⟩
  · intro hc x hx
    rw [fp16Fma_of_ne_zero hdaz hftz ha hb hc hx]
    exact ⟨correctlyRounded_or_flagDE _ (hround hx), BitVec.or_comm _ _⟩

/-! ## Exact results -/

/-- Settles O40: rounding an FP16 value raises no flag, no denormal operand does, and without `PE` the result is exact. -/
theorem exactResultsRaiseNoFlag : Obligations.ExactResultsRaiseNoFlag := by
  intro env neg a b c h hdaz hftz hhfin hoperands
  obtain ⟨⟨ha, hda⟩, ⟨hb, hdb⟩, ⟨hc, hdc⟩, -⟩ : (isFinite a = true ∧ isDenormal a = false) ∧ (isFinite b = true ∧ isDenormal b = false) ∧
      (isFinite c = true ∧ isDenormal c = false) ∧ True := by simpa using hoperands
  constructor
  · intro hexact
    have hflags : (fp16Mul env a b).2 = 0#6 := by
      by_cases hx : value24 a * value24 b = 0
      · rw [fp16Mul_of_eq_zero hdaz ha hb hx]
        simp [hda, hdb, flagIf]
      · rw [fp16Mul_of_ne_zero hdaz hftz ha hb hx, roundInt_snd_of_representable hx env.rm hhfin hexact]
        simp [hda, hdb, flagIf]
    obtain ⟨hfin, hval⟩ := fp16Mul_exact hdaz hftz ha hb (by rw [hflags]; rfl)
    exact ⟨hflags, hfin, by omega⟩
  · intro hexact
    have hflags : (fp16Fma env neg a b c).2 = 0#6 := by
      by_cases hx : fusedExact neg a b c = 0
      · rw [fp16Fma_of_eq_zero hdaz ha hb hc hx]
        simp [fusedDe, hda, hdb, hdc, flagIf]
      · rw [fp16Fma_of_ne_zero hdaz hftz ha hb hc hx, roundInt_snd_of_representable hx env.rm hhfin hexact]
        simp [fusedDe, hda, hdb, hdc, flagIf]
    obtain ⟨hfin, hval⟩ := fp16Fma_exact hdaz hftz ha hb hc (by rw [hflags]; rfl)
    rw [fusedExact] at hval
    exact ⟨hflags, hfin, by omega⟩

theorem or_and_flagPE_eq_zero_iff {f g : FpFlags} : (f ||| g) &&& flagPE = 0#6 ↔ f &&& flagPE = 0#6 ∧ g &&& flagPE = 0#6 := by
  rw [BitVec.and_or_distrib_right, BitVec.or_eq_zero_iff]

/-- The real part is a fused operation on the first temporary (R136). -/
theorem cmulElement_re (conj : Bool) (env : FpEnv) (a b : Dword) :
    (cmulElement conj env a b).re =
      (fp16Fma env (!conj) (imagPart a) (imagPart b) (fp16Mul env (realPart a) (realPart b)).1).1 := by
  cases conj <;> rfl

/-- The imaginary part is a fused operation on the second temporary. -/
theorem cmulElement_im (conj : Bool) (env : FpEnv) (a b : Dword) :
    (cmulElement conj env a b).im = (fp16Fma env conj (realPart a) (imagPart b) (fp16Mul env (imagPart a) (realPart b)).1).1 := by
  cases conj <;> rfl

/-- Settles O41: each of the four operations is exact, and the temporaries are finite addends of the fused ones. -/
theorem complexProductIsExactWithoutPrecisionFlag : Obligations.ComplexProductIsExactWithoutPrecisionFlag := by
  intro conj env a b hdaz hftz hfinite hpe
  simp only [List.forall_mem_cons] at hfinite
  obtain ⟨har, hai, hbr, hbi, -⟩ := hfinite
  rw [cmulElement_flags, or_and_flagPE_eq_zero_iff, or_and_flagPE_eq_zero_iff, or_and_flagPE_eq_zero_iff] at hpe
  obtain ⟨⟨⟨hpetre, hpetim⟩, hpere⟩, hpeim⟩ := hpe
  obtain ⟨htre, hvtre⟩ := fp16Mul_exact hdaz hftz har hbr hpetre
  obtain ⟨htim, hvtim⟩ := fp16Mul_exact hdaz hftz hai hbr hpetim
  obtain ⟨hre, hvre⟩ := fp16Fma_exact hdaz hftz hai hbi htre hpere
  obtain ⟨him, hvim⟩ := fp16Fma_exact hdaz hftz har hbi htim hpeim
  rw [fusedExact, hvtre] at hvre
  rw [fusedExact, hvtim] at hvim
  rw [cmulElement_re, cmulElement_im]
  refine ⟨hre, him, ?_, ?_⟩
  · rw [hvre, exactRe]
    cases conj <;> simp [add_comm, sub_eq_add_neg]
  · rw [hvim, exactIm]
    cases conj <;> simp [add_comm, sub_eq_add_neg]

end Sys2Proof.Machine
end
